-- ==== Sys2Proof/Word.lean ====
section
/-! DEFINITION. The value types of CORE (00_scope.md R7; notes/assumptions/1.md). The width XLEN is a parameter of the
model (R6), so a word is a natural number, the range below 2^XLEN being part of the machine's invariant. The names Word,
Record and RegIdx abbreviate Nat; `omega` sees through them after `dsimp only [Word] at *`, `lia` and `grind` do at once. -/

namespace Sys2Proof

/-- A machine word: an unsigned integer, 0 to 2^XLEN - 1 (R7). Registers, data cells, addresses and operand payloads are
words. -/
abbrev Word := Nat

/-- The 8-bit value that crosses a byte port (R142, R143), and one byte of a program text (R80). -/
abbrev Byte := BitVec 8

/-- The 16-bit header of an instruction record (R64). -/
abbrev Header := BitVec 16

/-- The binary form of an instruction record: a number of ILEN = 16 + 3 * XLEN bits (R64). -/
abbrev Record := Nat

/-- A register index, 0 to NREG - 1 (R20, R61). -/
abbrev RegIdx := Nat

end Sys2Proof
end

