-- ==== Sys2Proof/Config.lean ====
section
/-! DEFINITION. What an implementation of CORE fixes: the parameters of 00_scope.md R6, which every state
carries, and the open points of the assembler (92_eei_decisions.md D23), as named arguments of the loader. -/

namespace Sys2Proof

/-- The two assignments of the last two register indices that R6 and R22 allow to PC_IDX and SP_IDX (D3;
notes/assumptions/3.md). -/
inductive RegLayout where
  /-- The reference assignment: PC_IDX = NREG - 2, SP_IDX = NREG - 1. -/
  | pcThenSp
  /-- The other one: SP_IDX = NREG - 2, PC_IDX = NREG - 1. -/
  | spThenPc
deriving DecidableEq, Repr

/-- The parameters of a machine (R6), fixed at its creation. No definition of the model fixes one of them. -/
structure Params where
  /-- XLEN, the width in bits of a word (D1; notes/assumptions/1.md). -/
  xlen : Nat
  /-- NREG, the number of registers (D2; notes/assumptions/2.md). -/
  nreg : Nat
  /-- PC_IDX and SP_IDX (D3; notes/assumptions/3.md). -/
  layout : RegLayout
  /-- CAPACITY, the number of cells of the address space (R29, D4; notes/assumptions/4.md). -/
  capacity : Nat
deriving DecidableEq, Repr

/-- The reference instance of R6, with the default CAPACITY: the one of opcode_table.json and 95_test_vectors.md. -/
def Params.reference : Params where
  xlen := 32
  nreg := 16
  layout := .pcThenSp
  capacity := 8192

/-- PC_IDX (R6, R22). -/
def Params.pcIdx (p : Params) : RegIdx :=
  match p.layout with
  | .pcThenSp => p.nreg - 2
  | .spThenPc => p.nreg - 1

/-- SP_IDX (R6, R22). -/
def Params.spIdx (p : Params) : RegIdx :=
  match p.layout with
  | .pcThenSp => p.nreg - 1
  | .spThenPc => p.nreg - 2

/-- ILEN, the width in bits of an instruction record (R64). -/
def Params.ilen (p : Params) : Nat := 16 + 3 * p.xlen

/-- The constraints of R6's table on the parameters, and that every register index is a word, as R61 says of the payload of
a Register operand (notes/assumptions/2.md). -/
structure Params.Legal (p : Params) : Prop where
  xlen_ge : 8 ≤ p.xlen
  nreg_ge : 2 ≤ p.nreg
  nreg_le : p.nreg ≤ 2 ^ p.xlen
  capacity_pos : 1 ≤ p.capacity
  capacity_le : p.capacity ≤ 2 ^ p.xlen - 1

/-- What the assembler does with a decimal literal of 2^XLEN or more (D23, LITERAL_OVERFLOW). -/
inductive LiteralOverflow where
  | reject
  | wrap
deriving DecidableEq, Repr

/-- The open points of the assembler: the six of D23 under the spec's own names, then four more that the spec leaves
open elsewhere (notes/assumptions/21.md and 23.md). A claim about the loader holds for every value of them. -/
structure LoaderParams where
  /-- REGNAME_CASE_INSENSITIVE: `R0`, `PC`, `Sp` are register names (N10). -/
  regNameCaseInsensitive : Bool
  /-- LITERAL_OVERFLOW (N11). -/
  literalOverflow : LiteralOverflow
  /-- QUOTE_KEEPS_SPACE: white space inside quotes does not end a token (N12). -/
  quoteKeepsSpace : Bool
  /-- CHAR_ESCAPES: a Character token may hold an escape of R94 (N13). -/
  charEscapes : Bool
  /-- TRAILING_COMMENT: a `;` outside quotes ends the statement (N14). -/
  trailingComment : Bool
  /-- LEADING_ZEROS: `r007` is `r7` and `007` is `7` (N15). -/
  leadingZeros : Bool
  /-- Whether an empty digit string (`r` or `#` alone) reads as 0 or is malformed (N15). -/
  emptyDigitsAreZero : Bool
  /-- Whether a line whose first byte that is not white space is `;` is a comment line although white space
  stands before it (R80 says "lines beginning with `;`"). -/
  indentedComment : Bool
  /-- Which of the two load faults that R195 names an image with too many instructions, or a machine with a
  CAPACITY out of range, gets: `NoMemory` if true, `InvalidInstruction` if false (D20, N16). -/
  refusedImageIsNoMemory : Bool
  /-- Whether the address of a DS with an empty string is checked (D22). -/
  emptyStringChecked : Bool
deriving DecidableEq, Repr

end Sys2Proof
end

