-- ==== Sys2Proof/Machine/State.lean ====
section
/-! DEFINITION. The state of CORE (10_state.md, 60_exceptions.md R160, R170), the ways the model itself can stop, and the
state after reset (R37, R190). -/

namespace Sys2Proof.Machine

/-- The run-time exception codes (R160). -/
inductive Cause where
  /-- `None`: BREAK executed, a clean stop and not a fault (R168). -/
  | none
  /-- `InvalidInstruction`: pc outside the code region at fetch, a record that is not well formed, a JUMP target
  outside the code region. -/
  | invalidInstruction
  /-- `AccessViolation`: a data access outside the data region. -/
  | accessViolation
  /-- `NoInstruction`: the fetched cell holds the null record. -/
  | noInstruction
deriving DecidableEq, Repr

/-- The load faults (R170). NoMemory and FileOpen are faults of the software environment (R5): the loader of this model
raises FileOpen never, NoMemory only for an image the spec leaves both answers open for (notes/assumptions/23.md). -/
inductive LoadFault where
  | invalidInstruction
  | unknownInstruction
  | noMemory
  | fileOpen
deriving DecidableEq, Repr

/-- Cells by cell address, in canonical form: addresses strictly rising and no entry 0, which is what an unlisted cell
holds, because memory is zero-initialised at creation (R37, R47; notes/assumptions/12.md). -/
abbrev Store := List (Nat × Nat)

/-- The machine. `params` is fixed at creation, `imem` and `ibound` by the load (R9, R28, R33). -/
structure State where
  /-- XLEN, NREG, PC_IDX, SP_IDX and CAPACITY (R6, R22, R29). -/
  params : Params
  /-- The register file, pc and sp included: NREG words, register 0 first (R20, R22). -/
  regs : List Word
  /-- The data store, a word per cell (R34). -/
  dmem : Store
  /-- The instruction store: raw records, so that a cell can hold any bit pattern (R33, R69). -/
  imem : Store
  /-- IBOUND, the number of cells of the code region (R28). -/
  ibound : Nat
  /-- The fault slot's first half: set for ever by the first exception or BREAK (R30). -/
  stopped : Bool
  /-- The fault slot's second half, meaningful only when `stopped` is set (R30). -/
  cause : Cause
  /-- The load-fault slot (R31). -/
  loadFault : Option LoadFault
  /-- The bytes the environment has supplied and no READ has taken, the next one first (R36, R143). The MODEL's own
  field: its content is under no law (notes/assumptions/7.md). -/
  input : List Byte
  /-- The bytes sent by Emit, oldest first (R36, R142). -/
  output : List Byte
deriving DecidableEq, Repr

/-- What stops the model with no next state. -/
inductive Fault where
  /-- Raised by `step` in a state with `stopped` set: a stopped core takes no step (R109, D11). Safe: the spec gives
  such a step no transition. -/
  | steppedWhileStopped
  /-- Raised by `raise` on a fault slot that is already set, R107's `require stopped = 0`; no step reaches it, since
  `step` stops first. Safe: the spec calls it an unreachable defect that must never silently overwrite (R167). -/
  | faultSlotAlreadySet
  /-- Raised by `recordLoadFault` on a load-fault slot that is already set; no load reaches it, since a load runs only on
  a machine just created. Safe: as for the fault slot (R31, R167; notes/assumptions/30.md). -/
  | loadFaultAlreadySet
deriving DecidableEq, Repr

/-- What the model takes no step for, in the state it is asked. -/
inductive Refusal where
  /-- Raised by `exec` for an instruction without a meaning; no arm of this model does. Safe. -/
  | notModelled (mnemonic : String)
  /-- Raised by `step` when the load-fault slot is set: such a machine must never be stepped (R31, R195). Safe. -/
  | loadFaultSet
  /-- Raised by a READ while no byte is available: its step is not enabled until the environment supplies one (R143,
  R205; 93_implementation_defined.md item 12). No state changes, and it is no fault. Safe: the spec has no transition
  there (notes/assumptions/7.md). -/
  | waitsForInput
  /-- Raised by `State.load` on a machine that is not just created: no second load exists, nor one after the first step
  (R191, R193; notes/assumptions/30.md). Safe. -/
  | notJustCreated
deriving DecidableEq, Repr

/-- The outcome of a step, of an instruction or of a load. -/
abbrev Result := Host.Outcome State Fault Refusal

/-- Creation of the machine (R37, R190): memory zero, IBOUND 0, both slots unset, every register 0. The value of
`cause` means nothing while `stopped` is false (notes/assumptions/6.md); `input` and `output` start empty. -/
def State.create (p : Params) : State where
  params := p
  regs := List.replicate p.nreg 0
  dmem := []
  imem := []
  ibound := 0
  stopped := false
  cause := .none
  loadFault := none
  input := []
  output := []

/-- The machine after reset: the reference instance, created with the default capacity (R6, R37, R190; D1 to D3). -/
def State.reset : State := State.create .reference

end Sys2Proof.Machine
end

