-- ==== Sys2Proof/Machine/Ops.lean ====
section
/-! DEFINITION. The named operations of CORE: stores, registers, the three address predicates, the access primitives,
the advance of pc, the byte ports, and taking an exception (00_scope.md R7, R8, 20_memory.md, 40_step_cycle.md R106, R107).
There is no return from an exception to model: no such operation exists (60_exceptions.md R167). -/

namespace Sys2Proof.Machine

/-! ## Stores -/

/-- What a cell holds; a cell nothing has written holds 0 (R47). -/
def Store.read : Store → Nat → Nat
  | [], _ => 0
  | (a, v) :: m, k => if a = k then v else Store.read m k

/-- The store after cell `k` is replaced by `v`, in canonical form again (R48). -/
def Store.write : Store → Nat → Nat → Store
  | [], k, v => if v = 0 then [] else [(k, v)]
  | (a, u) :: m, k, v =>
    if k < a then (if v = 0 then (a, u) :: m else (k, v) :: (a, u) :: m)
    else if k = a then (if v = 0 then m else (k, v) :: m)
    else (a, u) :: Store.write m k v

/-- The canonical form: addresses strictly rising, no entry 0. -/
def Store.wf : Store → Bool
  | [] => true
  | (a, v) :: m => decide (v ≠ 0) && m.all (fun e => decide (a < e.1)) && Store.wf m

/-! ## Registers -/

/-- `x[i]` (R20). An index of NREG or more names no register and no instruction that decodes holds one. -/
def State.x (s : State) (i : RegIdx) : Word := s.regs.getD i 0

/-- `x[i] <- v`: the whole word is replaced (R20). -/
def State.setX (s : State) (i : RegIdx) (v : Word) : State := { s with regs := s.regs.set i v }

/-- PC_IDX (R6). -/
def State.pcIdx (s : State) : RegIdx := s.params.pcIdx

/-- SP_IDX (R6). -/
def State.spIdx (s : State) : RegIdx := s.params.spIdx

/-- `pc` (R8, R24). -/
def State.pc (s : State) : Word := s.x s.pcIdx

/-- `sp` (R8, R26). -/
def State.sp (s : State) : Word := s.x s.spIdx

/-- `pc <- target` (R8, R24). -/
def State.setPc (s : State) (target : Word) : State := s.setX s.pcIdx target

/-- `sp <- v` (R26). -/
def State.setSp (s : State) (v : Word) : State := s.setX s.spIdx v

/-! ## Arithmetic modulo 2^XLEN -/

/-- `a +w b` (R7, R137). -/
def aluAdd (p : Params) (a b : Word) : Word := (a + b) % 2 ^ p.xlen

/-- `a -w b` (R7, R137). -/
def aluSub (p : Params) (a b : Word) : Word := (a + 2 ^ p.xlen - b) % 2 ^ p.xlen

/-- `AdvancePC`: `x[PC_IDX] <- x[PC_IDX] +w 1`, on whatever pc holds when it runs (R106, R25). -/
def State.advancePc (s : State) : State := s.setPc (aluAdd s.params s.pc 1)

/-! ## Address predicates -/

/-- `ExecValid(a)`: a is in the code region (R44). -/
def State.execValid (s : State) (a : Nat) : Bool := decide (a < s.ibound)

/-- `ReadValid(a, r)`: a and the `r` cells beyond it are in the data region, the sum over the unbounded integers (R45). -/
def State.readValid (s : State) (a r : Nat) : Bool := decide (s.ibound ≤ a) && decide (a + r < s.params.capacity)

/-- `WriteValid(a, r)`: the identical rule (R45). -/
def State.writeValid (s : State) (a r : Nat) : Bool := decide (s.ibound ≤ a) && decide (a + r < s.params.capacity)

/-! ## Access primitives -/

/-- What data cell `a` holds; the read of one cell, without its check. -/
def State.dataAt (s : State) (a : Nat) : Word := s.dmem.read a

/-- `IFetch(a)`: the record in cell `a` of the instruction store (R46). -/
def State.ifetch (s : State) (a : Nat) : Record := s.imem.read a

/-- `MemRead(a, 1)` (R47). -/
def State.memRead (s : State) (a : Word) : Except Cause Word :=
  if s.readValid a 0 then .ok (s.dataAt a) else .error .accessViolation

/-- The check of `MemWrite(a, 1, v)`, made before any write (R48, R130). -/
def State.checkWrite (s : State) (a : Word) : Except Cause Unit :=
  if s.writeValid a 0 then .ok () else .error .accessViolation

/-- `dmem[a] <- v`: the whole cell is replaced, no other changes (R48). -/
def State.setData (s : State) (a : Nat) (v : Word) : State := { s with dmem := s.dmem.write a v }

/-- `MemWrite(a, 1, v)` (R48). -/
def State.memWrite (s : State) (a v : Word) : Except Cause State :=
  match s.checkWrite a with
  | .ok () => .ok (s.setData a v)
  | .error e => .error e

/-! ## Byte ports -/

/-- `zext_XLEN(b)` (R8, R141). -/
def zextByte (b : Byte) : Word := b.toNat

/-- `trunc_8(v)`: bits 7 to 0 (R8, R140). -/
def truncByte (v : Word) : Byte := BitVec.ofNat 8 v

/-- `Emit(b)`: appends to the output, always completes (R142). -/
def State.emit (s : State) (b : Byte) : State := { s with output := s.output ++ [b] }

/-- `Receive()`: the next byte the environment supplies and the state with that byte consumed; none while no byte is
available (R143). -/
def State.receive (s : State) : Option (Byte × State) :=
  match s.input with
  | [] => none
  | b :: rest => some (b, { s with input := rest })

/-! ## Taking an exception -/

/-- What `raise E` writes: `cause <- E`, `stopped <- 1`, and nothing else (R107, R166). -/
def State.stopWith (s : State) (e : Cause) : State := { s with stopped := true, cause := e }

/-- `raise E` (R107): with its `require stopped = 0`, and the code recorded, the core stopped. The state it is given is
the state at the start of the instruction, so that an instruction that raises has had no effect at all. -/
def raise (e : Cause) (s : State) : Result :=
  if s.stopped then .fault .faultSlotAlreadySet else .next (s.stopWith e)

/-- Set the load-fault slot, which is single-shot like the fault slot: one that is already set is never overwritten (R31,
R167). -/
def recordLoadFault (e : LoadFault) (s : State) : Result :=
  if s.loadFault.isSome then .fault .loadFaultAlreadySet else .next { s with loadFault := some e }

/-- Go on with a value, or raise the exception that a check answered, in the state `s` before the instruction. -/
def onOk {α : Type} (r : Except Cause α) (s : State) (k : α → Result) : Result :=
  match r with
  | .ok v => k v
  | .error e => raise e s

/-- The number of an exception code, for a host that reads `cause` as a number (R160, D10). -/
def Cause.code : Cause → Nat
  | .none => 0
  | .invalidInstruction => 1
  | .accessViolation => 2
  | .noInstruction => 3

end Sys2Proof.Machine
end

