-- ==== Sys2Proof/Syntax.lean ====
section
/-! DEFINITION. The instruction set as syntax: opcodes, operand kinds, operands (30_encoding.md R60 to R63) and Instr,
one constructor per form of R68, that is per row of spec/opcode_table.json. -/

namespace Sys2Proof

/-- The closed opcode set (R62). BREAK is spelt `brk`, since `break` is a word of Lean. -/
inductive Opcode where
  | jump | cond | move | add | sub | write | read | load | store | push | pop | brk
deriving DecidableEq, Repr

/-- The four operand kinds (R61). -/
inductive Kind where
  | register | address | constant | character
deriving DecidableEq, Repr

/-- An operand: a kind with its payload (R61). A Register payload is an index below NREG, a Character payload the code
of a single byte, an Address or Constant payload a full word. -/
inductive Operand where
  | reg (r : RegIdx)
  | addr (a : Word)
  | const (c : Word)
  | char (b : Byte)
deriving DecidableEq, Repr

/-- The kind of an operand (R61). -/
def Operand.kind : Operand → Kind
  | .reg _ => .register
  | .addr _ => .address
  | .const _ => .constant
  | .char _ => .character

/-- The operand count of an opcode (R63). -/
def Opcode.operandCount : Opcode → Nat
  | .jump | .cond | .write | .read | .push | .pop => 1
  | .move | .load | .store => 2
  | .add | .sub => 3
  | .brk => 0

/-- An instruction of CORE: one constructor per legal form (R68). The letters after the mnemonic are the operand kinds
of R65: R Register, A Address, C Constant, H Character. -/
inductive Instr where
  /-- JUMP `R--`, hdr 0x1200 (R120). -/
  | jumpR (target : RegIdx)
  /-- JUMP `A--`, hdr 0x1400 (R120). -/
  | jumpA (target : Word)
  /-- COND `R--`, hdr 0x2200 (R121). -/
  | condR (tested : RegIdx)
  /-- COND `C--`, hdr 0x2600 (R121). -/
  | condC (tested : Word)
  /-- COND `A--`, hdr 0x2400 (R121). -/
  | condA (tested : Word)
  /-- MOVE `RR-`, hdr 0x3240 (R130). -/
  | moveRR (dest : RegIdx) (src : RegIdx)
  /-- MOVE `RC-`, hdr 0x32C0 (R130). -/
  | moveRC (dest : RegIdx) (src : Word)
  /-- MOVE `RA-`, hdr 0x3280 (R130). -/
  | moveRA (dest : RegIdx) (src : Word)
  /-- MOVE `AR-`, hdr 0x3440 (R130). -/
  | moveAR (dest : Word) (src : RegIdx)
  /-- MOVE `AC-`, hdr 0x34C0 (R130). -/
  | moveAC (dest : Word) (src : Word)
  /-- MOVE `AA-`, hdr 0x3480 (R130). -/
  | moveAA (dest : Word) (src : Word)
  /-- ADD `RRR`, hdr 0x4248 (R135). -/
  | addRRR (dest : RegIdx) (a : RegIdx) (b : RegIdx)
  /-- ADD `RRC`, hdr 0x4258 (R135). -/
  | addRRC (dest : RegIdx) (a : RegIdx) (b : Word)
  /-- ADD `RRA`, hdr 0x4250 (R135). -/
  | addRRA (dest : RegIdx) (a : RegIdx) (b : Word)
  /-- ADD `RCR`, hdr 0x42C8 (R135). -/
  | addRCR (dest : RegIdx) (a : Word) (b : RegIdx)
  /-- ADD `RCC`, hdr 0x42D8 (R135). -/
  | addRCC (dest : RegIdx) (a : Word) (b : Word)
  /-- ADD `RCA`, hdr 0x42D0 (R135). -/
  | addRCA (dest : RegIdx) (a : Word) (b : Word)
  /-- ADD `RAR`, hdr 0x4288 (R135). -/
  | addRAR (dest : RegIdx) (a : Word) (b : RegIdx)
  /-- ADD `RAC`, hdr 0x4298 (R135). -/
  | addRAC (dest : RegIdx) (a : Word) (b : Word)
  /-- ADD `RAA`, hdr 0x4290 (R135). -/
  | addRAA (dest : RegIdx) (a : Word) (b : Word)
  /-- SUB `RRR`, hdr 0x5248 (R136). -/
  | subRRR (dest : RegIdx) (a : RegIdx) (b : RegIdx)
  /-- SUB `RRC`, hdr 0x5258 (R136). -/
  | subRRC (dest : RegIdx) (a : RegIdx) (b : Word)
  /-- SUB `RRA`, hdr 0x5250 (R136). -/
  | subRRA (dest : RegIdx) (a : RegIdx) (b : Word)
  /-- SUB `RCR`, hdr 0x52C8 (R136). -/
  | subRCR (dest : RegIdx) (a : Word) (b : RegIdx)
  /-- SUB `RCC`, hdr 0x52D8 (R136). -/
  | subRCC (dest : RegIdx) (a : Word) (b : Word)
  /-- SUB `RCA`, hdr 0x52D0 (R136). -/
  | subRCA (dest : RegIdx) (a : Word) (b : Word)
  /-- SUB `RAR`, hdr 0x5288 (R136). -/
  | subRAR (dest : RegIdx) (a : Word) (b : RegIdx)
  /-- SUB `RAC`, hdr 0x5298 (R136). -/
  | subRAC (dest : RegIdx) (a : Word) (b : Word)
  /-- SUB `RAA`, hdr 0x5290 (R136). -/
  | subRAA (dest : RegIdx) (a : Word) (b : Word)
  /-- WRITE `H--`, hdr 0x6800 (R140). -/
  | writeH (src : Byte)
  /-- WRITE `C--`, hdr 0x6600 (R140). -/
  | writeC (src : Word)
  /-- WRITE `R--`, hdr 0x6200 (R140). -/
  | writeR (src : RegIdx)
  /-- READ `R--`, hdr 0x7200 (R141). -/
  | readR (dest : RegIdx)
  /-- LOAD `RR-`, hdr 0x8240 (R145). -/
  | loadRR (dest : RegIdx) (addr : RegIdx)
  /-- LOAD `RC-`, hdr 0x82C0 (R145). -/
  | loadRC (dest : RegIdx) (addr : Word)
  /-- STORE `RR-`, hdr 0x9240 (R146). -/
  | storeRR (addr : RegIdx) (value : RegIdx)
  /-- STORE `RC-`, hdr 0x92C0 (R146). -/
  | storeRC (addr : RegIdx) (value : Word)
  /-- STORE `CR-`, hdr 0x9640 (R146). -/
  | storeCR (addr : Word) (value : RegIdx)
  /-- STORE `CC-`, hdr 0x96C0 (R146). -/
  | storeCC (addr : Word) (value : Word)
  /-- PUSH `R--`, hdr 0xA200 (R150). -/
  | pushR (value : RegIdx)
  /-- PUSH `C--`, hdr 0xA600 (R150). -/
  | pushC (value : Word)
  /-- POP `R--`, hdr 0xB200 (R151). -/
  | popR (dest : RegIdx)
  /-- BREAK `---`, hdr 0xC000 (R155). -/
  | brk
deriving DecidableEq, Repr

/-- The opcode of an instruction (R60). -/
def Instr.opcode : Instr → Opcode
  | .jumpR _ => .jump
  | .jumpA _ => .jump
  | .condR _ => .cond
  | .condC _ => .cond
  | .condA _ => .cond
  | .moveRR _ _ => .move
  | .moveRC _ _ => .move
  | .moveRA _ _ => .move
  | .moveAR _ _ => .move
  | .moveAC _ _ => .move
  | .moveAA _ _ => .move
  | .addRRR _ _ _ => .add
  | .addRRC _ _ _ => .add
  | .addRRA _ _ _ => .add
  | .addRCR _ _ _ => .add
  | .addRCC _ _ _ => .add
  | .addRCA _ _ _ => .add
  | .addRAR _ _ _ => .add
  | .addRAC _ _ _ => .add
  | .addRAA _ _ _ => .add
  | .subRRR _ _ _ => .sub
  | .subRRC _ _ _ => .sub
  | .subRRA _ _ _ => .sub
  | .subRCR _ _ _ => .sub
  | .subRCC _ _ _ => .sub
  | .subRCA _ _ _ => .sub
  | .subRAR _ _ _ => .sub
  | .subRAC _ _ _ => .sub
  | .subRAA _ _ _ => .sub
  | .writeH _ => .write
  | .writeC _ => .write
  | .writeR _ => .write
  | .readR _ => .read
  | .loadRR _ _ => .load
  | .loadRC _ _ => .load
  | .storeRR _ _ => .store
  | .storeRC _ _ => .store
  | .storeCR _ _ => .store
  | .storeCC _ _ => .store
  | .pushR _ => .push
  | .pushC _ => .push
  | .popR _ => .pop
  | .brk => .brk

/-- The operands of an instruction, operand 0 first (R60, R63). -/
def Instr.operands : Instr → List Operand
  | .jumpR target => [.reg target]
  | .jumpA target => [.addr target]
  | .condR tested => [.reg tested]
  | .condC tested => [.const tested]
  | .condA tested => [.addr tested]
  | .moveRR dest src => [.reg dest, .reg src]
  | .moveRC dest src => [.reg dest, .const src]
  | .moveRA dest src => [.reg dest, .addr src]
  | .moveAR dest src => [.addr dest, .reg src]
  | .moveAC dest src => [.addr dest, .const src]
  | .moveAA dest src => [.addr dest, .addr src]
  | .addRRR dest a b => [.reg dest, .reg a, .reg b]
  | .addRRC dest a b => [.reg dest, .reg a, .const b]
  | .addRRA dest a b => [.reg dest, .reg a, .addr b]
  | .addRCR dest a b => [.reg dest, .const a, .reg b]
  | .addRCC dest a b => [.reg dest, .const a, .const b]
  | .addRCA dest a b => [.reg dest, .const a, .addr b]
  | .addRAR dest a b => [.reg dest, .addr a, .reg b]
  | .addRAC dest a b => [.reg dest, .addr a, .const b]
  | .addRAA dest a b => [.reg dest, .addr a, .addr b]
  | .subRRR dest a b => [.reg dest, .reg a, .reg b]
  | .subRRC dest a b => [.reg dest, .reg a, .const b]
  | .subRRA dest a b => [.reg dest, .reg a, .addr b]
  | .subRCR dest a b => [.reg dest, .const a, .reg b]
  | .subRCC dest a b => [.reg dest, .const a, .const b]
  | .subRCA dest a b => [.reg dest, .const a, .addr b]
  | .subRAR dest a b => [.reg dest, .addr a, .reg b]
  | .subRAC dest a b => [.reg dest, .addr a, .const b]
  | .subRAA dest a b => [.reg dest, .addr a, .addr b]
  | .writeH src => [.char src]
  | .writeC src => [.const src]
  | .writeR src => [.reg src]
  | .readR dest => [.reg dest]
  | .loadRR dest addr => [.reg dest, .reg addr]
  | .loadRC dest addr => [.reg dest, .const addr]
  | .storeRR addr value => [.reg addr, .reg value]
  | .storeRC addr value => [.reg addr, .const value]
  | .storeCR addr value => [.const addr, .reg value]
  | .storeCC addr value => [.const addr, .const value]
  | .pushR value => [.reg value]
  | .pushC value => [.const value]
  | .popR dest => [.reg dest]
  | .brk => []

end Sys2Proof
end

