-- ==== Sys2Proof/Machine/Operands.lean ====
section
/-! DEFINITION. Operand resolution (40_step_cycle.md R104, R105) and the address that POP computes (20_memory.md R57).
The hardware has no flags (10_state.md R27), so there is no flag computation and no Flags.lean. -/

namespace Sys2Proof.Machine

/-- `SrcVal(k, v)`: the value of an operand in a source position (R104). -/
def State.srcVal (s : State) : Operand → Except Cause Word
  | .reg r => .ok (s.x r)
  | .const c => .ok c
  | .char b => .ok (zextByte b)
  | .addr a => s.memRead a

/-- `AddrOf(k, v)`: the address named by the address operand of LOAD and STORE, Register or Constant, and the target of
JUMP, Register or Address (R105). No instruction has a Character there; its payload is then the word itself. -/
def State.addrOf (s : State) : Operand → Word
  | .reg r => s.x r
  | .const c => c
  | .addr a => a
  | .char b => zextByte b

/-- `sp -w 1`, the address that POP reads (R57). -/
def State.belowSp (s : State) : Word := aluSub s.params s.sp 1

end Sys2Proof.Machine
end

