-- ==== Sys2Proof/Machine/Arithmetic.lean ====
section
/-! DEFINITION. Arithmetic: ADD and SUB (43_arithmetic.md R135, R136). -/

namespace Sys2Proof.Machine

/-- ADD (R135): both sources are read before the destination is written; the sum wraps. -/
def addInto (dest : RegIdx) (a b : Operand) (s : State) : Result :=
  onOk (s.srcVal a) s fun va => onOk (s.srcVal b) s fun vb => .next (s.setX dest (aluAdd s.params va vb)).advancePc

/-- SUB (R136): operand 1 minus operand 2; the difference wraps. -/
def subInto (dest : RegIdx) (a b : Operand) (s : State) : Result :=
  onOk (s.srcVal a) s fun va => onOk (s.srcVal b) s fun vb => .next (s.setX dest (aluSub s.params va vb)).advancePc

/-- ADD `RRR` (R135). -/
def execAddRRR (dest : RegIdx) (a : RegIdx) (b : RegIdx) (s : State) : Result := addInto dest (.reg a) (.reg b) s

/-- ADD `RRC` (R135). -/
def execAddRRC (dest : RegIdx) (a : RegIdx) (b : Word) (s : State) : Result := addInto dest (.reg a) (.const b) s

/-- ADD `RRA` (R135). -/
def execAddRRA (dest : RegIdx) (a : RegIdx) (b : Word) (s : State) : Result := addInto dest (.reg a) (.addr b) s

/-- ADD `RCR` (R135). -/
def execAddRCR (dest : RegIdx) (a : Word) (b : RegIdx) (s : State) : Result := addInto dest (.const a) (.reg b) s

/-- ADD `RCC` (R135). -/
def execAddRCC (dest : RegIdx) (a : Word) (b : Word) (s : State) : Result := addInto dest (.const a) (.const b) s

/-- ADD `RCA` (R135). -/
def execAddRCA (dest : RegIdx) (a : Word) (b : Word) (s : State) : Result := addInto dest (.const a) (.addr b) s

/-- ADD `RAR` (R135). -/
def execAddRAR (dest : RegIdx) (a : Word) (b : RegIdx) (s : State) : Result := addInto dest (.addr a) (.reg b) s

/-- ADD `RAC` (R135). -/
def execAddRAC (dest : RegIdx) (a : Word) (b : Word) (s : State) : Result := addInto dest (.addr a) (.const b) s

/-- ADD `RAA` (R135). -/
def execAddRAA (dest : RegIdx) (a : Word) (b : Word) (s : State) : Result := addInto dest (.addr a) (.addr b) s

/-- SUB `RRR` (R136). -/
def execSubRRR (dest : RegIdx) (a : RegIdx) (b : RegIdx) (s : State) : Result := subInto dest (.reg a) (.reg b) s

/-- SUB `RRC` (R136). -/
def execSubRRC (dest : RegIdx) (a : RegIdx) (b : Word) (s : State) : Result := subInto dest (.reg a) (.const b) s

/-- SUB `RRA` (R136). -/
def execSubRRA (dest : RegIdx) (a : RegIdx) (b : Word) (s : State) : Result := subInto dest (.reg a) (.addr b) s

/-- SUB `RCR` (R136). -/
def execSubRCR (dest : RegIdx) (a : Word) (b : RegIdx) (s : State) : Result := subInto dest (.const a) (.reg b) s

/-- SUB `RCC` (R136). -/
def execSubRCC (dest : RegIdx) (a : Word) (b : Word) (s : State) : Result := subInto dest (.const a) (.const b) s

/-- SUB `RCA` (R136). -/
def execSubRCA (dest : RegIdx) (a : Word) (b : Word) (s : State) : Result := subInto dest (.const a) (.addr b) s

/-- SUB `RAR` (R136). -/
def execSubRAR (dest : RegIdx) (a : Word) (b : RegIdx) (s : State) : Result := subInto dest (.addr a) (.reg b) s

/-- SUB `RAC` (R136). -/
def execSubRAC (dest : RegIdx) (a : Word) (b : Word) (s : State) : Result := subInto dest (.addr a) (.const b) s

/-- SUB `RAA` (R136). -/
def execSubRAA (dest : RegIdx) (a : Word) (b : Word) (s : State) : Result := subInto dest (.addr a) (.addr b) s

end Sys2Proof.Machine
end

