-- ==== Sys2Proof/Machine/Break.lean ====
section
/-! DEFINITION. Program termination: BREAK (47_break.md R155). -/

namespace Sys2Proof.Machine

/-- BREAK (R155): `raise None`; no AdvancePC. -/
def breakStop (s : State) : Result := raise .none s

/-- BREAK `---` (R155). -/
def execBrk (s : State) : Result := breakStop s

end Sys2Proof.Machine
end

