-- ==== Sys2Proof/Machine/ByteIO.lean ====
section
/-! DEFINITION. Byte input and output: WRITE and READ (44_byte_io.md R140, R141). -/

namespace Sys2Proof.Machine

/-- WRITE (R140): the low eight bits of the value are sent. -/
def writeByte (src : Operand) (s : State) : Result :=
  onOk (s.srcVal src) s fun v => .next (s.emit (truncByte v)).advancePc

/-- READ (R141): the received byte, zero-extended, goes to the destination. While no byte is
available its step is not enabled: no state changes, and the environment's next byte ends the wait (R141, R143, R205;
notes/assumptions/7.md). -/
def readInto (dest : RegIdx) (s : State) : Result :=
  match s.receive with
  | none => .refused .waitsForInput
  | some (b, t) => .next (t.setX dest (zextByte b)).advancePc

/-- WRITE `H--` (R140). -/
def execWriteH (src : Byte) (s : State) : Result := writeByte (.char src) s

/-- WRITE `C--` (R140). -/
def execWriteC (src : Word) (s : State) : Result := writeByte (.const src) s

/-- WRITE `R--` (R140). -/
def execWriteR (src : RegIdx) (s : State) : Result := writeByte (.reg src) s

/-- READ `R--` (R141). -/
def execReadR (dest : RegIdx) (s : State) : Result := readInto dest s

end Sys2Proof.Machine
end

