-- ==== Sys2Proof/Machine/ControlTransfer.lean ====
section
/-! DEFINITION. Control transfer: JUMP and COND (41_control_transfer.md R120, R121). -/

namespace Sys2Proof.Machine

/-- JUMP (R120): the target is checked, then pc takes it; no AdvancePC. On a failed check pc is unchanged. -/
def jumpTo (target : Operand) (s : State) : Result :=
  if s.execValid (s.addrOf target) then .next (s.setPc (s.addrOf target)) else raise .invalidInstruction s

/-- COND (R121): the additional increment when the operand is not zero, then the unconditional one. -/
def condOn (tested : Operand) (s : State) : Result :=
  onOk (s.srcVal tested) s fun v => .next (if v ≠ 0 then s.advancePc.advancePc else s.advancePc)

/-- JUMP `R--` (R120). -/
def execJumpR (target : RegIdx) (s : State) : Result := jumpTo (.reg target) s

/-- JUMP `A--` (R120). -/
def execJumpA (target : Word) (s : State) : Result := jumpTo (.addr target) s

/-- COND `R--` (R121). -/
def execCondR (tested : RegIdx) (s : State) : Result := condOn (.reg tested) s

/-- COND `C--` (R121). -/
def execCondC (tested : Word) (s : State) : Result := condOn (.const tested) s

/-- COND `A--` (R121). -/
def execCondA (tested : Word) (s : State) : Result := condOn (.addr tested) s

end Sys2Proof.Machine
end

