-- ==== Sys2Proof/Machine/LoadStore.lean ====
section
/-! DEFINITION. Loads and stores: LOAD and STORE (45_load_store.md R145, R146). -/

namespace Sys2Proof.Machine

/-- LOAD (R145): the address is the operand's value, unchanged; the whole word is loaded. -/
def loadInto (dest : RegIdx) (addr : Operand) (s : State) : Result :=
  onOk (s.memRead (s.addrOf addr)) s fun v => .next (s.setX dest v).advancePc

/-- STORE (R146): the address is checked, then the whole cell is replaced by the value. -/
def storeAt (addr value : Operand) (s : State) : Result :=
  onOk (s.checkWrite (s.addrOf addr)) s fun _ => onOk (s.srcVal value) s fun v =>
    .next (s.setData (s.addrOf addr) v).advancePc

/-- LOAD `RR-` (R145). -/
def execLoadRR (dest : RegIdx) (addr : RegIdx) (s : State) : Result := loadInto dest (.reg addr) s

/-- LOAD `RC-` (R145). -/
def execLoadRC (dest : RegIdx) (addr : Word) (s : State) : Result := loadInto dest (.const addr) s

/-- STORE `RR-` (R146). -/
def execStoreRR (addr : RegIdx) (value : RegIdx) (s : State) : Result := storeAt (.reg addr) (.reg value) s

/-- STORE `RC-` (R146). -/
def execStoreRC (addr : RegIdx) (value : Word) (s : State) : Result := storeAt (.reg addr) (.const value) s

/-- STORE `CR-` (R146). -/
def execStoreCR (addr : Word) (value : RegIdx) (s : State) : Result := storeAt (.const addr) (.reg value) s

/-- STORE `CC-` (R146). -/
def execStoreCC (addr : Word) (value : Word) (s : State) : Result := storeAt (.const addr) (.const value) s

end Sys2Proof.Machine
end

