-- ==== Sys2Proof/Machine/Move.lean ====
section
/-! DEFINITION. Data movement: MOVE (42_move.md R130). -/

namespace Sys2Proof.Machine

/-- MOVE to a register (R130). -/
def moveToReg (dest : RegIdx) (src : Operand) (s : State) : Result :=
  onOk (s.srcVal src) s fun v => .next (s.setX dest v).advancePc

/-- MOVE to a data cell (R130): the source is read, the destination checked, then the cell written. -/
def moveToCell (dest : Word) (src : Operand) (s : State) : Result :=
  onOk (s.srcVal src) s fun v => onOk (s.memWrite dest v) s fun t => .next t.advancePc

/-- MOVE `RR-` (R130). -/
def execMoveRR (dest : RegIdx) (src : RegIdx) (s : State) : Result := moveToReg dest (.reg src) s

/-- MOVE `RC-` (R130). -/
def execMoveRC (dest : RegIdx) (src : Word) (s : State) : Result := moveToReg dest (.const src) s

/-- MOVE `RA-` (R130). -/
def execMoveRA (dest : RegIdx) (src : Word) (s : State) : Result := moveToReg dest (.addr src) s

/-- MOVE `AR-` (R130). -/
def execMoveAR (dest : Word) (src : RegIdx) (s : State) : Result := moveToCell dest (.reg src) s

/-- MOVE `AC-` (R130). -/
def execMoveAC (dest : Word) (src : Word) (s : State) : Result := moveToCell dest (.const src) s

/-- MOVE `AA-` (R130). -/
def execMoveAA (dest : Word) (src : Word) (s : State) : Result := moveToCell dest (.addr src) s

end Sys2Proof.Machine
end

