-- ==== Sys2Proof/Machine/Stack.lean ====
section
/-! DEFINITION. The stack: PUSH and POP (46_stack.md R150, R151). -/

namespace Sys2Proof.Machine

/-- PUSH (R150): the value, read before sp changes, goes to the cell sp names; then sp goes up by 1. -/
def pushValue (value : Operand) (s : State) : Result :=
  onOk (s.checkWrite s.sp) s fun _ => onOk (s.srcVal value) s fun v =>
    let t := s.setData s.sp v
    .next (t.setSp (aluAdd t.params t.sp 1)).advancePc

/-- POP (R151): the cell below sp goes to the destination; then sp, read after that write, goes down by 1. -/
def popInto (dest : RegIdx) (s : State) : Result :=
  onOk (s.memRead s.belowSp) s fun v =>
    let t := s.setX dest v
    .next (t.setSp t.belowSp).advancePc

/-- PUSH `R--` (R150). -/
def execPushR (value : RegIdx) (s : State) : Result := pushValue (.reg value) s

/-- PUSH `C--` (R150). -/
def execPushC (value : Word) (s : State) : Result := pushValue (.const value) s

/-- POP `R--` (R151). -/
def execPopR (dest : RegIdx) (s : State) : Result := popInto dest s

end Sys2Proof.Machine
end

