-- ==== Sys2Proof/Machine/Dispatch.lean ====
section
/-! DEFINITION. Dispatch (40_step_cycle.md R103): one arm per instruction, each one call of its meaning. -/

namespace Sys2Proof.Machine

def exec (i : Instr) (s : State) : Host.Outcome State Fault Refusal :=
  match i with
  | .jumpR target => Sys2Proof.Machine.execJumpR target s
  | .jumpA target => Sys2Proof.Machine.execJumpA target s
  | .condR tested => Sys2Proof.Machine.execCondR tested s
  | .condC tested => Sys2Proof.Machine.execCondC tested s
  | .condA tested => Sys2Proof.Machine.execCondA tested s
  | .moveRR dest src => Sys2Proof.Machine.execMoveRR dest src s
  | .moveRC dest src => Sys2Proof.Machine.execMoveRC dest src s
  | .moveRA dest src => Sys2Proof.Machine.execMoveRA dest src s
  | .moveAR dest src => Sys2Proof.Machine.execMoveAR dest src s
  | .moveAC dest src => Sys2Proof.Machine.execMoveAC dest src s
  | .moveAA dest src => Sys2Proof.Machine.execMoveAA dest src s
  | .addRRR dest a b => Sys2Proof.Machine.execAddRRR dest a b s
  | .addRRC dest a b => Sys2Proof.Machine.execAddRRC dest a b s
  | .addRRA dest a b => Sys2Proof.Machine.execAddRRA dest a b s
  | .addRCR dest a b => Sys2Proof.Machine.execAddRCR dest a b s
  | .addRCC dest a b => Sys2Proof.Machine.execAddRCC dest a b s
  | .addRCA dest a b => Sys2Proof.Machine.execAddRCA dest a b s
  | .addRAR dest a b => Sys2Proof.Machine.execAddRAR dest a b s
  | .addRAC dest a b => Sys2Proof.Machine.execAddRAC dest a b s
  | .addRAA dest a b => Sys2Proof.Machine.execAddRAA dest a b s
  | .subRRR dest a b => Sys2Proof.Machine.execSubRRR dest a b s
  | .subRRC dest a b => Sys2Proof.Machine.execSubRRC dest a b s
  | .subRRA dest a b => Sys2Proof.Machine.execSubRRA dest a b s
  | .subRCR dest a b => Sys2Proof.Machine.execSubRCR dest a b s
  | .subRCC dest a b => Sys2Proof.Machine.execSubRCC dest a b s
  | .subRCA dest a b => Sys2Proof.Machine.execSubRCA dest a b s
  | .subRAR dest a b => Sys2Proof.Machine.execSubRAR dest a b s
  | .subRAC dest a b => Sys2Proof.Machine.execSubRAC dest a b s
  | .subRAA dest a b => Sys2Proof.Machine.execSubRAA dest a b s
  | .writeH src => Sys2Proof.Machine.execWriteH src s
  | .writeC src => Sys2Proof.Machine.execWriteC src s
  | .writeR src => Sys2Proof.Machine.execWriteR src s
  | .readR dest => Sys2Proof.Machine.execReadR dest s
  | .loadRR dest addr => Sys2Proof.Machine.execLoadRR dest addr s
  | .loadRC dest addr => Sys2Proof.Machine.execLoadRC dest addr s
  | .storeRR addr value => Sys2Proof.Machine.execStoreRR addr value s
  | .storeRC addr value => Sys2Proof.Machine.execStoreRC addr value s
  | .storeCR addr value => Sys2Proof.Machine.execStoreCR addr value s
  | .storeCC addr value => Sys2Proof.Machine.execStoreCC addr value s
  | .pushR value => Sys2Proof.Machine.execPushR value s
  | .pushC value => Sys2Proof.Machine.execPushC value s
  | .popR dest => Sys2Proof.Machine.execPopR dest s
  | .brk => Sys2Proof.Machine.execBrk s

end Sys2Proof.Machine
end

