-- ==== Sys2Proof/WellFormed.lean ====
section
/-! DEFINITION. Which instruction records are well formed: the abstract record (an opcode with its operands) by
30_encoding.md R63 and R67, the binary record (the fields of R64) by R69. -/

namespace Sys2Proof

/-! ## The abstract record -/

/-- The legal kinds of each operand position (R67). -/
def Opcode.legalKinds : Opcode → List (List Kind)
  | .jump => [[.register, .address]]
  | .cond => [[.register, .constant, .address]]
  | .move => [[.register, .address], [.register, .constant, .address]]
  | .add => [[.register], [.register, .constant, .address], [.register, .constant, .address]]
  | .sub => [[.register], [.register, .constant, .address], [.register, .constant, .address]]
  | .write => [[.character, .constant, .register]]
  | .read => [[.register]]
  | .load => [[.register], [.register, .constant]]
  | .store => [[.register, .constant], [.register, .constant]]
  | .push => [[.register, .constant]]
  | .pop => [[.register]]
  | .brk => []

/-- Each operand's kind is among the legal kinds of its position, and there are as many of the one as of the other. -/
def kindsLegal : List (List Kind) → List Operand → Bool
  | [], [] => true
  | ks :: kss, o :: os => ks.contains o.kind && kindsLegal kss os
  | _, _ => false

/-- An opcode with these operands is a legal form: the operand count of R63 and the kinds of R67. -/
def wellFormedOperands (op : Opcode) (os : List Operand) : Bool :=
  os.length == op.operandCount && kindsLegal op.legalKinds os

/-- What R61 asks of an operand's payload: a Register index below NREG, an Address or Constant one word. A Character is
a byte by its type. -/
def Operand.inRange (p : Params) : Operand → Bool
  | .reg r => decide (r < p.nreg)
  | .addr a => decide (a < 2 ^ p.xlen)
  | .const c => decide (c < 2 ^ p.xlen)
  | .char _ => true

/-- An instruction is well formed on a machine with these parameters when its opcode and operands are a legal form (R63,
R67) and its payloads are in range (R61). -/
def Instr.wellFormed (p : Params) (i : Instr) : Bool :=
  wellFormedOperands i.opcode i.operands && i.operands.all (Operand.inRange p)

/-! ## The binary record -/

/-- The fields of a binary instruction record (R64). -/
structure Fields where
  op : BitVec 4
  k0 : BitVec 3
  k1 : BitVec 3
  k2 : BitVec 3
  rsv : BitVec 3
  v0 : Word
  v1 : Word
  v2 : Word
deriving DecidableEq, Repr

/-- The header as a number: `op * 4096 + k0 * 512 + k1 * 64 + k2 * 8` (R68), plus the reserved bits. -/
def Fields.hdr (f : Fields) : Nat :=
  f.op.toNat * 4096 + f.k0.toNat * 512 + f.k1.toNat * 64 + f.k2.toNat * 8 + f.rsv.toNat

/-- The headers of the 43 forms, in the order of R68's table. -/
def formHeaders : List Nat :=
  [0x1200, 0x1400, 0x2200, 0x2600, 0x2400, 0x3240, 0x32C0, 0x3280, 0x3440, 0x34C0, 0x3480] ++
  [0x4248, 0x4258, 0x4250, 0x42C8, 0x42D8, 0x42D0, 0x4288, 0x4298, 0x4290] ++
  [0x5248, 0x5258, 0x5250, 0x52C8, 0x52D8, 0x52D0, 0x5288, 0x5298, 0x5290] ++
  [0x6800, 0x6600, 0x6200, 0x7200, 0x8240, 0x82C0, 0x9240, 0x92C0, 0x9640, 0x96C0] ++
  [0xA200, 0xA600, 0xB200, 0xC000]

/-- What R69 asks of a payload slot, by its kind code: a Register below NREG, a Character below 256, an absent operand
zero; anything for an Address or a Constant. -/
def slotWellFormed (p : Params) (k : BitVec 3) (v : Word) : Bool :=
  match k.toNat with
  | 0 => v == 0
  | 1 => decide (v < p.nreg)
  | 4 => decide (v < 256)
  | _ => true

/-- A binary record is well formed (R69). -/
def Fields.wellFormed (p : Params) (f : Fields) : Bool :=
  formHeaders.contains f.hdr && slotWellFormed p f.k0 f.v0 && slotWellFormed p f.k1 f.v1 && slotWellFormed p f.k2 f.v2

end Sys2Proof
end

