-- ==== Sys2Proof/Decode.lean ====
section
/-! DEFINITION. The decoder, total over all records of every width and rejecting by name (30_encoding.md R64 to R70), and after
it the encoder, written from the header table of R68. -/

namespace Sys2Proof

/-! ## The record and its fields (R64) -/

/-- `a ++ b` with `b` of `n` bits (R7). -/
def concat (n a b : Nat) : Nat := a * 2 ^ n + b

/-- The slice of `n` bits of `v` from bit `lo` up, `v[lo+n-1:lo]` (R7). -/
def slice (v lo n : Nat) : Nat := v / 2 ^ lo % 2 ^ n

/-- `hdr ++ v0 ++ v1 ++ v2`, the slots of XLEN bits each (R64). -/
def mkRecord (p : Params) (h : Header) (v0 v1 v2 : Word) : Record :=
  concat p.xlen (concat p.xlen (concat p.xlen h.toNat v0) v1) v2

/-- The fields of a record, at the bit positions of R64's table. -/
def fieldsOf (p : Params) (r : Record) : Fields where
  op := BitVec.ofNat 4 (slice r (3 * p.xlen + 12) 4)
  k0 := BitVec.ofNat 3 (slice r (3 * p.xlen + 9) 3)
  k1 := BitVec.ofNat 3 (slice r (3 * p.xlen + 6) 3)
  k2 := BitVec.ofNat 3 (slice r (3 * p.xlen + 3) 3)
  rsv := BitVec.ofNat 3 (slice r (3 * p.xlen) 3)
  v0 := slice r (2 * p.xlen) p.xlen
  v1 := slice r p.xlen p.xlen
  v2 := slice r 0 p.xlen

/-! ## Decoding -/

/-- Why a record that is not null is rejected: the lines of R70's table. The core does the same for all of them. -/
inductive Illegal where
  /-- `op` is 13, 14 or 15. -/
  | reservedOpcode
  /-- A kind code is 5, 6 or 7. -/
  | reservedKindCode
  /-- Fewer or more operands than R63 gives the opcode, or an absent operand before a present one. -/
  | operandCount
  /-- `rsv` is not 0. -/
  | reservedBits
  /-- A slot of kind code 0 is not 0. -/
  | unusedSlot
  /-- A Register payload of NREG or more. -/
  | registerRange
  /-- A Character payload of 256 or more. -/
  | characterRange
  /-- All operands are present and one has a kind that is not legal in its position (R67). -/
  | operandKind
deriving DecidableEq, Repr

/-- What a record decodes to (R69). -/
inductive Decoded where
  /-- The null record (R66). -/
  | null
  /-- A record that is not well formed (R70). -/
  | illegal (why : Illegal)
  /-- The instruction that a well-formed record spells. -/
  | instr (i : Instr)
deriving DecidableEq, Repr

/-- The opcode that an opcode number names (R65); none for 0 and for the reserved numbers. -/
def opcodeOf (op : BitVec 4) : Option Opcode :=
  match op.toNat with
  | 1 => some .jump
  | 2 => some .cond
  | 3 => some .move
  | 4 => some .add
  | 5 => some .sub
  | 6 => some .write
  | 7 => some .read
  | 8 => some .load
  | 9 => some .store
  | 10 => some .push
  | 11 => some .pop
  | 12 => some .brk
  | _ => none

/-- The operand in a slot, by its kind code (R65, R69): none where the kind code says there is none. -/
def slotOperand (p : Params) (k : BitVec 3) (v : Word) : Except Illegal (Option Operand) :=
  match k.toNat with
  | 0 => if v = 0 then .ok none else .error .unusedSlot
  | 1 => if v < p.nreg then .ok (some (.reg v)) else .error .registerRange
  | 2 => .ok (some (.addr v))
  | 3 => .ok (some (.const v))
  | 4 => if v < 256 then .ok (some (.char (BitVec.ofNat 8 v))) else .error .characterRange
  | _ => .error .reservedKindCode

/-- The operand list of three slots: present operands first, absent ones after (R60). -/
def operandList (s0 s1 s2 : Option Operand) : Option (List Operand) :=
  match s0, s1, s2 with
  | none, none, none => some []
  | some a, none, none => some [a]
  | some a, some b, none => some [a, b]
  | some a, some b, some c => some [a, b, c]
  | _, _, _ => none

/-- The instruction that an opcode and its operands are (R63, R67); none if they are no legal form. -/
def Instr.ofOperands (op : Opcode) (os : List Operand) : Option Instr :=
  match op with
  | .jump =>
    match os with
    | [.reg t] => some (.jumpR t)
    | [.addr t] => some (.jumpA t)
    | _ => none
  | .cond =>
    match os with
    | [.reg v] => some (.condR v)
    | [.const v] => some (.condC v)
    | [.addr v] => some (.condA v)
    | _ => none
  | .move =>
    match os with
    | [.reg d, .reg v] => some (.moveRR d v)
    | [.reg d, .const v] => some (.moveRC d v)
    | [.reg d, .addr v] => some (.moveRA d v)
    | [.addr d, .reg v] => some (.moveAR d v)
    | [.addr d, .const v] => some (.moveAC d v)
    | [.addr d, .addr v] => some (.moveAA d v)
    | _ => none
  | .add =>
    match os with
    | [.reg d, .reg a, .reg b] => some (.addRRR d a b)
    | [.reg d, .reg a, .const b] => some (.addRRC d a b)
    | [.reg d, .reg a, .addr b] => some (.addRRA d a b)
    | [.reg d, .const a, .reg b] => some (.addRCR d a b)
    | [.reg d, .const a, .const b] => some (.addRCC d a b)
    | [.reg d, .const a, .addr b] => some (.addRCA d a b)
    | [.reg d, .addr a, .reg b] => some (.addRAR d a b)
    | [.reg d, .addr a, .const b] => some (.addRAC d a b)
    | [.reg d, .addr a, .addr b] => some (.addRAA d a b)
    | _ => none
  | .sub =>
    match os with
    | [.reg d, .reg a, .reg b] => some (.subRRR d a b)
    | [.reg d, .reg a, .const b] => some (.subRRC d a b)
    | [.reg d, .reg a, .addr b] => some (.subRRA d a b)
    | [.reg d, .const a, .reg b] => some (.subRCR d a b)
    | [.reg d, .const a, .const b] => some (.subRCC d a b)
    | [.reg d, .const a, .addr b] => some (.subRCA d a b)
    | [.reg d, .addr a, .reg b] => some (.subRAR d a b)
    | [.reg d, .addr a, .const b] => some (.subRAC d a b)
    | [.reg d, .addr a, .addr b] => some (.subRAA d a b)
    | _ => none
  | .write =>
    match os with
    | [.char v] => some (.writeH v)
    | [.const v] => some (.writeC v)
    | [.reg v] => some (.writeR v)
    | _ => none
  | .read =>
    match os with
    | [.reg d] => some (.readR d)
    | _ => none
  | .load =>
    match os with
    | [.reg d, .reg a] => some (.loadRR d a)
    | [.reg d, .const a] => some (.loadRC d a)
    | _ => none
  | .store =>
    match os with
    | [.reg a, .reg v] => some (.storeRR a v)
    | [.reg a, .const v] => some (.storeRC a v)
    | [.const a, .reg v] => some (.storeCR a v)
    | [.const a, .const v] => some (.storeCC a v)
    | _ => none
  | .push =>
    match os with
    | [.reg v] => some (.pushR v)
    | [.const v] => some (.pushC v)
    | _ => none
  | .pop =>
    match os with
    | [.reg d] => some (.popR d)
    | _ => none
  | .brk =>
    match os with
    | [] => some .brk
    | _ => none

/-- The instruction of an opcode and three slots, or why there is none. -/
def decodeSlots (op : Opcode) (s0 s1 s2 : Option Operand) : Decoded :=
  match operandList s0 s1 s2 with
  | none => .illegal .operandCount
  | some os =>
    if os.length = op.operandCount then
      match Instr.ofOperands op os with
      | some i => .instr i
      | none => .illegal .operandKind
    else .illegal .operandCount

/-- Decode on the fields of a record (R69, R70). The order in which the reasons are tried is the model's and cannot be
observed (notes/assumptions/16.md). -/
def decodeFields (p : Params) (f : Fields) : Decoded :=
  if f.op = 0 then .null
  else
    match opcodeOf f.op with
    | none => .illegal .reservedOpcode
    | some op =>
      if f.rsv = 0 then
        match slotOperand p f.k0 f.v0, slotOperand p f.k1 f.v1, slotOperand p f.k2 f.v2 with
        | .ok s0, .ok s1, .ok s2 => decodeSlots op s0 s1 s2
        | .error e, _, _ => .illegal e
        | .ok _, .error e, _ => .illegal e
        | .ok _, .ok _, .error e => .illegal e
      else .illegal .reservedBits

/-- Decode, total over all records (R69): the null record first (R66), then the legal forms, everything else illegal. -/
def decode (p : Params) (r : Record) : Decoded := decodeFields p (fieldsOf p r)

/-! ## Encoding -/

/-- The header of an instruction's form, from R68's table. -/
def Instr.header : Instr → Header
  | .jumpR _ => 0x1200#16
  | .jumpA _ => 0x1400#16
  | .condR _ => 0x2200#16
  | .condC _ => 0x2600#16
  | .condA _ => 0x2400#16
  | .moveRR _ _ => 0x3240#16
  | .moveRC _ _ => 0x32C0#16
  | .moveRA _ _ => 0x3280#16
  | .moveAR _ _ => 0x3440#16
  | .moveAC _ _ => 0x34C0#16
  | .moveAA _ _ => 0x3480#16
  | .addRRR _ _ _ => 0x4248#16
  | .addRRC _ _ _ => 0x4258#16
  | .addRRA _ _ _ => 0x4250#16
  | .addRCR _ _ _ => 0x42C8#16
  | .addRCC _ _ _ => 0x42D8#16
  | .addRCA _ _ _ => 0x42D0#16
  | .addRAR _ _ _ => 0x4288#16
  | .addRAC _ _ _ => 0x4298#16
  | .addRAA _ _ _ => 0x4290#16
  | .subRRR _ _ _ => 0x5248#16
  | .subRRC _ _ _ => 0x5258#16
  | .subRRA _ _ _ => 0x5250#16
  | .subRCR _ _ _ => 0x52C8#16
  | .subRCC _ _ _ => 0x52D8#16
  | .subRCA _ _ _ => 0x52D0#16
  | .subRAR _ _ _ => 0x5288#16
  | .subRAC _ _ _ => 0x5298#16
  | .subRAA _ _ _ => 0x5290#16
  | .writeH _ => 0x6800#16
  | .writeC _ => 0x6600#16
  | .writeR _ => 0x6200#16
  | .readR _ => 0x7200#16
  | .loadRR _ _ => 0x8240#16
  | .loadRC _ _ => 0x82C0#16
  | .storeRR _ _ => 0x9240#16
  | .storeRC _ _ => 0x92C0#16
  | .storeCR _ _ => 0x9640#16
  | .storeCC _ _ => 0x96C0#16
  | .pushR _ => 0xA200#16
  | .pushC _ => 0xA600#16
  | .popR _ => 0xB200#16
  | .brk => 0xC000#16

/-- The payload of an operand, one word (R61). -/
def Operand.payload : Operand → Word
  | .reg r => r
  | .addr a => a
  | .const c => c
  | .char b => b.toNat

/-- Slot `n` of an instruction's record: the payload of its operand `n`, 0 for an absent operand (R64, R69). -/
def Instr.slot (i : Instr) (n : Nat) : Word :=
  match i.operands[n]? with
  | some o => o.payload
  | none => 0

/-- The one well-formed record of a well-formed instruction (R69, R85): its form's header, its payloads in their slots. -/
def encode (p : Params) (i : Instr) : Record := mkRecord p i.header (i.slot 0) (i.slot 1) (i.slot 2)

/-! ## The numbering of the opcode table -/

/-- The record of an instruction whose bits are `w`, numbered as spec/opcode_table.json numbers them. A row's match, mask
and fixed bits are the 16 bits of the header, numbered from 0, so a number below 2^16 is a header and the slots are 0; a
larger one is the whole record, R64's one word of ILEN bits (notes/assumptions/15.md). -/
def tableRecord (p : Params) (nbits w : Nat) : Record :=
  if w % 2 ^ nbits < 2 ^ 16 then mkRecord p (BitVec.ofNat 16 (w % 2 ^ nbits)) 0 0 0
  else w % 2 ^ nbits % 2 ^ p.ilen

/-- The instruction the decoder reads from those bits, on the reference instance, which is the table's (R73). -/
def decodeTableWord (nbits w : Nat) : Option Instr :=
  match decode .reference (tableRecord .reference nbits w) with
  | .instr i => some i
  | .null => none
  | .illegal _ => none

end Sys2Proof
end

