-- ==== Sys2Proof/Machine/Fetch.lean ====
section
/-! DEFINITION. The fetch, the null check and the decode of a step (40_step_cycle.md R100 to R102), and the place of the
next instruction. -/

namespace Sys2Proof.Machine

/-- The record at pc. -/
def State.nextRecord (s : State) : Record := s.ifetch s.pc

/-- The instruction a step fetches, or the exception it raises instead: pc outside the code region (R100), the null
record (R101), a record that is not well formed (R102), in this order (R110). -/
def State.fetchDecode (s : State) : Except Cause Instr :=
  if s.execValid s.pc then
    match decode s.params s.nextRecord with
    | .null => .error .noInstruction
    | .illegal _ => .error .invalidInstruction
    | .instr i => .ok i
  else .error .invalidInstruction

/-- The state with a record in the code cell that pc names, the code region long enough to hold it. -/
def State.placeNext (s : State) (r : Record) : State :=
  { s with imem := s.imem.write s.pc r, ibound := max s.ibound (s.pc + 1) }

end Sys2Proof.Machine
end

