-- ==== Sys2Proof/Machine/Step.lean ====
section
/-! DEFINITION. One step of CORE (40_step_cycle.md R108), and the placing of an instruction where the next step fetches. -/

namespace Sys2Proof.Machine

/-- The step (R108). A machine whose load failed is never stepped (R31, R195); a stopped core takes no step (R109);
otherwise the core fetches, decodes and executes, or raises. -/
def step (s : State) : Host.Outcome State Fault Refusal :=
  if s.loadFault.isSome then .refused .loadFaultSet
  else if s.stopped then .fault .steppedWhileStopped
  else onOk s.fetchDecode s fun i => exec i s

/-- The state with the instruction whose bits are `w`, numbered as the opcode table numbers them, where the next step
fetches: in the code cell that pc names, IBOUND raised above it where needed. It stands for the load of a program
(notes/assumptions/14.md). -/
def State.withFetchWord (s : State) (nbits w : Nat) : State := s.placeNext (tableRecord s.params nbits w)

end Sys2Proof.Machine
end

