-- ==== Sys2Proof/Machine/Assembler.lean ====
section
/-! DEFINITION. The loader: the assembly grammar as the definition of which records and data words a program text denotes,
and the load's effect on the core (00_scope.md R4; 30_encoding.md R80 to R96; 70_reset_and_hazards.md R193 to R195). A text
is a list of bytes. The points the spec leaves open are arguments (LoaderParams; notes/assumptions/21.md to 25.md, 29.md
and 30.md). -/

namespace Sys2Proof.Machine

/-! ## Bytes of a text -/

/-- The code of an ASCII character. -/
def ch (c : Char) : Byte := BitVec.ofNat 8 c.toNat

/-- The bytes of a list of ASCII characters. -/
def asciiText (cs : List Char) : List Byte := cs.map ch

/-- White space inside a line: space, tab, vertical tab, form feed, carriage return (notes/assumptions/22.md). -/
def isSpace (b : Byte) : Bool := b == 0x20 || b == 0x09 || b == 0x0B || b == 0x0C || b == 0x0D

/-- The byte with a lower-case ASCII letter made upper-case. -/
def upperByte (b : Byte) : Byte := if 0x61 ≤ b.toNat ∧ b.toNat ≤ 0x7A then b - 0x20 else b

/-- The byte with an upper-case ASCII letter made lower-case. -/
def lowerByte (b : Byte) : Byte := if 0x41 ≤ b.toNat ∧ b.toNat ≤ 0x5A then b + 0x20 else b

/-! ## Lines and tokens (R80) -/

/-- The lines of a text, which line feeds separate. -/
def splitLines : List Byte → List (List Byte)
  | [] => [[]]
  | b :: bs =>
    if b = 0x0A then [] :: splitLines bs
    else
      match splitLines bs with
      | [] => [[b]]
      | l :: ls => (b :: l) :: ls

/-- Where the scan of a line stands: between tokens, in a token, or inside the quotes that opened a token. -/
inductive LexMode where
  | between
  | bare
  | quoted (q : Byte) (escaped : Bool)
deriving DecidableEq, Repr

/-- The tokens of a line, from the mode and the token read so far (its bytes in reverse). White space separates tokens
(R80); a quote opens a quoted part only at the start of a token; the parameters decide N12, N13 and N14. -/
def scanTokens (p : LoaderParams) : List Byte → LexMode → List Byte → List (List Byte)
  | [], .between, _ => []
  | [], .bare, cur => [cur.reverse]
  | [], .quoted _ _, cur => [cur.reverse]
  | b :: bs, .between, _ =>
    if isSpace b then scanTokens p bs .between []
    else if p.trailingComment && b == ch ';' then []
    else if b == ch '"' || b == ch '\'' then scanTokens p bs (.quoted b false) [b]
    else scanTokens p bs .bare [b]
  | b :: bs, .bare, cur =>
    if isSpace b then cur.reverse :: scanTokens p bs .between []
    else if p.trailingComment && b == ch ';' then [cur.reverse]
    else scanTokens p bs .bare (b :: cur)
  | b :: bs, .quoted q escaped, cur =>
    if isSpace b && !p.quoteKeepsSpace then cur.reverse :: scanTokens p bs .between []
    else if escaped then scanTokens p bs (.quoted q false) (b :: cur)
    else if b == ch '\\' && (q == ch '"' || p.charEscapes) then scanTokens p bs (.quoted q true) (b :: cur)
    else if b == q then scanTokens p bs .bare (b :: cur)
    else scanTokens p bs (.quoted q false) (b :: cur)

/-- The line is a comment line: it begins with `;` (R80), white space before it allowed or not by the parameter. -/
def isCommentLine (p : LoaderParams) (line : List Byte) : Bool :=
  match line with
  | [] => false
  | b :: bs =>
    if b = ch ';' then true
    else p.indentedComment && isSpace b && (bs.dropWhile isSpace).head? == some (ch ';')

/-- The tokens of a line; none for a line that is skipped: blank, pure white space, or a comment (R80, C7). -/
def lineTokens (p : LoaderParams) (line : List Byte) : List (List Byte) :=
  if isCommentLine p line then [] else scanTokens p line .between []

/-! ## Literals -/

/-- The value of one decimal digit. -/
def digitVal (b : Byte) : Option Nat := if 0x30 ≤ b.toNat ∧ b.toNat ≤ 0x39 then some (b.toNat - 0x30) else none

/-- The value of a string of decimal digits after the digits whose value is `acc`. -/
def digitsVal : List Byte → Nat → Option Nat
  | [], acc => some acc
  | b :: bs, acc =>
    match digitVal b with
    | none => none
    | some d => digitsVal bs (10 * acc + d)

/-- An unsigned decimal (R83); an empty string and leading zeros as the parameters say (N15). -/
def decimal (p : LoaderParams) (ds : List Byte) : Option Nat :=
  match ds with
  | [] => if p.emptyDigitsAreZero then some 0 else none
  | [d] => digitsVal [d] 0
  | d :: ds => if d = ch '0' ∧ p.leadingZeros = false then none else digitsVal (d :: ds) 0

/-- A decimal literal as a word; one of 2^XLEN or more as the parameter says (N11). -/
def wordLiteral (p : LoaderParams) (m : Params) (ds : List Byte) : Option Word :=
  match decimal p ds with
  | none => none
  | some n =>
    if n < 2 ^ m.xlen then some n
    else
      match p.literalOverflow with
      | .reject => none
      | .wrap => some (n % 2 ^ m.xlen)

/-! ## The four recognisers (R83) and the escapes (R94) -/

/-- The byte of an escape sequence `\c` (R94); none for a bad escape. Only `\n` is the source's, the others are C's. -/
def escapeByte (c : Byte) : Option Byte :=
  if c = ch '\\' then some 0x5C
  else if c = ch 'a' then some 0x07
  else if c = ch 'b' then some 0x08
  else if c = ch 'f' then some 0x0C
  else if c = ch 'n' then some 0x0A
  else if c = ch 'r' then some 0x0D
  else if c = ch 't' then some 0x09
  else if c = ch 'v' then some 0x0B
  else if c = ch '"' then some 0x22
  else if c = ch '0' then some 0x00
  else none

/-- The Register recogniser: `pc`, `sp`, or `r<digits>` with an index below NREG (R21, R83). -/
def recogniseRegister (p : LoaderParams) (m : Params) (tok : List Byte) : Option RegIdx :=
  let t := if p.regNameCaseInsensitive then tok.map lowerByte else tok
  if t = asciiText ['p', 'c'] then some m.pcIdx
  else if t = asciiText ['s', 'p'] then some m.spIdx
  else
    match t with
    | [] => none
    | b :: ds =>
      if b = ch 'r' then
        match decimal p ds with
        | none => none
        | some n => if n < m.nreg then some n else none
      else none

/-- The Address recogniser: a plain unsigned decimal literal (R83). -/
def recogniseAddress (p : LoaderParams) (m : Params) (tok : List Byte) : Option Word :=
  match tok with
  | [] => none
  | b :: bs => wordLiteral p m (b :: bs)

/-- The Constant recogniser: `#` and an unsigned decimal (R83). -/
def recogniseConstant (p : LoaderParams) (m : Params) (tok : List Byte) : Option Word :=
  match tok with
  | [] => none
  | b :: ds => if b = ch '#' then wordLiteral p m ds else none

/-- The Character recogniser: a single byte in single quotes (R83), or an escape there if the parameter allows (N13). -/
def recogniseCharacter (p : LoaderParams) (tok : List Byte) : Option Byte :=
  match tok with
  | [q, b, q'] => if q = ch '\'' ∧ q' = ch '\'' then some b else none
  | [q, e, c, q'] =>
    if q = ch '\'' ∧ q' = ch '\'' ∧ e = ch '\\' ∧ p.charEscapes = true then escapeByte c else none
  | _ => none

/-- One entry of a try-order: a kind, and whether a match of it is an operand or an error (R84, R86). -/
inductive TryKind where
  | accept (k : Kind)
  | reject (k : Kind)
deriving DecidableEq, Repr

/-- The try-order of each operand position (R84). -/
def tryOrder : Opcode → List (List TryKind)
  | .jump => [[.accept .register, .accept .address]]
  | .cond => [[.accept .register, .accept .constant, .accept .address]]
  | .move => [[.accept .register, .reject .constant, .accept .address],
      [.accept .register, .accept .constant, .accept .address]]
  | .add => [[.accept .register], [.accept .register, .accept .constant, .accept .address],
      [.accept .register, .accept .constant, .accept .address]]
  | .sub => [[.accept .register], [.accept .register, .accept .constant, .accept .address],
      [.accept .register, .accept .constant, .accept .address]]
  | .write => [[.accept .character, .accept .constant, .accept .register]]
  | .read => [[.accept .register]]
  | .load => [[.accept .register], [.accept .register, .accept .constant]]
  | .store => [[.accept .register, .accept .constant], [.accept .register, .accept .constant]]
  | .push => [[.accept .register, .accept .constant]]
  | .pop => [[.accept .register]]
  | .brk => []

/-- What the recogniser of a kind makes of a token. -/
def recognise (p : LoaderParams) (m : Params) (k : Kind) (tok : List Byte) : Option Operand :=
  match k with
  | .register => (recogniseRegister p m tok).map .reg
  | .address => (recogniseAddress p m tok).map .addr
  | .constant => (recogniseConstant p m tok).map .const
  | .character => (recogniseCharacter p tok).map .char

/-- The operand of a token: the first recogniser of the order that matches is committed to (R84); none is a malformed
operand. -/
def parseOperand (p : LoaderParams) (m : Params) : List TryKind → List Byte → Option Operand
  | [], _ => none
  | .accept k :: ks, tok =>
    match recognise p m k tok with
    | some o => some o
    | none => parseOperand p m ks tok
  | .reject k :: ks, tok =>
    match recognise p m k tok with
    | some _ => none
    | none => parseOperand p m ks tok

/-- The operands of the tokens after the mnemonic, one for each position. -/
def parseOperands (p : LoaderParams) (m : Params) : List (List TryKind) → List (List Byte) → Option (List Operand)
  | [], [] => some []
  | ks :: kss, tok :: toks =>
    match parseOperand p m ks tok with
    | none => none
    | some o =>
      match parseOperands p m kss toks with
      | none => none
      | some os => some (o :: os)
  | _, _ => none

/-! ## The command registry (R81) -/

/-- What a mnemonic stands for: an opcode or one of the two directives. -/
inductive Command where
  | op (o : Opcode)
  | dw
  | ds
deriving DecidableEq, Repr

/-- The fourteen mnemonics (R81). -/
def registry : List (List Byte × Command) :=
  [(asciiText ['J', 'U', 'M', 'P'], .op .jump), (asciiText ['C', 'O', 'N', 'D'], .op .cond),
   (asciiText ['M', 'O', 'V', 'E'], .op .move), (asciiText ['A', 'D', 'D'], .op .add),
   (asciiText ['S', 'U', 'B'], .op .sub), (asciiText ['W', 'R', 'I', 'T', 'E'], .op .write),
   (asciiText ['R', 'E', 'A', 'D'], .op .read), (asciiText ['L', 'O', 'A', 'D'], .op .load),
   (asciiText ['S', 'T', 'O', 'R', 'E'], .op .store), (asciiText ['P', 'U', 'S', 'H'], .op .push),
   (asciiText ['P', 'O', 'P'], .op .pop), (asciiText ['B', 'R', 'E', 'A', 'K'], .op .brk),
   (asciiText ['D', 'W'], .dw), (asciiText ['D', 'S'], .ds)]

/-- The entry of the registry that a token names, its case ignored (R81). -/
def lookupMnemonic (tok : List Byte) : Option Command :=
  (registry.find? fun e => e.1 == tok.map upperByte).map fun e => e.2

/-! ## Statements -/

/-- The load fault of an image the spec refuses without saying with which of two codes (R195, D20). -/
def refusedImage (p : LoaderParams) : LoadFault := if p.refusedImageIsNoMemory then .noMemory else .invalidInstruction

/-- An instruction is appended to the code region and IBOUND goes up by one (R28, R89); an image with more instructions
than cells is refused (R195). -/
def appendInstr (p : LoaderParams) (i : Instr) (s : State) : Except LoadFault State :=
  if s.ibound < s.params.capacity then
    .ok { s with imem := s.imem.write s.ibound (encode s.params i), ibound := s.ibound + 1 }
  else .error (refusedImage p)

/-- An instruction line: token count (R82), operands (R83, R84), the record it denotes (R85). -/
def assembleInstr (p : LoaderParams) (op : Opcode) (toks : List (List Byte)) (s : State) : Except LoadFault State :=
  if toks.length = op.operandCount then
    match parseOperands p s.params (tryOrder op) toks with
    | none => .error .invalidInstruction
    | some os =>
      match Instr.ofOperands op os with
      | none => .error .invalidInstruction
      | some i => appendInstr p i s
  else .error .invalidInstruction

/-- `DW address #word`: the word goes to the data cell at once, after the write check against the boundary in effect
(R92, R95). -/
def assembleDw (p : LoaderParams) (toks : List (List Byte)) (s : State) : Except LoadFault State :=
  match toks with
  | [aTok, wTok] =>
    match recogniseAddress p s.params aTok, recogniseConstant p s.params wTok with
    | some a, some w => if s.writeValid a 0 then .ok (s.setData a w) else .error .invalidInstruction
    | _, _ => .error .invalidInstruction
  | _ => .error .invalidInstruction

/-- The bytes of a string literal after its opening quote, up to the closing quote that ends the token, its escapes
decoded (R93, R94); none for a malformed literal or a bad escape. -/
def decodeString : List Byte → Option (List Byte)
  | [] => none
  | [b] => if b = ch '"' then some [] else none
  | b :: c :: bs =>
    if b = ch '"' then none
    else if b = ch '\\' then
      match escapeByte c with
      | none => none
      | some e => (decodeString bs).map (e :: ·)
    else (decodeString (c :: bs)).map (b :: ·)

/-- A string literal: a token in double quotes. -/
def recogniseString (tok : List Byte) : Option (List Byte) :=
  match tok with
  | [] => none
  | b :: bs => if b = ch '"' then decodeString bs else none

/-- One byte per cell from address `a` on, zero-extended, every cell checked (R93, R95, D22). -/
def storeBytes : List Byte → Nat → State → Except LoadFault State
  | [], _, s => .ok s
  | b :: bs, a, s =>
    if s.writeValid a 0 then storeBytes bs (a + 1) (s.setData a (zextByte b)) else .error .invalidInstruction

/-- `DS address "string"` (R93). -/
def assembleDs (p : LoaderParams) (toks : List (List Byte)) (s : State) : Except LoadFault State :=
  match toks with
  | [aTok, strTok] =>
    match recogniseAddress p s.params aTok, recogniseString strTok with
    | some a, some bs =>
      if bs = [] ∧ p.emptyStringChecked = true ∧ s.writeValid a 0 = false then .error .invalidInstruction
      else storeBytes bs a s
    | _, _ => .error .invalidInstruction
  | _ => .error .invalidInstruction

/-- One line: skipped, an instruction or a directive (R80 to R82, R89). -/
def assembleLine (p : LoaderParams) (line : List Byte) (s : State) : Except LoadFault State :=
  match lineTokens p line with
  | [] => .ok s
  | m :: toks =>
    match lookupMnemonic m with
    | none => .error .unknownInstruction
    | some (.op op) => assembleInstr p op toks s
    | some .dw => assembleDw p toks s
    | some .ds => assembleDs p toks s

/-- The lines in order, up to the first load fault (R91). -/
def assembleLines (p : LoaderParams) : List (List Byte) → State → Except LoadFault State
  | [], s => .ok s
  | l :: ls, s =>
    match assembleLine p l s with
    | .ok t => assembleLines p ls t
    | .error e => .error e

/-- The range of CAPACITY (R6, R195): an image for another machine is refused. -/
def State.capacityLegal (s : State) : Bool :=
  decide (1 ≤ s.params.capacity) && decide (s.params.capacity ≤ 2 ^ s.params.xlen - 1)

/-- The assembly of a whole text into a machine. CAPACITY is tested before any line is read, so that on a machine whose
CAPACITY is out of range the load fault of a refused image is reported although a line of the text is faulty too. The
spec gives the load faults no priority (R170, R195): DESIGN CHOICE (notes/assumptions/29.md). -/
def assemble (p : LoaderParams) (text : List Byte) (s : State) : Except LoadFault State :=
  if s.capacityLegal then assembleLines p (splitLines text) s else .error (refusedImage p)

/-- The machine is as creation left it, input bytes aside: the only one that a program is loaded into (R191, R193). -/
def State.justCreated (s : State) : Bool := decide (s = { State.create s.params with input := s.input })

/-- `Load(state, program)` (R193, R194): the assembled machine, or, all or nothing (R91), the machine with its load-fault
slot set, on which no step is ever taken (R195; notes/assumptions/25.md). Any other machine than one just created is
refused (notes/assumptions/30.md). -/
def State.load (s : State) (p : LoaderParams) (text : List Byte) : Result :=
  if s.justCreated then
    match assemble p text s with
    | .ok t => .next t
    | .error e => recordLoadFault e s
  else .refused .notJustCreated

/-- The line is an instruction line: its mnemonic is an opcode's, not a directive's (R89). -/
def isInstructionLine (p : LoaderParams) (line : List Byte) : Bool :=
  match lineTokens p line with
  | [] => false
  | m :: _ =>
    match lookupMnemonic m with
    | some (.op _) => true
    | _ => false

end Sys2Proof.Machine
end

