-- ==== Sys2Proof/Machine/HostInterface.lean ====
section
/-! DEFINITION. What the host and the environment do to the machine (70_reset_and_hazards.md R190 to R199, R205): supply
input bytes, step until the core stops, read the end of a run, and the whole run from creation to report. -/

namespace Sys2Proof.Machine

/-- The environment supplies bytes, in order, after those not yet taken (R141, R143). -/
def State.supply (s : State) (bytes : List Byte) : State := { s with input := s.input ++ bytes }

/-- What the host reports of a run (R193). -/
inductive Report where
  /-- The load failed; no step was taken (R195). -/
  | loadFault (e : LoadFault)
  /-- The core stopped: the cause and pc (R199). -/
  | stopped (cause : Cause) (pc : Word)
deriving DecidableEq, Repr

/-- What the host reads of a machine whose run is over: its load fault, or else its cause and pc; nothing of a machine
that still runs (R193, R199, R204). -/
def State.report (s : State) : Option Report :=
  match s.loadFault with
  | some e => some (.loadFault e)
  | none => if s.stopped then some (.stopped s.cause s.pc) else none

/-- Where the host's loop leaves a run, with the machine as it then is (R193, R204, R205). -/
inductive RunEnd where
  /-- The run is over and this is its report. -/
  | reported (r : Report) (s : State)
  /-- The next step is a READ that no byte enables; the run goes on when the environment supplies one (R205). -/
  | waiting (s : State)
  /-- The host ceased to step a running core (R109, R205). -/
  | abandoned (s : State)
  /-- The machine took no step for another reason. No run from creation comes here. -/
  | noStep (s : State)
deriving DecidableEq, Repr

/-- The host's loop (R193): step while `stopped = 0`, at most `k` times, since a run need not end (R205). -/
def runUntilStop : Nat → State → RunEnd
  | 0, s =>
    match s.report with
    | some r => .reported r s
    | none => .abandoned s
  | k + 1, s =>
    match s.report with
    | some r => .reported r s
    | none =>
      match step s with
      | .next t => runUntilStop k t
      | .refused .waitsForInput => .waiting s
      | .refused _ => .noStep s
      | .fault _ => .noStep s

/-- `Run(CAPACITY, program, input bytes)` (R193), on a machine with parameters `m`, its loop cut after `k` steps (a DESIGN
CHOICE, notes/assumptions/30.md): create the machine, load the program, report a load fault and end, or else step until
the core stops and report. -/
def run (m : Params) (p : LoaderParams) (program bytes : List Byte) (k : Nat) : RunEnd :=
  match (State.create m).load p program with
  | .next s => runUntilStop k (s.supply bytes)
  | .refused _ => .noStep (State.create m)
  | .fault _ => .noStep (State.create m)

end Sys2Proof.Machine
end

