-- ==== Sys2Proof/Safety.lean ====
section
/-! DEFINITION. The terms the statements use: the invariant of the machine, how a run ends, the step relation, and the
frames of the instructions. -/

namespace Sys2Proof.Machine

/-! ## The machine's invariant -/

/-- `v` is a word of this machine (R7). -/
abbrev State.IsWord (s : State) (v : Word) : Prop := v < 2 ^ s.params.xlen

/-- `i` is the index of a register of this machine (R8, R20). -/
abbrev State.IsReg (s : State) (i : RegIdx) : Prop := i < s.params.nreg

/-- The invariant: the parameters in their ranges (R6), IBOUND at most CAPACITY (R28, R195), NREG registers, each holding a
word (R7, R20), both stores in canonical form with no entry outside their address ranges, a word in every data cell and
ILEN bits in every code cell (R33, R34, R40, R64). -/
structure State.Inv (s : State) : Prop where
  params : s.params.Legal
  ibound_le : s.ibound ≤ s.params.capacity
  regs_length : s.regs.length = s.params.nreg
  regs_word : ∀ v ∈ s.regs, s.IsWord v
  dmem_wf : Store.wf s.dmem = true
  imem_wf : Store.wf s.imem = true
  dmem_cell : ∀ e ∈ s.dmem, e.1 < s.params.capacity ∧ s.IsWord e.2
  imem_cell : ∀ e ∈ s.imem, e.1 < s.ibound ∧ e.2 < 2 ^ s.params.ilen

/-- Every cell of the code region holds a well-formed record, as after a load by the assembler (R194). -/
def State.CodeWellFormed (s : State) : Prop := ∀ a, a < s.ibound → ∃ i, decode s.params (s.ifetch a) = .instr i

/-! ## How a run stands -/

/-- The core takes a step: no load fault (R31) and not stopped (R109). -/
def State.Running (s : State) : Prop := s.loadFault = none ∧ s.stopped = false

/-- The run has ended successfully (R168, R204). -/
def State.Succeeded (s : State) : Prop := s.stopped = true ∧ s.cause = .none

/-- The run has ended with a fault (R168, R204). -/
def State.Faulted (s : State) : Prop := s.stopped = true ∧ s.cause ≠ .none

/-- A READ with no byte available: the next step is not enabled (R141, R143, R205). -/
def State.WaitsForInput (s : State) : Prop := s.input = [] ∧ ∃ dest, s.fetchDecode = .ok (.readR dest)

/-- States that steps lead to. -/
inductive Reaches : State → State → Prop where
  | refl (s : State) : Reaches s s
  | step {s t u : State} (h : Machine.step s = .next t) (r : Reaches t u) : Reaches s u

/-- States that exactly so many steps lead to; a READ that waits is no step (R203). -/
inductive ReachesIn : Nat → State → State → Prop where
  | refl (s : State) : ReachesIn 0 s s
  | step {n : Nat} {s t u : State} (h : Machine.step s = .next t) (r : ReachesIn n t u) : ReachesIn (n + 1) s u

/-! ## Frames -/

/-- Nothing but registers differs. -/
structure State.SameButRegs (s t : State) : Prop where
  params : t.params = s.params
  dmem : t.dmem = s.dmem
  imem : t.imem = s.imem
  ibound : t.ibound = s.ibound
  stopped : t.stopped = s.stopped
  cause : t.cause = s.cause
  loadFault : t.loadFault = s.loadFault
  input : t.input = s.input
  output : t.output = s.output

/-- Nothing but registers and data cells differs. -/
structure State.SameButRegsData (s t : State) : Prop where
  params : t.params = s.params
  imem : t.imem = s.imem
  ibound : t.ibound = s.ibound
  stopped : t.stopped = s.stopped
  cause : t.cause = s.cause
  loadFault : t.loadFault = s.loadFault
  input : t.input = s.input
  output : t.output = s.output

/-- What no step ever changes: the parameters, the code and the load-fault slot (R9, R28, R31, R33, R54). -/
structure State.SameProgram (s t : State) : Prop where
  params : t.params = s.params
  imem : t.imem = s.imem
  ibound : t.ibound = s.ibound
  loadFault : t.loadFault = s.loadFault

/-- `(a + b) mod 2^XLEN` of two words: the sum, less 2^XLEN where it reaches it (R7, R135). -/
def sumWord (p : Params) (a b : Word) : Word := if a + b < 2 ^ p.xlen then a + b else a + b - 2 ^ p.xlen

/-- `(a - b) mod 2^XLEN` of two words: `a - b`, or `a - b + 2^XLEN` when `a < b` (R7, R136). -/
def differenceWord (p : Params) (a b : Word) : Word := if a < b then a + 2 ^ p.xlen - b else a - b

/-- The registers after an instruction that writes `v` to register `d` and then advances pc: pc goes up by one from what
it holds after the write (R106), every other register keeps its value. -/
def State.WrittenThenAdvanced (s : State) (d : RegIdx) (v : Word) (t : State) : Prop :=
  ∀ j, t.x j = if j = s.pcIdx then sumWord s.params (if d = s.pcIdx then v else s.pc) 1
    else if j = d then v else s.x j

/-- The registers after an instruction that writes none but pc, which takes `v`. -/
def State.OnlyPcBecomes (s : State) (v : Word) (t : State) : Prop :=
  ∀ j, t.x j = if j = s.pcIdx then v else s.x j

/-- The data cells after an instruction that stores `v` in cell `a`. -/
def State.OnlyCellBecomes (s : State) (a : Nat) (v : Word) (t : State) : Prop :=
  ∀ k, t.dataAt k = if k = a then v else s.dataAt k

/-- Address `a` can be read and written as data (R45 with `r = 0`). -/
def State.DataCell (s : State) (a : Nat) : Prop := s.ibound ≤ a ∧ a < s.params.capacity

/-- `exec i s` takes the exception `e` precisely (R107): the code is recorded, the core stopped, nothing else changed. -/
def Raises (i : Instr) (s : State) (e : Cause) : Prop :=
  exec i s = .next { s with stopped := true, cause := e }

/-! ## What an instruction accesses -/

/-- The data addresses that an instruction reads or writes in a state, sources first (R49, R57, R161). -/
def State.accesses (s : State) : Instr → List Word
  | .jumpR _ => []
  | .jumpA _ => []
  | .condR _ => []
  | .condC _ => []
  | .condA tested => [tested]
  | .moveRR _ _ => []
  | .moveRC _ _ => []
  | .moveRA _ src => [src]
  | .moveAR dest _ => [dest]
  | .moveAC dest _ => [dest]
  | .moveAA dest src => [src, dest]
  | .addRRR _ _ _ => []
  | .addRRC _ _ _ => []
  | .addRRA _ _ b => [b]
  | .addRCR _ _ _ => []
  | .addRCC _ _ _ => []
  | .addRCA _ _ b => [b]
  | .addRAR _ a _ => [a]
  | .addRAC _ a _ => [a]
  | .addRAA _ a b => [a, b]
  | .subRRR _ _ _ => []
  | .subRRC _ _ _ => []
  | .subRRA _ _ b => [b]
  | .subRCR _ _ _ => []
  | .subRCC _ _ _ => []
  | .subRCA _ _ b => [b]
  | .subRAR _ a _ => [a]
  | .subRAC _ a _ => [a]
  | .subRAA _ a b => [a, b]
  | .writeH _ => []
  | .writeC _ => []
  | .writeR _ => []
  | .readR _ => []
  | .loadRR _ addr => [s.x addr]
  | .loadRC _ addr => [addr]
  | .storeRR addr _ => [s.x addr]
  | .storeRC addr _ => [s.x addr]
  | .storeCR addr _ => [addr]
  | .storeCC addr _ => [addr]
  | .pushR _ => [s.sp]
  | .pushC _ => [s.sp]
  | .popR _ => [s.belowSp]
  | .brk => []

/-- The target of a JUMP (R105, R120). -/
def State.jumpTarget (s : State) : Instr → Option Word
  | .jumpR target => some (s.x target)
  | .jumpA target => some target
  | .condR _ => none
  | .condC _ => none
  | .condA _ => none
  | .moveRR _ _ => none
  | .moveRC _ _ => none
  | .moveRA _ _ => none
  | .moveAR _ _ => none
  | .moveAC _ _ => none
  | .moveAA _ _ => none
  | .addRRR _ _ _ => none
  | .addRRC _ _ _ => none
  | .addRRA _ _ _ => none
  | .addRCR _ _ _ => none
  | .addRCC _ _ _ => none
  | .addRCA _ _ _ => none
  | .addRAR _ _ _ => none
  | .addRAC _ _ _ => none
  | .addRAA _ _ _ => none
  | .subRRR _ _ _ => none
  | .subRRC _ _ _ => none
  | .subRRA _ _ _ => none
  | .subRCR _ _ _ => none
  | .subRCC _ _ _ => none
  | .subRCA _ _ _ => none
  | .subRAR _ _ _ => none
  | .subRAC _ _ _ => none
  | .subRAA _ _ _ => none
  | .writeH _ => none
  | .writeC _ => none
  | .writeR _ => none
  | .readR _ => none
  | .loadRR _ _ => none
  | .loadRC _ _ => none
  | .storeRR _ _ => none
  | .storeRC _ _ => none
  | .storeCR _ _ => none
  | .storeCC _ _ => none
  | .pushR _ => none
  | .pushC _ => none
  | .popR _ => none
  | .brk => none

/-- The same machine but for data cells that no data access can reach: those below IBOUND, such as the shadowed word of
R56, and those at or above CAPACITY. -/
structure State.DataAgrees (s u : State) : Prop where
  same : u = { s with dmem := u.dmem }
  wf : Store.wf s.dmem = true
  wf' : Store.wf u.dmem = true
  cells : ∀ a, s.DataCell a → u.dataAt a = s.dataAt a

/-- `exec i s` completes with nothing changed but register `d`, which takes `v`, and pc, which is then advanced. -/
def CompletesWriting (i : Instr) (s : State) (d : RegIdx) (v : Word) : Prop :=
  ∃ t, exec i s = .next t ∧ s.WrittenThenAdvanced d v t ∧ s.SameButRegs t

/-- `exec i s` completes with nothing changed but data cell `a`, which takes `v`, and pc, which goes up by one. -/
def CompletesStoring (i : Instr) (s : State) (a v : Word) : Prop :=
  ∃ t, exec i s = .next t ∧ s.OnlyPcBecomes (sumWord s.params s.pc 1) t ∧ s.OnlyCellBecomes a v t ∧ s.SameButRegsData t

/-- `exec i s` completes with nothing changed but pc, which takes `v`. -/
def CompletesAt (i : Instr) (s : State) (v : Word) : Prop :=
  ∃ t, exec i s = .next t ∧ s.OnlyPcBecomes v t ∧ s.SameButRegs t

/-- `exec i s` completes with nothing changed but the output, which gets the byte `b` at its end, and pc, which goes up
by one. -/
def CompletesSending (i : Instr) (s : State) (b : Byte) : Prop :=
  ∃ t, exec i s = .next t ∧ s.OnlyPcBecomes (sumWord s.params s.pc 1) t ∧ s.SameButRegs { t with output := s.output } ∧
    t.output = s.output ++ [b]

/-- `exec i s` completes a PUSH of `v`: cell sp takes it, sp and pc go up by one, nothing else changes. -/
def CompletesPushing (i : Instr) (s : State) (v : Word) : Prop :=
  ∃ t, exec i s = .next t ∧
    (∀ j, t.x j = if j = s.pcIdx then sumWord s.params s.pc 1
      else if j = s.spIdx then sumWord s.params s.sp 1 else s.x j) ∧
    s.OnlyCellBecomes s.sp v t ∧ s.SameButRegsData t

/-- The PUSH `i`, followed by a POP to register `r`, completes with `v` in `r` and in cell sp, pc up by 2 and nothing else
changed, sp included. -/
def PopsWhatItPushed (i : Instr) (s : State) (r : RegIdx) (v : Word) : Prop :=
  ∃ t u, exec i s = .next t ∧ exec (.popR r) t = .next u ∧
    (∀ j, u.x j = if j = r then v else if j = s.pcIdx then sumWord s.params s.pc 2 else s.x j) ∧
    s.OnlyCellBecomes s.sp v u ∧ s.SameButRegsData u

end Sys2Proof.Machine
end

