-- ==== Sys2Proof/Certificates/Slice0/Obligations.lean ====
section
/-! DEFINITION. The statements for the provers: what the numbered rules of spec/ say of the decoder, of memory, of the
step, of each instruction, of the exceptions and of the loader. -/

open Sys2Proof Sys2Proof.Machine

/-- For every machine with legal parameters (any XLEN, NREG and layout) and every well-formed instruction, with
every operand at every value its slot admits, the encoding is a record of ILEN bits and decodes to that
instruction. The layout is the spec's own choice (D5). (30_encoding.md Part 2 (R64, R65, R68), 30_encoding.md
Part 3 (R69)) -/
def Obligations.EncodedInstructionDecodesToItself : Prop :=
  ∀ (p : Params) (i : Instr), p.Legal → i.wellFormed p = true →
    encode p i < 2 ^ p.ilen ∧ decode p (encode p i) = .instr i

/-- On every machine each instruction has exactly one well-formed record: if a record of ILEN bits decodes to i,
then i is well formed and the record is encode i. So decoding is injective on the records that decode to
instructions. (30_encoding.md Part 3 (R69)) -/
def Obligations.DecodedRecordIsTheEncoding : Prop :=
  ∀ (p : Params) (r : Record) (i : Instr), r < 2 ^ p.ilen → decode p r = .instr i →
    i.wellFormed p = true ∧ r = encode p i

/-- On every machine, for every record: op = 0 decodes to the null record whatever the other bits; otherwise a
record that is well formed (header of one of the 43 forms, slots in range) decodes to an instruction, and any
other is rejected. (30_encoding.md Part 2 (R66), 30_encoding.md Part 3 (R69, R70)) -/
def Obligations.DecodeFollowsWellFormedness : Prop :=
  ∀ (p : Params) (r : Record),
    (decode p r = .null ↔ (fieldsOf p r).op = 0) ∧
    ((∃ i, decode p r = .instr i) ↔ (fieldsOf p r).op ≠ 0 ∧ (fieldsOf p r).wellFormed p = true) ∧
    ((∃ why, decode p r = .illegal why) ↔ (fieldsOf p r).op ≠ 0 ∧ (fieldsOf p r).wellFormed p = false)

/-- JUMP 2, MOVE r0 #5, ADD r2 100 #1, WRITE 'A', STORE #65 r3, PUSH #7 and BREAK, each record written out in full
from the spec, decode to those instructions; MOVE #5 r0 and a record with op = 13 are rejected, the all-zero
record is null. On a machine with XLEN = 8 the 40-bit record of MOVE r1 #255 is written out in the same way.
(30_encoding.md Part 2 (R68), 95_test_vectors.md Part 2) -/
def Obligations.WrittenOutRecordsDecode : Prop :=
  decode .reference 0x1400_00000002_00000000_00000000 = .instr (.jumpA 2) ∧
  decode .reference 0x32C0_00000000_00000005_00000000 = .instr (.moveRC 0 5) ∧
  decode .reference 0x4298_00000002_00000064_00000001 = .instr (.addRAC 2 100 1) ∧
  decode .reference 0x6800_00000041_00000000_00000000 = .instr (.writeH 0x41) ∧
  decode .reference 0x9640_00000041_00000003_00000000 = .instr (.storeCR 65 3) ∧
  decode .reference 0xA600_00000007_00000000_00000000 = .instr (.pushC 7) ∧
  decode .reference 0xC000_00000000_00000000_00000000 = .instr .brk ∧
  decode .reference 0x3640_00000005_00000000_00000000 = .illegal .operandKind ∧
  decode .reference 0xD000_00000000_00000000_00000000 = .illegal .reservedOpcode ∧
  decode .reference 0 = .null ∧
  decode ⟨8, 2, .spThenPc, 255⟩ 0x32C0_01_FF_00 = .instr (.moveRC 1 255)

/-- For every opcode and operand list: they make an instruction exactly when the operand count and every operand
kind are legal for the opcode, and the instruction made has that opcode and those operands. (30_encoding.md Part
1 (R63), 30_encoding.md Part 3 (R67, R68)) -/
def Obligations.OperandsMakeAnInstructionIffLegal : Prop :=
  ∀ (op : Opcode) (os : List Operand),
    ((∃ i, Instr.ofOperands op os = some i) ↔ wellFormedOperands op os = true) ∧
    ∀ i, Instr.ofOperands op os = some i → i.opcode = op ∧ i.operands = os

/-- MemRead at an address of the data region returns what the cell holds, at any other address it is
AccessViolation; a cell with no entry in the data store, that nothing has written, holds 0. (R47) -/
def Obligations.MemReadAnswersTheCellOrAccessViolation : Prop :=
  ∀ (s : State) (a : Word),
    (s.DataCell a → s.memRead a = .ok (s.dataAt a)) ∧
    (¬ s.DataCell a → s.memRead a = .error .accessViolation) ∧
    ((∀ e ∈ s.dmem, e.1 ≠ a) → s.dataAt a = 0)

/-- MemWrite at an address of the data region replaces that cell by the value and changes no other cell and no other
state; at any other address it is AccessViolation. (R48) -/
def Obligations.MemWriteReplacesOneCellOrAccessViolation : Prop :=
  ∀ (s : State) (a v : Word), s.Inv →
    (s.DataCell a → ∃ t, s.memWrite a v = .ok t ∧ s.OnlyCellBecomes a v t ∧ t.regs = s.regs ∧
      s.SameButRegsData t) ∧
    (¬ s.DataCell a → s.memWrite a v = .error .accessViolation)

/-- If the core runs, pc is in the code region and the record at pc decodes to a well-formed instruction i, then
step is exec of i at that state, with nothing added around it. (40_step_cycle.md section 1 (R102, R103, R108)) -/
def Obligations.StepRunsTheDecodedInstruction : Prop :=
  ∀ (s : State) (i : Instr), s.Running → s.pc < s.ibound → decode s.params (s.ifetch s.pc) = .instr i →
    i.wellFormed s.params = true → step s = exec i s

/-- If the core runs and pc is not below IBOUND, the step records InvalidInstruction and stops the core; pc and
everything else keep their values. If pc is below IBOUND, the fetch check does not fail: what the step does
depends on the record at pc. (R100) -/
def Obligations.FetchOutsideTheCodeRaisesInvalidInstruction : Prop :=
  ∀ s : State, s.Running →
    (¬ s.pc < s.ibound → step s = .next { s with stopped := true, cause := .invalidInstruction }) ∧
    (s.pc < s.ibound → ∀ i, decode s.params (s.ifetch s.pc) = .instr i → step s = exec i s)

/-- If the core runs, pc is in the code region and the record at pc has op = 0, whatever its other bits (that these
are the null record is decision D6), the step records NoInstruction and stops the core; nothing else changes.
(40_step_cycle.md section 1 (R101), 30_encoding.md Part 2 (R66), 92_eei_decisions.md D6) -/
def Obligations.NullRecordRaisesNoInstruction : Prop :=
  ∀ s : State, s.Running → s.pc < s.ibound → (fieldsOf s.params (s.ifetch s.pc)).op = 0 →
    step s = .next { s with stopped := true, cause := .noInstruction }

/-- If the core runs, pc is in the code region, op is not 0 and the record is not well formed, the step records
InvalidInstruction and stops the core; no register, cell or byte changes, in particular no input byte is
consumed. That all these records fault so, and before any effect, is the spec's own decision (D7, D12).
(40_step_cycle.md section 1 (R102), 30_encoding.md Part 3 (R70), 92_eei_decisions.md D7, D12) -/
def Obligations.IllegalRecordRaisesInvalidInstruction : Prop :=
  ∀ s : State, s.Running → s.pc < s.ibound → (fieldsOf s.params (s.ifetch s.pc)).op ≠ 0 →
    (fieldsOf s.params (s.ifetch s.pc)).wellFormed s.params = false →
    step s = .next { s with stopped := true, cause := .invalidInstruction }

/-- If stopped is set and the load did not fail, step answers the fault steppedWhileStopped
(notes/assumptions/9.md); if the load-fault slot is set, step is refused (notes/assumptions/10.md). That a
stopped core has no transition is the spec's decision D11. (40_step_cycle.md section 3 (R109),
92_eei_decisions.md D11, 10_state.md section 5 (R31)) -/
def Obligations.StoppedCoreTakesNoStep : Prop :=
  ∀ s : State,
    (s.loadFault = none → s.stopped = true → step s = .fault .steppedWhileStopped) ∧
    (s.loadFault ≠ none → step s = .refused .loadFaultSet)

/-- In every state that runs: if the fetched instruction is not a READ without a byte, the next step completes it
with the core still running, or raises one exception and changes the fault slot only (R206); if it is such a
READ, its step is not enabled. That the model answers a step asked for then with the refusal waitsForInput is
the model's way of having no step there (notes/assumptions/7.md). No state is stuck in any other way.
(70_reset_and_hazards.md section 6 (R205, R206), 40_step_cycle.md section 1 (R108), 44_byte_io.md (R143)) -/
def Obligations.RunningCoreCompletesRaisesOrWaits : Prop :=
  ∀ s : State, s.Running →
    (s.WaitsForInput → step s = .refused .waitsForInput) ∧
    (¬ s.WaitsForInput → ∃ t, step s = .next t ∧
      ((t.Running ∧ (∃ i, s.fetchDecode = .ok i ∧ exec i s = .next t)) ∨
        ∃ e, t = { s with stopped := true, cause := e }))

/-- If a step leaves stopped set, the core was running before it and only stopped and cause differ: no register (pc
included), no data cell, no byte. That every check comes before every effect is the spec's decision D12.
(40_step_cycle.md section 3 (R107), 60_exceptions.md section 3 (R166), 92_eei_decisions.md D10, D12) -/
def Obligations.StepThatStopsChangesOnlyTheFaultSlot : Prop :=
  ∀ s t : State, step s = .next t → t.stopped = true →
    s.stopped = false ∧ ∃ e, t = { s with stopped := true, cause := e }

/-- Along every run of any length: from a running core, the cause keeps its value as long as the core has not
stopped; and a state that is stopped leads to no other state. (93_implementation_defined.md Part 1 item 1,
60_exceptions.md section 3 (R167)) -/
def Obligations.FaultSlotIsWrittenOnce : Prop :=
  ∀ s t : State, Reaches s t →
    (s.stopped = true → t = s) ∧ (t.stopped = false → t.cause = s.cause ∧ s.stopped = false)

/-- A step of a running core leads to a state with stopped = 1 and cause = None exactly when the fetched instruction
is BREAK; every other way to stop is a fault (stopped with a cause other than None). (R168) -/
def Obligations.SucceededMeansABreakWasExecuted : Prop :=
  ∀ s t : State, s.Running → step s = .next t →
    (t.Succeeded ↔ s.fetchDecode = .ok .brk) ∧ (t.stopped = true → s.fetchDecode ≠ .ok .brk → t.Faulted)

/-- For every instruction in a core that is not stopped: it raises None exactly if it is BREAK, InvalidInstruction
exactly if it is a JUMP whose target is not below IBOUND, AccessViolation exactly if a data address it accesses
is outside the data region, and NoInstruction never. (60_exceptions.md section 1 (R161, R163)) -/
def Obligations.InstructionRaisesExactlyAsTabled : Prop :=
  ∀ (i : Instr) (s : State), s.stopped = false →
    (Raises i s .none ↔ i = .brk) ∧
    (Raises i s .invalidInstruction ↔ ∃ w, s.jumpTarget i = some w ∧ ¬ w < s.ibound) ∧
    (Raises i s .accessViolation ↔ ∃ a ∈ s.accesses i, ¬ s.DataCell a) ∧
    ¬ Raises i s .noInstruction

/-- For every instruction other than BREAK: if all its data addresses are in the data region, its JUMP target (if
any) is below IBOUND and, for READ, a byte is available, exec answers a next state with the fault slot
unchanged. (60_exceptions.md section 1 (R161), 40_step_cycle.md section 1 (R103)) -/
def Obligations.InstructionWithValidAccessesCompletes : Prop :=
  ∀ (i : Instr) (s : State), i ≠ .brk → (∀ a ∈ s.accesses i, s.DataCell a) →
    (∀ w, s.jumpTarget i = some w → w < s.ibound) →
    ((∃ d, i = .readR d) → s.input ≠ []) →
    ∃ t, exec i s = .next t ∧ t.stopped = s.stopped ∧ t.cause = s.cause

/-- From every state with legal parameters, IBOUND at most CAPACITY, NREG registers that each hold a word of XLEN
bits, and both stores in canonical form within their address ranges with a word in every data cell, a step that
answers a next state leads to such a state again. (10_state.md sections 5 and 6 (R28, R29, R33, R34),
20_memory.md section 1 (R40, R41), 00_scope.md (R6, R7)) -/
def Obligations.StepKeepsTheInvariant : Prop :=
  ∀ s t : State, s.Inv → step s = .next t → t.Inv

/-- Creation with any legal parameters leaves a machine that meets the invariant, and so does State.reset, the
creation of the reference instance. (10_state.md section 8 (R37)) -/
def Obligations.ResetMeetsTheInvariant : Prop :=
  (∀ p : Params, p.Legal → (State.create p).Inv) ∧ State.reset.Inv

/-- After creation with any parameters every data cell is 0, every code cell the all-zero record, IBOUND 0, stopped
0, the load-fault slot unset, pc 0, every register 0, and the parameters as given. State.reset is the creation
of the reference instance: XLEN = 32, NREG = 16, CAPACITY = 8192 and, the spec's reference for D3, PC_IDX = 14
and SP_IDX = 15 (notes/assumptions/1.md to 4.md). The zero of sp and the general registers is the spec's
decision D9 (notes/assumptions/5.md). (10_state.md section 8 (R37), 92_eei_decisions.md D3, D9) -/
def Obligations.ResetValuesOfTheMachine : Prop :=
  (∀ p : Params, (∀ a, (State.create p).dataAt a = 0) ∧ (∀ a, (State.create p).ifetch a = 0) ∧
      (State.create p).ibound = 0 ∧ (State.create p).stopped = false ∧ (State.create p).loadFault = none ∧
      (State.create p).pc = 0 ∧ (∀ j, (State.create p).x j = 0) ∧ (State.create p).params = p) ∧
    State.reset = State.create ⟨32, 16, .pcThenSp, 8192⟩ ∧ State.reset.pcIdx = 14 ∧ State.reset.spIdx = 15

/-- With IBOUND = 0, on a machine created with any parameters, the first step fails its fetch check: cause
InvalidInstruction, stopped, pc = 0, nothing else changed. (70_reset_and_hazards.md section 3 (R198)) -/
def Obligations.FirstStepOfAnEmptyMachineRaises : Prop :=
  ∀ p : Params, (State.create p).pc = 0 ∧
    step (State.create p) = .next { State.create p with stopped := true, cause := .invalidInstruction }

/-- Along every run the instruction store, IBOUND and with them every fetched record are constant; an instruction
any of whose data addresses is below IBOUND, read or write, raises AccessViolation and changes nothing. (R54) -/
def Obligations.CodeIsConstantAndUnreachableForData : Prop :=
  (∀ s t : State, Reaches s t → t.imem = s.imem ∧ t.ibound = s.ibound ∧ ∀ a, t.ifetch a = s.ifetch a) ∧
    ∀ (i : Instr) (s : State), s.stopped = false → (∃ a ∈ s.accesses i, a < s.ibound) →
      Raises i s .accessViolation

/-- Along every run: XLEN, NREG, the pc and sp assignment, CAPACITY, IBOUND, the instruction store and the load-
fault slot keep their values. (00_scope.md section 6 (R9), 10_state.md section 5 (R28, R29, R31)) -/
def Obligations.StepKeepsTheParameters : Prop :=
  ∀ s t : State, Reaches s t → s.SameProgram t

/-- For every step: a data cell that differs after it lies in [IBOUND, CAPACITY), and no two cells differ.
(20_memory.md sections 1 and 4 (R41, R48, R49)) -/
def Obligations.StepChangesAtMostOneDataCellOfTheDataRegion : Prop :=
  ∀ s t : State, s.Inv → step s = .next t →
    (∀ a, t.dataAt a ≠ s.dataAt a → s.DataCell a) ∧
    (∀ a b, t.dataAt a ≠ s.dataAt a → t.dataAt b ≠ s.dataAt b → a = b)

/-- For every step: the output is unchanged, or the fetched instruction is a WRITE and the output has one byte more
at its end; the input is unchanged, or the fetched instruction is a READ and the input has lost its first byte.
(44_byte_io.md (R142, R143, R144), 92_eei_decisions.md D19) -/
def Obligations.OnlyWriteSendsAndOnlyReadReceives : Prop :=
  ∀ s t : State, step s = .next t →
    (t.output = s.output ∨ ∃ i, s.fetchDecode = .ok i ∧ i.opcode = .write ∧ ∃ b, t.output = s.output ++ [b]) ∧
    (t.input = s.input ∨ ∃ i, s.fetchDecode = .ok i ∧ i.opcode = .read ∧ ∃ b, s.input = b :: t.input)

/-- If a step is taken, then with any further bytes supplied behind those already there it does the same, and those
bytes are still there after it. (A READ with no byte takes no step.) (44_byte_io.md (R143),
70_reset_and_hazards.md section 2 (R192, R196)) -/
def Obligations.BytesSuppliedLaterDoNotChangeTheStep : Prop :=
  ∀ (s t : State) (bytes : List Byte), step s = .next t → step (s.supply bytes) = .next (t.supply bytes)

/-- Take two machines that differ only in data cells outside [IBOUND, CAPACITY), such as a word that a directive
wrote below the final boundary. Whatever run one of them makes, the other makes the same run, the two still
differing in nothing else: the run cannot tell the difference. (20_memory.md section 6 (R56), 90_conflicts.md
C5, 92_eei_decisions.md D8) -/
def Obligations.ShadowedWordsAreNeverVisible : Prop :=
  ∀ s t u : State, s.DataAgrees u → Reaches s t → ∃ v, Reaches u v ∧ t.DataAgrees v

/-- For jumpR and jumpA: if the target (the register's content, or the operand itself) is below IBOUND, exec answers
a next state in which pc is the target, with no increment, and nothing else differs. (41_control_transfer.md
(R120)) -/
def Obligations.JumpSetsPcToTheTarget : Prop :=
  ∀ s : State, s.Inv →
    (∀ r, (s.x r) < s.ibound → CompletesAt (.jumpR r) s (s.x r)) ∧
    (∀ a, a < s.ibound → CompletesAt (.jumpA a) s a)

/-- For jumpR and jumpA in a core that is not stopped: if the target is not below IBOUND the exception is
InvalidInstruction and nothing else changes; pc keeps the address of the JUMP, which is the spec's decision D25.
(41_control_transfer.md (R120), 92_eei_decisions.md D25) -/
def Obligations.JumpOutOfRangeRaisesInvalidInstruction : Prop :=
  ∀ s : State, s.stopped = false →
    (∀ r, ¬ (s.x r) < s.ibound → Raises (.jumpR r) s .invalidInstruction) ∧
    (∀ a, ¬ a < s.ibound → Raises (.jumpA a) s .invalidInstruction)

/-- For condR, condC and condA (whose address must be a data cell; that it is dereferenced is decision D14): exec
answers a next state in which pc has gone up by 2 if the tested word is not zero and by 1 if it is zero, modulo
2^XLEN, and nothing else differs. (41_control_transfer.md (R121), 92_eei_decisions.md D14) -/
def Obligations.CondSkipsExactlyWhenNotZero : Prop :=
  ∀ s : State, s.Inv →
    (∀ r, CompletesAt (.condR r) s (sumWord s.params s.pc (if s.x r = 0 then 1 else 2))) ∧
    (∀ c, CompletesAt (.condC c) s (sumWord s.params s.pc (if c = 0 then 1 else 2))) ∧
    (∀ a, s.DataCell a → CompletesAt (.condA a) s (sumWord s.params s.pc (if s.dataAt a = 0 then 1 else 2)))

/-- For moveRR, moveRC and moveRA (whose address must be a data cell): exec answers a next state in which the
destination register holds the source word, pc is one more than what it holds after that write (so MOVE pc v
leaves v + 1, decision D13), and nothing else differs. (42_move.md (R130), 40_step_cycle.md section 3 (R106),
92_eei_decisions.md D13, D14) -/
def Obligations.MoveToRegisterWritesTheSource : Prop :=
  ∀ (s : State) (d : RegIdx), s.Inv → s.IsReg d →
    (∀ r, CompletesWriting (.moveRR d r) s d (s.x r)) ∧
    (∀ c, s.IsWord c → CompletesWriting (.moveRC d c) s d c) ∧
    (∀ a, s.DataCell a → CompletesWriting (.moveRA d a) s d (s.dataAt a))

/-- For moveAR, moveAC and moveAA, with every address a data cell: exec answers a next state in which the
destination cell holds the source word as it was before the instruction, pc has gone up by one, and no other
cell, register or state differs. (42_move.md (R130), 92_eei_decisions.md D14) -/
def Obligations.MoveToCellStoresTheSource : Prop :=
  ∀ (s : State) (d : Word), s.Inv → s.DataCell d →
    (∀ r, CompletesStoring (.moveAR d r) s d (s.x r)) ∧
    (∀ c, CompletesStoring (.moveAC d c) s d c) ∧
    (∀ a, s.DataCell a → CompletesStoring (.moveAA d a) s d (s.dataAt a))

/-- For all nine forms of ADD, an Address source read from its data cell: exec answers a next state in which the
destination register holds (a + b) mod 2^XLEN, both sources read before the write, pc is one more than what it
holds after that write (decision D13 when pc is the destination), and nothing else differs: no carry is
recorded. (43_arithmetic.md (R135, R137), 40_step_cycle.md section 3 (R106), 92_eei_decisions.md D13, D14) -/
def Obligations.AddWritesTheWrappedSum : Prop :=
  ∀ (s : State) (d : RegIdx), s.Inv → s.IsReg d →
    (∀ a b, CompletesWriting (.addRRR d a b) s d (sumWord s.params (s.x a) (s.x b))) ∧
    (∀ a b, s.IsWord b → CompletesWriting (.addRRC d a b) s d (sumWord s.params (s.x a) b)) ∧
    (∀ a b, s.DataCell b → CompletesWriting (.addRRA d a b) s d (sumWord s.params (s.x a) (s.dataAt b))) ∧
    (∀ a b, s.IsWord a → CompletesWriting (.addRCR d a b) s d (sumWord s.params a (s.x b))) ∧
    (∀ a b, s.IsWord a → s.IsWord b → CompletesWriting (.addRCC d a b) s d (sumWord s.params a b)) ∧
    (∀ a b, s.IsWord a → s.DataCell b → CompletesWriting (.addRCA d a b) s d (sumWord s.params a (s.dataAt b))) ∧
    (∀ a b, s.DataCell a → CompletesWriting (.addRAR d a b) s d (sumWord s.params (s.dataAt a) (s.x b))) ∧
    (∀ a b, s.DataCell a → s.IsWord b → CompletesWriting (.addRAC d a b) s d (sumWord s.params (s.dataAt a) b)) ∧
    (∀ a b, s.DataCell a → s.DataCell b →
      CompletesWriting (.addRAA d a b) s d (sumWord s.params (s.dataAt a) (s.dataAt b)))

/-- For all nine forms of SUB, an Address source read from its data cell: exec answers a next state in which the
destination register holds a - b, or a - b + 2^XLEN when a is below b, pc is one more than what it holds after
that write (decision D13 when pc is the destination), and nothing else differs: no borrow is recorded.
(43_arithmetic.md (R136, R137), 40_step_cycle.md section 3 (R106), 92_eei_decisions.md D13, D14) -/
def Obligations.SubWritesTheWrappedDifference : Prop :=
  ∀ (s : State) (d : RegIdx), s.Inv → s.IsReg d →
    (∀ a b, CompletesWriting (.subRRR d a b) s d (differenceWord s.params (s.x a) (s.x b))) ∧
    (∀ a b, s.IsWord b → CompletesWriting (.subRRC d a b) s d (differenceWord s.params (s.x a) b)) ∧
    (∀ a b, s.DataCell b → CompletesWriting (.subRRA d a b) s d (differenceWord s.params (s.x a) (s.dataAt b))) ∧
    (∀ a b, s.IsWord a → CompletesWriting (.subRCR d a b) s d (differenceWord s.params a (s.x b))) ∧
    (∀ a b, s.IsWord a → s.IsWord b → CompletesWriting (.subRCC d a b) s d (differenceWord s.params a b)) ∧
    (∀ a b, s.IsWord a → s.DataCell b →
      CompletesWriting (.subRCA d a b) s d (differenceWord s.params a (s.dataAt b))) ∧
    (∀ a b, s.DataCell a → CompletesWriting (.subRAR d a b) s d (differenceWord s.params (s.dataAt a) (s.x b))) ∧
    (∀ a b, s.DataCell a → s.IsWord b →
      CompletesWriting (.subRAC d a b) s d (differenceWord s.params (s.dataAt a) b)) ∧
    (∀ a b, s.DataCell a → s.DataCell b →
      CompletesWriting (.subRAA d a b) s d (differenceWord s.params (s.dataAt a) (s.dataAt b)))

/-- For writeH, writeC and writeR: exec answers a next state whose output has one byte more at its end, the operand
modulo 256 (for values above 255 the spec's decision D15), pc has gone up by one, and nothing else differs.
(44_byte_io.md (R140, R142), 92_eei_decisions.md D15) -/
def Obligations.WriteSendsTheLowByte : Prop :=
  ∀ s : State, s.Inv →
    (∀ b, CompletesSending (.writeH b) s b) ∧
    (∀ c, CompletesSending (.writeC c) s (BitVec.ofNat 8 (c % 256))) ∧
    (∀ r, CompletesSending (.writeR r) s (BitVec.ofNat 8 (s.x r % 256)))

/-- For readR with a byte available: exec answers a next state in which the destination register holds the number of
the byte, 0 to 255, exactly that byte has left the input, pc is one more than what it holds after that write
(READ pc leaves byte + 1), and nothing else differs. It holds for every byte: the byte is the environment's
choice. (44_byte_io.md (R141, R143), 92_eei_decisions.md D13, D15) -/
def Obligations.ReadTakesTheNextByteZeroExtended : Prop :=
  ∀ (s : State) (d : RegIdx) (b : Byte) (rest : List Byte), s.Inv → s.IsReg d → s.input = b :: rest →
    ∃ t, exec (.readR d) s = .next t ∧ s.WrittenThenAdvanced d b.toNat t ∧ t.input = rest ∧
      s.SameButRegs { t with input := s.input }

/-- For readR with an empty input: exec answers no next state but the refusal waitsForInput, which is the model's
way of saying that the step is not enabled (notes/assumptions/7.md); and with any bytes supplied, one or more,
it completes in one step and leaves all but the first. (44_byte_io.md (R141, R143), 70_reset_and_hazards.md
section 6 (R205), 93_implementation_defined.md Part 1 item 12) -/
def Obligations.ReadWithNoByteWaits : Prop :=
  ∀ (s : State) (d : RegIdx), s.input = [] →
    exec (.readR d) s = .refused .waitsForInput ∧
    ∀ b more, ∃ t, exec (.readR d) (s.supply (b :: more)) = .next t ∧ t.input = more

/-- For loadRR (address in a register) and loadRC (address a constant), the address a data cell: exec answers a next
state in which the destination register holds the whole word of the cell, pc is one more than what it holds
after that write (decision D13 when pc is the destination), and nothing else differs. (45_load_store.md (R145),
40_step_cycle.md section 3 (R106), 92_eei_decisions.md D13) -/
def Obligations.LoadReadsTheCell : Prop :=
  ∀ (s : State) (d : RegIdx), s.Inv → s.IsReg d →
    (∀ r, s.DataCell (s.x r) → CompletesWriting (.loadRR d r) s d (s.dataAt (s.x r))) ∧
    (∀ a, s.DataCell a → CompletesWriting (.loadRC d a) s d (s.dataAt a))

/-- For storeRR, storeRC, storeCR and storeCC, the address first: if it is a data cell, exec answers a next state in
which that cell holds the value, pc has gone up by one and nothing else differs; if it is not, in a core that is
not stopped, AccessViolation with memory and pc unchanged. The encodings are the headers of the four forms with
address and value in slots 0 and 1. (45_load_store.md (R146)) -/
def Obligations.StoreReplacesTheCellOrRaises : Prop :=
  ∀ s : State, s.Inv →
    ((∀ r v, s.DataCell (s.x r) → CompletesStoring (.storeRR r v) s (s.x r) (s.x v)) ∧
      (∀ r c, s.DataCell (s.x r) → CompletesStoring (.storeRC r c) s (s.x r) c) ∧
      (∀ a v, s.DataCell a → CompletesStoring (.storeCR a v) s a (s.x v)) ∧
      (∀ a c, s.DataCell a → CompletesStoring (.storeCC a c) s a c)) ∧
    (s.stopped = false →
      (∀ r v, ¬ s.DataCell (s.x r) → Raises (.storeRR r v) s .accessViolation) ∧
      (∀ r c, ¬ s.DataCell (s.x r) → Raises (.storeRC r c) s .accessViolation) ∧
      (∀ a v, ¬ s.DataCell a → Raises (.storeCR a v) s .accessViolation) ∧
      (∀ a c, ¬ s.DataCell a → Raises (.storeCC a c) s .accessViolation)) ∧
    ((∀ r v, encode s.params (.storeRR r v) = mkRecord s.params 0x9240#16 r v 0) ∧
      (∀ r c, encode s.params (.storeRC r c) = mkRecord s.params 0x92C0#16 r c 0) ∧
      (∀ a v, encode s.params (.storeCR a v) = mkRecord s.params 0x9640#16 a v 0) ∧
      (∀ a c, encode s.params (.storeCC a c) = mkRecord s.params 0x96C0#16 a c 0))

/-- In a core that is not stopped: condA, moveRA, moveAR, moveAC, moveAA (either address), the ADD and SUB forms
with an Address source (either source), loadRR and loadRC raise AccessViolation when such an address is outside
the data region; dest and pc keep their values. (41_control_transfer.md (R121), 42_move.md (R130),
43_arithmetic.md (R135, R136), 45_load_store.md (R145), 60_exceptions.md section 1 (R161)) -/
def Obligations.DataReadsOutsideTheDataRegionRaise : Prop :=
  ∀ s : State, s.stopped = false →
    (∀ a, ¬ s.DataCell a → Raises (.condA a) s .accessViolation ∧
      (∀ d, Raises (.moveRA d a) s .accessViolation ∧ Raises (.loadRC d a) s .accessViolation) ∧
      (∀ r, Raises (.moveAR a r) s .accessViolation) ∧ (∀ c, Raises (.moveAC a c) s .accessViolation) ∧
      (∀ b, Raises (.moveAA a b) s .accessViolation ∧ Raises (.moveAA b a) s .accessViolation)) ∧
    (∀ d a, ¬ s.DataCell a →
      (∀ r, Raises (.addRAR d a r) s .accessViolation ∧ Raises (.addRRA d r a) s .accessViolation ∧
        Raises (.subRAR d a r) s .accessViolation ∧ Raises (.subRRA d r a) s .accessViolation) ∧
      (∀ c, Raises (.addRAC d a c) s .accessViolation ∧ Raises (.addRCA d c a) s .accessViolation ∧
        Raises (.subRAC d a c) s .accessViolation ∧ Raises (.subRCA d c a) s .accessViolation) ∧
      (∀ b, Raises (.addRAA d a b) s .accessViolation ∧ Raises (.addRAA d b a) s .accessViolation ∧
        Raises (.subRAA d a b) s .accessViolation ∧ Raises (.subRAA d b a) s .accessViolation)) ∧
    (∀ d r, ¬ s.DataCell (s.x r) → Raises (.loadRR d r) s .accessViolation)

/-- For pushR and pushC with sp in the data region: exec answers a next state in which that cell holds the value,
read before sp changes (so PUSH sp stores the old sp), sp and pc have gone up by one, and nothing else differs.
(46_stack.md (R150), 92_eei_decisions.md D13) -/
def Obligations.PushStoresAtSpAndRaisesSp : Prop :=
  ∀ s : State, s.Inv → s.DataCell s.sp →
    (∀ r, CompletesPushing (.pushR r) s (s.x r)) ∧ (∀ c, CompletesPushing (.pushC c) s c)

/-- For popR with sp - 1 in the data region, w being that cell's word: exec answers a next state in which the
destination holds w, sp is one less than what it holds after that write (POP sp leaves w - 1) and pc one more
(POP pc leaves w + 1), both by decision D13, and nothing else differs; no cell is cleared. (46_stack.md (R151),
92_eei_decisions.md D13) -/
def Obligations.PopLoadsBelowSpAndLowersSp : Prop :=
  ∀ (s : State) (d : RegIdx), s.Inv → s.IsReg d → s.DataCell s.belowSp →
    ∃ t, exec (.popR d) s = .next t ∧
      (∀ j, t.x j =
        if j = s.pcIdx then sumWord s.params (if d = s.pcIdx then s.dataAt s.belowSp else s.pc) 1
        else if j = s.spIdx then differenceWord s.params (if d = s.spIdx then s.dataAt s.belowSp else s.sp) 1
        else if j = d then s.dataAt s.belowSp else s.x j) ∧
      s.SameButRegs t

/-- In a core that is not stopped: pushR and pushC raise AccessViolation when sp is not a data cell, popR when sp -
1 modulo 2^XLEN is not. That cell is the one below sp, or, with sp = 0, cell 2^XLEN - 1, which is never a data
cell, so that POP with sp = 0 always raises (decision D17); memory, dest, sp and pc keep their values.
(46_stack.md (R150, R151), 20_memory.md section 6 (R58), 92_eei_decisions.md D17) -/
def Obligations.PushAndPopOutsideTheDataRegionRaise : Prop :=
  ∀ s : State, s.Inv →
    s.belowSp = (if s.sp = 0 then 2 ^ s.params.xlen - 1 else s.sp - 1) ∧
    (s.stopped = false →
      (¬ s.DataCell s.sp →
        (∀ r, Raises (.pushR r) s .accessViolation) ∧ (∀ c, Raises (.pushC c) s .accessViolation)) ∧
      (¬ s.DataCell s.belowSp → ∀ d, Raises (.popR d) s .accessViolation) ∧
      (s.sp = 0 → ∀ d, Raises (.popR d) s .accessViolation))

/-- From any state with IBOUND <= sp < CAPACITY, PUSH followed by POP r, r neither sp nor pc, leaves r with the
pushed value, sp as before the PUSH, cell sp holding the value, pc advanced by 2, every other register and cell
as before. It holds of both forms: the value is the constant of pushC, or for pushR the content of its register
before the PUSH, sp and pc included. (46_stack.md (R152)) -/
def Obligations.PopAfterPushRestoresSpAndTheValue : Prop :=
  ∀ (s : State) (r : RegIdx), s.Inv → s.DataCell s.sp → s.IsReg r → r ≠ s.spIdx → r ≠ s.pcIdx →
    (∀ v, s.IsWord v → PopsWhatItPushed (.pushC v) s r v) ∧
    (∀ q, PopsWhatItPushed (.pushR q) s r (s.x q))

/-- For brk in a running core: exec answers the state with stopped = 1 and cause = None and nothing else changed, pc
included; the core takes no step after it. Its encoding is header 0xC000 with zero slots. A step that stops the
core with cause None is the execution of a BREAK. (47_break.md (R155), 40_step_cycle.md section 3 (R109)) -/
def Obligations.BreakStopsTheCoreCleanly : Prop :=
  (∀ s : State, s.Running → ∃ t, exec .brk s = .next t ∧ t = { s with stopped := true, cause := .none } ∧
      t.pc = s.pc ∧ t.Succeeded ∧ step t = .fault .steppedWhileStopped) ∧
    (∀ p : Params, encode p .brk = mkRecord p 0xC000#16 0 0 0) ∧
    ∀ s t : State, s.Running → step s = .next t → t.Succeeded → s.fetchDecode = .ok .brk

/-- If a program whose lines are pre, l, post assembles into a machine with IBOUND = 0 and canonical stores, then
IBOUND ends as the number of instruction lines; if l is an instruction line, IBOUND before it is the number n of
instruction lines of pre, its mnemonic names an opcode, its other tokens parse to the operands of one
instruction of that opcode, one operand a token (R84, R85), and the record of that instruction is appended at
address n, where the loaded machine holds it; if l is no instruction line, it leaves IBOUND and the code as they
were. (R89) -/
def Obligations.AssembledInstructionLinesStandInOrder : Prop :=
  ∀ (p : LoaderParams) (pre post : List (List Byte)) (l : List Byte) (s t : State),
    s.ibound = 0 → s.Inv → assembleLines p (pre ++ l :: post) s = .ok t →
    t.ibound = (pre ++ l :: post).countP (isInstructionLine p) ∧
    ∃ u v, assembleLines p pre s = .ok u ∧ assembleLine p l u = .ok v ∧ u.ibound = pre.countP (isInstructionLine p) ∧
      (isInstructionLine p l = true → v.ibound = u.ibound + 1 ∧
        ∃ m toks op i, lineTokens p l = m :: toks ∧ lookupMnemonic m = some (.op op) ∧ i.opcode = op ∧
          parseOperands p s.params (tryOrder op) toks = some i.operands ∧ toks.length = i.operands.length ∧
          i.wellFormed s.params = true ∧
          v.ifetch u.ibound = encode s.params i ∧ t.ifetch u.ibound = encode s.params i) ∧
      (isInstructionLine p l = false → v.ibound = u.ibound ∧ v.imem = u.imem)

/-- Into a machine that meets the invariant with a well-formed code region (an empty one after reset), every text
that assembles leaves such a machine again, with IBOUND at most CAPACITY; no register, no fault slot, no port
and no parameter changes. (70_reset_and_hazards.md section 2 (R194, R195), 10_state.md section 8 (R38)) -/
def Obligations.AssembledMachineMeetsTheInvariant : Prop :=
  ∀ (p : LoaderParams) (text : List Byte) (s t : State), s.Inv → s.CodeWellFormed → assemble p text s = .ok t →
    t.Inv ∧ t.CodeWellFormed ∧ t.regs = s.regs ∧ t.params = s.params ∧
      t.stopped = s.stopped ∧ t.cause = s.cause ∧ t.loadFault = s.loadFault ∧ t.input = s.input ∧ t.output = s.output

/-- Along every run from a running machine whose code region holds well-formed records: if it has stopped, the cause
is not NoInstruction, and if the cause is InvalidInstruction then pc is outside the code region or the
instruction at pc is a JUMP whose target is outside it. (70_reset_and_hazards.md section 2 (R194),
60_exceptions.md section 1 (R161)) -/
def Obligations.WellFormedCodeNeverRaisesNoInstruction : Prop :=
  ∀ s t : State, s.Running → s.CodeWellFormed → Reaches s t → t.stopped = true →
    t.cause ≠ .noInstruction ∧
    (t.cause = .invalidInstruction → ¬ t.pc < t.ibound ∨
      ∃ i w, decode t.params (t.ifetch t.pc) = .instr i ∧ t.jumpTarget i = some w ∧ ¬ w < t.ibound)

/-- On a machine just created: if assembly answers a load fault e, the load sets the load-fault slot to e and
changes nothing else (that nothing else changes is the model's choice, notes/assumptions/25.md), and step is
refused; if assembly succeeds, the load is its result. (30_encoding.md Part 4 (R91), 70_reset_and_hazards.md
section 2 (R195)) -/
def Obligations.FailedLoadIsNeverStepped : Prop :=
  ∀ (s : State) (p : LoaderParams) (text : List Byte), s.justCreated = true →
    (∀ e, assemble p text s = .error e → s.load p text = .next { s with loadFault := some e } ∧
      step { s with loadFault := some e } = .refused .loadFaultSet) ∧
    (∀ t, assemble p text s = .ok t → s.load p text = .next t)

/-- For a DW whose address literal is a and whose constant is w: if a is a data cell of the boundary in effect, the
machine after it differs in that cell alone, which holds w, with IBOUND and the code unchanged; otherwise the
line is the load fault InvalidInstruction. (R92) -/
def Obligations.DwWritesItsWordAtLoadTime : Prop :=
  ∀ (p : LoaderParams) (aTok wTok : List Byte) (a w : Word) (s : State), s.Inv →
    recogniseAddress p s.params aTok = some a → recogniseConstant p s.params wTok = some w →
    (s.DataCell a → ∃ t, assembleDw p [aTok, wTok] s = .ok t ∧ s.OnlyCellBecomes a w t ∧
      t.regs = s.regs ∧ s.SameButRegsData t) ∧
    (¬ s.DataCell a → assembleDw p [aTok, wTok] s = .error .invalidInstruction)

/-- For a DS whose address literal is a and whose decoded bytes are bs, not empty: if every cell a to a + m - 1 is a
data cell, the machine after it differs in those cells alone, cell a + i holding byte i zero-extended, cell a +
m as it was; if some cell is not, the line is the load fault InvalidInstruction (that every cell is checked is
decision D22). (30_encoding.md Part 4 (R93, R95), 92_eei_decisions.md D22) -/
def Obligations.DsStoresOneBytePerCell : Prop :=
  ∀ (p : LoaderParams) (aTok strTok : List Byte) (a : Word) (bs : List Byte) (s : State), s.Inv →
    recogniseAddress p s.params aTok = some a → recogniseString strTok = some bs → bs ≠ [] →
    ((∀ i, i < bs.length → s.DataCell (a + i)) → ∃ t, assembleDs p [aTok, strTok] s = .ok t ∧
      (∀ (i : Nat) (b : Byte), bs[i]? = some b → t.dataAt (a + i) = b.toNat) ∧
      (∀ k, (k < a ∨ a + bs.length ≤ k) → t.dataAt k = s.dataAt k) ∧
      t.regs = s.regs ∧ s.SameButRegsData t) ∧
    ((∃ i, i < bs.length ∧ ¬ s.DataCell (a + i)) →
      assembleDs p [aTok, strTok] s = .error .invalidInstruction)

/-- For every MOVE line whose destination token begins with `#`, whatever follows it and whatever the source token:
assembly answers InvalidInstruction; in the try-order a match of the Constant recogniser ends the attempt with
an error, so that a token which the Address recogniser alone would accept is not tried. (R86) -/
def Obligations.ConstantDestinationOfMoveIsALoadFault : Prop :=
  (∀ (p : LoaderParams) (ds : List Byte) (toks : List (List Byte)) (s : State),
      assembleInstr p .move ((ch '#' :: ds) :: toks) s = .error .invalidInstruction) ∧
    ∀ (p : LoaderParams) (m : Params) (tok : List Byte) (w : Word) (later : List TryKind),
      recogniseConstant p m tok = some w →
      parseOperand p m (.accept .register :: .reject .constant :: later) tok = none

/-- For every setting of the open points and every token: if two recognisers accept the token, they are the same. So
the try-order decides nothing but the MOVE destination case. (30_encoding.md Part 4 (R83, R84)) -/
def Obligations.NoTokenIsAcceptedByTwoRecognisers : Prop :=
  ∀ (p : LoaderParams) (m : Params) (tok : List Byte) (k k' : Kind) (o o' : Operand),
    recognise p m k tok = some o → recognise p m k' tok = some o' → k = k'

/-- An exception on a stopped core and a load fault on a machine that has one already are faults of the model, with
nothing written; a load answers a next state only on a machine with an unset load-fault slot, not stopped, and
IBOUND = 0, so that no second load and no load after a run exists; on any other it is refused (the refusal is
the model's, notes/assumptions/30.md). (60_exceptions.md section 3 (R167), 10_state.md section 5 (R30, R31),
70_reset_and_hazards.md section 2 (R191, R193)) -/
def Obligations.EachFaultChannelIsSetAtMostOnce : Prop :=
  (∀ (e : Cause) (s : State), s.stopped = true → raise e s = .fault .faultSlotAlreadySet) ∧
    (∀ (e : LoadFault) (s : State), s.loadFault ≠ none → recordLoadFault e s = .fault .loadFaultAlreadySet) ∧
    (∀ (s t : State) (p : LoaderParams) (text : List Byte), s.load p text = .next t →
      s.loadFault = none ∧ s.stopped = false ∧ s.ibound = 0) ∧
    (∀ (s : State) (p : LoaderParams) (text : List Byte), s.loadFault ≠ none ∨ s.stopped = true ∨ s.ibound ≠ 0 →
      s.load p text = .refused .notJustCreated)

/-- For every machine, program and input, with the host's loop cut after k steps (the cut is the model's,
notes/assumptions/30.md): a program that does not assemble is reported with its load fault and no step is taken
(that the machine is otherwise as created is the model's choice, notes/assumptions/25.md); a program that
assembles runs from the loaded machine with the input supplied, and the run is either reported with the cause
and pc of the stopped core that at most k steps lead to, or it is at a READ that waits for a byte, or it is a
running core after exactly k steps. Nothing else happens. (70_reset_and_hazards.md section 2 (R193, R195, R199),
70_reset_and_hazards.md section 6 (R204, R205)) -/
def Obligations.RunFollowsTheHostsSequence : Prop :=
  ∀ (m : Params) (p : LoaderParams) (program bytes : List Byte) (k : Nat),
    (∀ e, assemble p program (State.create m) = .error e →
      run m p program bytes k =
        .reported (.loadFault e) (State.supply { State.create m with loadFault := some e } bytes)) ∧
    ∀ s, assemble p program (State.create m) = .ok s →
      (∀ r t, run m p program bytes k = .reported r t →
        r = .stopped t.cause t.pc ∧ t.stopped = true ∧ ∃ n, n ≤ k ∧ ReachesIn n (s.supply bytes) t) ∧
      (∀ t, run m p program bytes k = .waiting t →
        t.Running ∧ t.WaitsForInput ∧ ∃ n, n ≤ k ∧ ReachesIn n (s.supply bytes) t) ∧
      (∀ t, run m p program bytes k = .abandoned t → t.Running ∧ ReachesIn k (s.supply bytes) t) ∧
      (∀ t, run m p program bytes k ≠ .noStep t)

/-- If n steps lead from a state to a core that is stopped or waits for a byte, and n' steps lead from it to such a
core, then n = n' and the two are the same state: a waiting READ is no step, and a run has one length.
(70_reset_and_hazards.md section 6 (R203, R204, R205), 44_byte_io.md (R143)) -/
def Obligations.RunTakesAnExactNumberOfSteps : Prop :=
  ∀ (s t u : State) (n n' : Nat), ReachesIn n s t → ReachesIn n' s u →
    (t.stopped = true ∨ t.WaitsForInput) → (u.stopped = true ∨ u.WaitsForInput) → n = n' ∧ t = u
end

