-- ==== Sys2Proof/Laws/Decode.lean ====
section
/-! SUPPORT. The fields of a record put together from a header and three slots, the operands that slots give, and that a
decoded instruction is well formed. -/

namespace Sys2Proof

/-! ## Concatenation and slices -/

/-- The high part of a concatenation. -/
theorem concat_div {n a b : Nat} (h : b < 2 ^ n) : concat n a b / 2 ^ n = a := by
  rw [concat, Nat.add_comm, Nat.add_mul_div_right _ _ (by positivity), Nat.div_eq_of_lt h, Nat.zero_add]

/-- The low part of a concatenation. -/
theorem concat_mod {n a b : Nat} (h : b < 2 ^ n) : concat n a b % 2 ^ n = b := by
  rw [concat, Nat.mul_add_mod_self_right, Nat.mod_eq_of_lt h]

/-- A concatenation has the bits of its two parts. -/
theorem concat_lt {n k a b : Nat} (ha : a < 2 ^ k) (hb : b < 2 ^ n) : concat n a b < 2 ^ (k + n) := by
  have : (a + 1) * 2 ^ n ≤ 2 ^ k * 2 ^ n := Nat.mul_le_mul_right _ ha
  rw [pow_add, concat]
  linarith [Nat.succ_mul a (2 ^ n)]

/-- A slice that starts `n` bits higher is a slice of what is left without the low `n` bits. -/
theorem slice_add (v n lo k : Nat) : slice v (n + lo) k = slice (v / 2 ^ n) lo k := by
  rw [slice, slice, pow_add, Nat.div_div_eq_div_mul]

/-- A slice fits its width. -/
theorem slice_lt (v lo n : Nat) : slice v lo n < 2 ^ n := Nat.mod_lt _ (by positivity)

variable {p : Params}

/-- The slices of R64 undo the concatenation of R64. -/
theorem fieldsOf_mkRecord (h : Header) {v0 v1 v2 : Word} (h0 : v0 < 2 ^ p.xlen) (h1 : v1 < 2 ^ p.xlen)
    (h2 : v2 < 2 ^ p.xlen) :
    fieldsOf p (mkRecord p h v0 v1 v2) =
      ⟨h.extractLsb' 12 4, h.extractLsb' 9 3, h.extractLsb' 6 3, h.extractLsb' 3 3, h.extractLsb' 0 3, v0, v1, v2⟩ := by
  have high : ∀ lo k, slice (mkRecord p h v0 v1 v2) (3 * p.xlen + lo) k = slice h.toNat lo k := fun lo k => by
    rw [show 3 * p.xlen + lo = p.xlen + (p.xlen + (p.xlen + lo)) by omega, slice_add, slice_add, slice_add, mkRecord,
      concat_div h2, concat_div h1, concat_div h0]
  have field : ∀ lo n, BitVec.ofNat n (slice h.toNat lo n) = h.extractLsb' lo n := fun lo n => by
    apply BitVec.eq_of_toNat_eq
    simp [slice, Nat.shiftRight_eq_div_pow]
  have e0 : slice (mkRecord p h v0 v1 v2) (2 * p.xlen) p.xlen = v0 := by
    rw [show 2 * p.xlen = p.xlen + (p.xlen + 0) by omega, slice_add, slice_add, mkRecord, concat_div h2, concat_div h1]
    simp [slice, concat_mod h0]
  have e1 : slice (mkRecord p h v0 v1 v2) p.xlen p.xlen = v1 := by
    have := slice_add (mkRecord p h v0 v1 v2) p.xlen 0 p.xlen
    rw [Nat.add_zero] at this
    rw [this, mkRecord, concat_div h2]
    simp [slice, concat_mod h1]
  have e2 : slice (mkRecord p h v0 v1 v2) 0 p.xlen = v2 := by
    simp [slice, mkRecord, concat_mod h2]
  have low := high 0 3
  rw [Nat.add_zero] at low
  simp only [fieldsOf, e0, e1, e2, high, low, field]

/-- The record of a header and three words has ILEN bits. -/
theorem mkRecord_lt (h : Header) {v0 v1 v2 : Word} (h0 : v0 < 2 ^ p.xlen) (h1 : v1 < 2 ^ p.xlen) (h2 : v2 < 2 ^ p.xlen) :
    mkRecord p h v0 v1 v2 < 2 ^ p.ilen := by
  rw [show p.ilen = 16 + p.xlen + p.xlen + p.xlen by unfold Params.ilen; omega]
  exact concat_lt (concat_lt (concat_lt h.isLt h0) h1) h2

/-! ## Slots and operands -/

/-- The payload of an operand in range is a word. -/
theorem Operand.payload_lt (hp : p.Legal) {o : Operand} (h : o.inRange p = true) : o.payload < 2 ^ p.xlen := by
  cases o with
  | reg r => exact Nat.lt_of_lt_of_le (of_decide_eq_true h) hp.nreg_le
  | addr a => exact of_decide_eq_true h
  | const c => exact of_decide_eq_true h
  | char b => exact Nat.lt_of_lt_of_le b.isLt (Nat.pow_le_pow_right (by decide) hp.xlen_ge)

/-- Every slot of a well-formed instruction is a word. -/
theorem Instr.slot_lt (hp : p.Legal) {i : Instr} (h : i.wellFormed p = true) (n : Nat) : i.slot n < 2 ^ p.xlen := by
  unfold Instr.slot
  cases hn : i.operands[n]? with
  | none => exact Nat.two_pow_pos _
  | some o =>
    simp only [Instr.wellFormed, Bool.and_eq_true, List.all_eq_true] at h
    exact Operand.payload_lt hp (h.2 o (List.mem_of_getElem? hn))

/-- The fields of an encoded instruction: its header's, and its slots. -/
theorem fieldsOf_encode (hp : p.Legal) {i : Instr} (h : i.wellFormed p = true) :
    fieldsOf p (encode p i) =
      ⟨i.header.extractLsb' 12 4, i.header.extractLsb' 9 3, i.header.extractLsb' 6 3, i.header.extractLsb' 3 3,
        i.header.extractLsb' 0 3, i.slot 0, i.slot 1, i.slot 2⟩ :=
  fieldsOf_mkRecord _ (Instr.slot_lt hp h 0) (Instr.slot_lt hp h 1) (Instr.slot_lt hp h 2)

/-- An encoded instruction has ILEN bits. -/
theorem encode_lt (hp : p.Legal) {i : Instr} (h : i.wellFormed p = true) : encode p i < 2 ^ p.ilen :=
  mkRecord_lt _ (Instr.slot_lt hp h 0) (Instr.slot_lt hp h 1) (Instr.slot_lt hp h 2)

/-- A slot that holds the payload of an operand in range reads back as that operand. -/
@[simp] theorem slotOperand_reg {r : RegIdx} (h : r < p.nreg) : slotOperand p 1#3 r = .ok (some (.reg r)) := if_pos h
@[simp] theorem slotOperand_addr (v : Word) : slotOperand p 2#3 v = .ok (some (.addr v)) := rfl
@[simp] theorem slotOperand_const (v : Word) : slotOperand p 3#3 v = .ok (some (.const v)) := rfl
@[simp] theorem slotOperand_absent : slotOperand p 0#3 0 = .ok none := rfl
@[simp] theorem slotOperand_char (b : Byte) : slotOperand p 4#3 b.toNat = .ok (some (.char b)) := by
  have := b.isLt
  simp [slotOperand, this]

/-- Everything a slot can give: no operand, or an operand of the kind that its kind code names, in range where the slot
is a word, with the slot as its payload. -/
theorem slotOperand_ok {k : BitVec 3} {v : Word} {o : Option Operand} (h : slotOperand p k v = .ok o) :
    (k = 0 ∧ v = 0 ∧ o = none) ∨ (k = 1 ∧ v < p.nreg ∧ o = some (.reg v)) ∨ (k = 2 ∧ o = some (.addr v)) ∨
      (k = 3 ∧ o = some (.const v)) ∨ (∃ b : Byte, k = 4 ∧ v = b.toNat ∧ o = some (.char b)) := by
  have hk : ∀ n : Nat, k.toNat = n → k = BitVec.ofNat 3 n := fun n hn => by
    apply BitVec.eq_of_toNat_eq; simp [← hn]
  unfold slotOperand at h
  split at h
  · split_ifs at h with hv; cases h; exact .inl ⟨hk _ ‹_›, hv, rfl⟩
  · split_ifs at h with hv; cases h; exact .inr (.inl ⟨hk _ ‹_›, hv, rfl⟩)
  · cases h; exact .inr (.inr (.inl ⟨hk _ ‹_›, rfl⟩))
  · cases h; exact .inr (.inr (.inr (.inl ⟨hk _ ‹_›, rfl⟩)))
  · split_ifs at h with hv; cases h
    refine .inr (.inr (.inr (.inr ⟨_, hk _ ‹_›, ?_, rfl⟩)))
    exact (Nat.mod_eq_of_lt hv).symm
  · cases h

/-- An operand that a slot of one word gives is in range. -/
theorem slotOperand_inRange {k : BitVec 3} {v : Word} {o : Operand} (hv : v < 2 ^ p.xlen)
    (h : slotOperand p k v = .ok (some o)) : o.inRange p = true := by
  rcases slotOperand_ok h with ⟨_, _, h⟩ | ⟨_, hr, h⟩ | ⟨_, h⟩ | ⟨_, h⟩ | ⟨b, _, _, h⟩ <;> cases h
  · exact decide_eq_true hr
  · exact decide_eq_true hv
  · exact decide_eq_true hv
  · rfl

/-! ## Instructions -/

/-- The operand list that the three slots of an instruction give back is its operands'. -/
theorem ofOperands_operands (i : Instr) : Instr.ofOperands i.opcode i.operands = some i := by cases i <;> rfl

/-- An instruction made from an opcode and operands has that opcode and those operands. -/
theorem ofOperands_some {op : Opcode} {os : List Operand} {i : Instr} (h : Instr.ofOperands op os = some i) :
    op = i.opcode ∧ os = i.operands := by
  cases op <;> simp only [Instr.ofOperands] at h <;> split at h <;> simp at h <;> subst h <;> exact ⟨rfl, rfl⟩

/-- The opcode and operands of an instruction are a legal form (R63, R67). -/
theorem Instr.form_legal (i : Instr) : wellFormedOperands i.opcode i.operands = true := by cases i <;> rfl

/-- An instruction is well formed exactly when its payloads are in range. -/
theorem Instr.wellFormed_iff {i : Instr} : i.wellFormed p = true ↔ ∀ o ∈ i.operands, o.inRange p = true := by
  simp [Instr.wellFormed, Instr.form_legal]

/-- The operands of an operand list are those of the slots. -/
theorem operandList_mem {s0 s1 s2 : Option Operand} {os : List Operand} (h : operandList s0 s1 s2 = some os) :
    ∀ o ∈ os, s0 = some o ∨ s1 = some o ∨ s2 = some o := by
  unfold operandList at h
  split at h <;> simp at h <;> subst h <;> simp

/-- Everything a record that decodes to an instruction has: an opcode, zero reserved bits, and slots that give the
instruction's operands. -/
theorem decodeFields_instr {f : Fields} {i : Instr} (h : decodeFields p f = .instr i) :
    opcodeOf f.op = some i.opcode ∧ f.rsv = 0 ∧ ∃ s0 s1 s2, slotOperand p f.k0 f.v0 = .ok s0 ∧
      slotOperand p f.k1 f.v1 = .ok s1 ∧ slotOperand p f.k2 f.v2 = .ok s2 ∧
      operandList s0 s1 s2 = some i.operands := by
  unfold decodeFields at h
  by_cases h0 : f.op = 0
  · simp [h0] at h
  rw [if_neg h0] at h
  split at h
  · cases h
  · rename_i op hop
    by_cases hr : f.rsv = 0
    case neg => rw [if_neg hr] at h; cases h
    rw [if_pos hr] at h
    split at h
    · rename_i s0 s1 s2 e0 e1 e2
      unfold decodeSlots at h
      split at h
      · cases h
      · rename_i os hos
        split_ifs at h with hl
        split at h
        · rename_i j hj
          cases h
          obtain ⟨rfl, rfl⟩ := ofOperands_some hj
          exact ⟨hop, hr, s0, s1, s2, e0, e1, e2, hos⟩
        · cases h
    all_goals cases h

/-- A record that decodes to an instruction decodes to a well-formed one. -/
theorem decode_wellFormed {r : Record} {i : Instr} (h : decode p r = .instr i) : i.wellFormed p = true := by
  obtain ⟨_, _, s0, s1, s2, e0, e1, e2, hos⟩ := decodeFields_instr h
  refine Instr.wellFormed_iff.mpr fun o ho => ?_
  rcases operandList_mem hos o ho with rfl | rfl | rfl
  · exact slotOperand_inRange (slice_lt _ _ _) e0
  · exact slotOperand_inRange (slice_lt _ _ _) e1
  · exact slotOperand_inRange (slice_lt _ _ _) e2

end Sys2Proof
end

