-- ==== Sys2Proof/Laws/Exec.lean ====
section
/-! SUPPORT. For each instruction, the shared operation that its meaning is, so that no proof unfolds the dispatch. -/

namespace Sys2Proof.Machine

theorem exec_jumpR (target : RegIdx) (s : State) : exec (.jumpR target) s = jumpTo (.reg target) s := rfl
theorem exec_jumpA (target : Word) (s : State) : exec (.jumpA target) s = jumpTo (.addr target) s := rfl
theorem exec_condR (tested : RegIdx) (s : State) : exec (.condR tested) s = condOn (.reg tested) s := rfl
theorem exec_condC (tested : Word) (s : State) : exec (.condC tested) s = condOn (.const tested) s := rfl
theorem exec_condA (tested : Word) (s : State) : exec (.condA tested) s = condOn (.addr tested) s := rfl
theorem exec_moveRR (dest : RegIdx) (src : RegIdx) (s : State) : exec (.moveRR dest src) s = moveToReg dest (.reg src) s := rfl
theorem exec_moveRC (dest : RegIdx) (src : Word) (s : State) : exec (.moveRC dest src) s = moveToReg dest (.const src) s := rfl
theorem exec_moveRA (dest : RegIdx) (src : Word) (s : State) : exec (.moveRA dest src) s = moveToReg dest (.addr src) s := rfl
theorem exec_moveAR (dest : Word) (src : RegIdx) (s : State) : exec (.moveAR dest src) s = moveToCell dest (.reg src) s := rfl
theorem exec_moveAC (dest : Word) (src : Word) (s : State) : exec (.moveAC dest src) s = moveToCell dest (.const src) s := rfl
theorem exec_moveAA (dest : Word) (src : Word) (s : State) : exec (.moveAA dest src) s = moveToCell dest (.addr src) s := rfl
theorem exec_addRRR (dest : RegIdx) (a : RegIdx) (b : RegIdx) (s : State) : exec (.addRRR dest a b) s = addInto dest (.reg a) (.reg b) s := rfl
theorem exec_addRRC (dest : RegIdx) (a : RegIdx) (b : Word) (s : State) : exec (.addRRC dest a b) s = addInto dest (.reg a) (.const b) s := rfl
theorem exec_addRRA (dest : RegIdx) (a : RegIdx) (b : Word) (s : State) : exec (.addRRA dest a b) s = addInto dest (.reg a) (.addr b) s := rfl
theorem exec_addRCR (dest : RegIdx) (a : Word) (b : RegIdx) (s : State) : exec (.addRCR dest a b) s = addInto dest (.const a) (.reg b) s := rfl
theorem exec_addRCC (dest : RegIdx) (a : Word) (b : Word) (s : State) : exec (.addRCC dest a b) s = addInto dest (.const a) (.const b) s := rfl
theorem exec_addRCA (dest : RegIdx) (a : Word) (b : Word) (s : State) : exec (.addRCA dest a b) s = addInto dest (.const a) (.addr b) s := rfl
theorem exec_addRAR (dest : RegIdx) (a : Word) (b : RegIdx) (s : State) : exec (.addRAR dest a b) s = addInto dest (.addr a) (.reg b) s := rfl
theorem exec_addRAC (dest : RegIdx) (a : Word) (b : Word) (s : State) : exec (.addRAC dest a b) s = addInto dest (.addr a) (.const b) s := rfl
theorem exec_addRAA (dest : RegIdx) (a : Word) (b : Word) (s : State) : exec (.addRAA dest a b) s = addInto dest (.addr a) (.addr b) s := rfl
theorem exec_subRRR (dest : RegIdx) (a : RegIdx) (b : RegIdx) (s : State) : exec (.subRRR dest a b) s = subInto dest (.reg a) (.reg b) s := rfl
theorem exec_subRRC (dest : RegIdx) (a : RegIdx) (b : Word) (s : State) : exec (.subRRC dest a b) s = subInto dest (.reg a) (.const b) s := rfl
theorem exec_subRRA (dest : RegIdx) (a : RegIdx) (b : Word) (s : State) : exec (.subRRA dest a b) s = subInto dest (.reg a) (.addr b) s := rfl
theorem exec_subRCR (dest : RegIdx) (a : Word) (b : RegIdx) (s : State) : exec (.subRCR dest a b) s = subInto dest (.const a) (.reg b) s := rfl
theorem exec_subRCC (dest : RegIdx) (a : Word) (b : Word) (s : State) : exec (.subRCC dest a b) s = subInto dest (.const a) (.const b) s := rfl
theorem exec_subRCA (dest : RegIdx) (a : Word) (b : Word) (s : State) : exec (.subRCA dest a b) s = subInto dest (.const a) (.addr b) s := rfl
theorem exec_subRAR (dest : RegIdx) (a : Word) (b : RegIdx) (s : State) : exec (.subRAR dest a b) s = subInto dest (.addr a) (.reg b) s := rfl
theorem exec_subRAC (dest : RegIdx) (a : Word) (b : Word) (s : State) : exec (.subRAC dest a b) s = subInto dest (.addr a) (.const b) s := rfl
theorem exec_subRAA (dest : RegIdx) (a : Word) (b : Word) (s : State) : exec (.subRAA dest a b) s = subInto dest (.addr a) (.addr b) s := rfl
theorem exec_writeH (src : Byte) (s : State) : exec (.writeH src) s = writeByte (.char src) s := rfl
theorem exec_writeC (src : Word) (s : State) : exec (.writeC src) s = writeByte (.const src) s := rfl
theorem exec_writeR (src : RegIdx) (s : State) : exec (.writeR src) s = writeByte (.reg src) s := rfl
theorem exec_readR (dest : RegIdx) (s : State) : exec (.readR dest) s = readInto dest s := rfl
theorem exec_loadRR (dest : RegIdx) (addr : RegIdx) (s : State) : exec (.loadRR dest addr) s = loadInto dest (.reg addr) s := rfl
theorem exec_loadRC (dest : RegIdx) (addr : Word) (s : State) : exec (.loadRC dest addr) s = loadInto dest (.const addr) s := rfl
theorem exec_storeRR (addr : RegIdx) (value : RegIdx) (s : State) : exec (.storeRR addr value) s = storeAt (.reg addr) (.reg value) s := rfl
theorem exec_storeRC (addr : RegIdx) (value : Word) (s : State) : exec (.storeRC addr value) s = storeAt (.reg addr) (.const value) s := rfl
theorem exec_storeCR (addr : Word) (value : RegIdx) (s : State) : exec (.storeCR addr value) s = storeAt (.const addr) (.reg value) s := rfl
theorem exec_storeCC (addr : Word) (value : Word) (s : State) : exec (.storeCC addr value) s = storeAt (.const addr) (.const value) s := rfl
theorem exec_pushR (value : RegIdx) (s : State) : exec (.pushR value) s = pushValue (.reg value) s := rfl
theorem exec_pushC (value : Word) (s : State) : exec (.pushC value) s = pushValue (.const value) s := rfl
theorem exec_popR (dest : RegIdx) (s : State) : exec (.popR dest) s = popInto dest s := rfl
theorem exec_brk (s : State) : exec .brk s = breakStop s := rfl

end Sys2Proof.Machine
end

