-- ==== Sys2Proof/Laws/State.lean ====
section
/-! SUPPORT. One lemma per field and update of the state, and per derived view and update, each true by rfl. -/

namespace Sys2Proof.Machine

variable (s : State)

/-! ### setX -/

@[simp] theorem State.setX_params (i : RegIdx) (v : Word) : (s.setX i v).params = s.params := rfl
@[simp] theorem State.setX_regs (i : RegIdx) (v : Word) : (s.setX i v).regs = s.regs.set i v := rfl
@[simp] theorem State.setX_dmem (i : RegIdx) (v : Word) : (s.setX i v).dmem = s.dmem := rfl
@[simp] theorem State.setX_imem (i : RegIdx) (v : Word) : (s.setX i v).imem = s.imem := rfl
@[simp] theorem State.setX_ibound (i : RegIdx) (v : Word) : (s.setX i v).ibound = s.ibound := rfl
@[simp] theorem State.setX_stopped (i : RegIdx) (v : Word) : (s.setX i v).stopped = s.stopped := rfl
@[simp] theorem State.setX_cause (i : RegIdx) (v : Word) : (s.setX i v).cause = s.cause := rfl
@[simp] theorem State.setX_loadFault (i : RegIdx) (v : Word) : (s.setX i v).loadFault = s.loadFault := rfl
@[simp] theorem State.setX_input (i : RegIdx) (v : Word) : (s.setX i v).input = s.input := rfl
@[simp] theorem State.setX_output (i : RegIdx) (v : Word) : (s.setX i v).output = s.output := rfl
@[simp] theorem State.setX_pcIdx (i : RegIdx) (v : Word) : (s.setX i v).pcIdx = s.pcIdx := rfl
@[simp] theorem State.setX_spIdx (i : RegIdx) (v : Word) : (s.setX i v).spIdx = s.spIdx := rfl
@[simp] theorem State.setX_dataAt (i : RegIdx) (v : Word) (k : Nat) : (s.setX i v).dataAt k = s.dataAt k := rfl
@[simp] theorem State.setX_ifetch (i : RegIdx) (v : Word) (k : Nat) : (s.setX i v).ifetch k = s.ifetch k := rfl

/-! ### setPc -/

@[simp] theorem State.setPc_params (v : Word) : (s.setPc v).params = s.params := rfl
@[simp] theorem State.setPc_regs (v : Word) : (s.setPc v).regs = s.regs.set s.pcIdx v := rfl
@[simp] theorem State.setPc_dmem (v : Word) : (s.setPc v).dmem = s.dmem := rfl
@[simp] theorem State.setPc_imem (v : Word) : (s.setPc v).imem = s.imem := rfl
@[simp] theorem State.setPc_ibound (v : Word) : (s.setPc v).ibound = s.ibound := rfl
@[simp] theorem State.setPc_stopped (v : Word) : (s.setPc v).stopped = s.stopped := rfl
@[simp] theorem State.setPc_cause (v : Word) : (s.setPc v).cause = s.cause := rfl
@[simp] theorem State.setPc_loadFault (v : Word) : (s.setPc v).loadFault = s.loadFault := rfl
@[simp] theorem State.setPc_input (v : Word) : (s.setPc v).input = s.input := rfl
@[simp] theorem State.setPc_output (v : Word) : (s.setPc v).output = s.output := rfl
@[simp] theorem State.setPc_pcIdx (v : Word) : (s.setPc v).pcIdx = s.pcIdx := rfl
@[simp] theorem State.setPc_spIdx (v : Word) : (s.setPc v).spIdx = s.spIdx := rfl
@[simp] theorem State.setPc_dataAt (v : Word) (k : Nat) : (s.setPc v).dataAt k = s.dataAt k := rfl
@[simp] theorem State.setPc_ifetch (v : Word) (k : Nat) : (s.setPc v).ifetch k = s.ifetch k := rfl

/-! ### setSp -/

@[simp] theorem State.setSp_params (v : Word) : (s.setSp v).params = s.params := rfl
@[simp] theorem State.setSp_regs (v : Word) : (s.setSp v).regs = s.regs.set s.spIdx v := rfl
@[simp] theorem State.setSp_dmem (v : Word) : (s.setSp v).dmem = s.dmem := rfl
@[simp] theorem State.setSp_imem (v : Word) : (s.setSp v).imem = s.imem := rfl
@[simp] theorem State.setSp_ibound (v : Word) : (s.setSp v).ibound = s.ibound := rfl
@[simp] theorem State.setSp_stopped (v : Word) : (s.setSp v).stopped = s.stopped := rfl
@[simp] theorem State.setSp_cause (v : Word) : (s.setSp v).cause = s.cause := rfl
@[simp] theorem State.setSp_loadFault (v : Word) : (s.setSp v).loadFault = s.loadFault := rfl
@[simp] theorem State.setSp_input (v : Word) : (s.setSp v).input = s.input := rfl
@[simp] theorem State.setSp_output (v : Word) : (s.setSp v).output = s.output := rfl
@[simp] theorem State.setSp_pcIdx (v : Word) : (s.setSp v).pcIdx = s.pcIdx := rfl
@[simp] theorem State.setSp_spIdx (v : Word) : (s.setSp v).spIdx = s.spIdx := rfl
@[simp] theorem State.setSp_dataAt (v : Word) (k : Nat) : (s.setSp v).dataAt k = s.dataAt k := rfl
@[simp] theorem State.setSp_ifetch (v : Word) (k : Nat) : (s.setSp v).ifetch k = s.ifetch k := rfl

/-! ### advancePc -/

@[simp] theorem State.advancePc_params : (s.advancePc).params = s.params := rfl
@[simp] theorem State.advancePc_regs : (s.advancePc).regs = s.regs.set s.pcIdx (aluAdd s.params s.pc 1) := rfl
@[simp] theorem State.advancePc_dmem : (s.advancePc).dmem = s.dmem := rfl
@[simp] theorem State.advancePc_imem : (s.advancePc).imem = s.imem := rfl
@[simp] theorem State.advancePc_ibound : (s.advancePc).ibound = s.ibound := rfl
@[simp] theorem State.advancePc_stopped : (s.advancePc).stopped = s.stopped := rfl
@[simp] theorem State.advancePc_cause : (s.advancePc).cause = s.cause := rfl
@[simp] theorem State.advancePc_loadFault : (s.advancePc).loadFault = s.loadFault := rfl
@[simp] theorem State.advancePc_input : (s.advancePc).input = s.input := rfl
@[simp] theorem State.advancePc_output : (s.advancePc).output = s.output := rfl
@[simp] theorem State.advancePc_pcIdx : (s.advancePc).pcIdx = s.pcIdx := rfl
@[simp] theorem State.advancePc_spIdx : (s.advancePc).spIdx = s.spIdx := rfl
@[simp] theorem State.advancePc_dataAt (k : Nat) : (s.advancePc).dataAt k = s.dataAt k := rfl
@[simp] theorem State.advancePc_ifetch (k : Nat) : (s.advancePc).ifetch k = s.ifetch k := rfl

/-! ### setData -/

@[simp] theorem State.setData_params (a : Nat) (v : Word) : (s.setData a v).params = s.params := rfl
@[simp] theorem State.setData_regs (a : Nat) (v : Word) : (s.setData a v).regs = s.regs := rfl
@[simp] theorem State.setData_dmem (a : Nat) (v : Word) : (s.setData a v).dmem = s.dmem.write a v := rfl
@[simp] theorem State.setData_imem (a : Nat) (v : Word) : (s.setData a v).imem = s.imem := rfl
@[simp] theorem State.setData_ibound (a : Nat) (v : Word) : (s.setData a v).ibound = s.ibound := rfl
@[simp] theorem State.setData_stopped (a : Nat) (v : Word) : (s.setData a v).stopped = s.stopped := rfl
@[simp] theorem State.setData_cause (a : Nat) (v : Word) : (s.setData a v).cause = s.cause := rfl
@[simp] theorem State.setData_loadFault (a : Nat) (v : Word) : (s.setData a v).loadFault = s.loadFault := rfl
@[simp] theorem State.setData_input (a : Nat) (v : Word) : (s.setData a v).input = s.input := rfl
@[simp] theorem State.setData_output (a : Nat) (v : Word) : (s.setData a v).output = s.output := rfl
@[simp] theorem State.setData_pcIdx (a : Nat) (v : Word) : (s.setData a v).pcIdx = s.pcIdx := rfl
@[simp] theorem State.setData_spIdx (a : Nat) (v : Word) : (s.setData a v).spIdx = s.spIdx := rfl
@[simp] theorem State.setData_x (a : Nat) (v : Word) (j : RegIdx) : (s.setData a v).x j = s.x j := rfl
@[simp] theorem State.setData_pc (a : Nat) (v : Word) : (s.setData a v).pc = s.pc := rfl
@[simp] theorem State.setData_sp (a : Nat) (v : Word) : (s.setData a v).sp = s.sp := rfl
@[simp] theorem State.setData_belowSp (a : Nat) (v : Word) : (s.setData a v).belowSp = s.belowSp := rfl
@[simp] theorem State.setData_ifetch (a : Nat) (v : Word) (k : Nat) : (s.setData a v).ifetch k = s.ifetch k := rfl

/-! ### emit -/

@[simp] theorem State.emit_params (b : Byte) : (s.emit b).params = s.params := rfl
@[simp] theorem State.emit_regs (b : Byte) : (s.emit b).regs = s.regs := rfl
@[simp] theorem State.emit_dmem (b : Byte) : (s.emit b).dmem = s.dmem := rfl
@[simp] theorem State.emit_imem (b : Byte) : (s.emit b).imem = s.imem := rfl
@[simp] theorem State.emit_ibound (b : Byte) : (s.emit b).ibound = s.ibound := rfl
@[simp] theorem State.emit_stopped (b : Byte) : (s.emit b).stopped = s.stopped := rfl
@[simp] theorem State.emit_cause (b : Byte) : (s.emit b).cause = s.cause := rfl
@[simp] theorem State.emit_loadFault (b : Byte) : (s.emit b).loadFault = s.loadFault := rfl
@[simp] theorem State.emit_input (b : Byte) : (s.emit b).input = s.input := rfl
@[simp] theorem State.emit_output (b : Byte) : (s.emit b).output = s.output ++ [b] := rfl
@[simp] theorem State.emit_pcIdx (b : Byte) : (s.emit b).pcIdx = s.pcIdx := rfl
@[simp] theorem State.emit_spIdx (b : Byte) : (s.emit b).spIdx = s.spIdx := rfl
@[simp] theorem State.emit_x (b : Byte) (j : RegIdx) : (s.emit b).x j = s.x j := rfl
@[simp] theorem State.emit_pc (b : Byte) : (s.emit b).pc = s.pc := rfl
@[simp] theorem State.emit_sp (b : Byte) : (s.emit b).sp = s.sp := rfl
@[simp] theorem State.emit_belowSp (b : Byte) : (s.emit b).belowSp = s.belowSp := rfl
@[simp] theorem State.emit_dataAt (b : Byte) (k : Nat) : (s.emit b).dataAt k = s.dataAt k := rfl
@[simp] theorem State.emit_ifetch (b : Byte) (k : Nat) : (s.emit b).ifetch k = s.ifetch k := rfl

/-! ### stopWith -/

@[simp] theorem State.stopWith_params (e : Cause) : (s.stopWith e).params = s.params := rfl
@[simp] theorem State.stopWith_regs (e : Cause) : (s.stopWith e).regs = s.regs := rfl
@[simp] theorem State.stopWith_dmem (e : Cause) : (s.stopWith e).dmem = s.dmem := rfl
@[simp] theorem State.stopWith_imem (e : Cause) : (s.stopWith e).imem = s.imem := rfl
@[simp] theorem State.stopWith_ibound (e : Cause) : (s.stopWith e).ibound = s.ibound := rfl
@[simp] theorem State.stopWith_stopped (e : Cause) : (s.stopWith e).stopped = true := rfl
@[simp] theorem State.stopWith_cause (e : Cause) : (s.stopWith e).cause = e := rfl
@[simp] theorem State.stopWith_loadFault (e : Cause) : (s.stopWith e).loadFault = s.loadFault := rfl
@[simp] theorem State.stopWith_input (e : Cause) : (s.stopWith e).input = s.input := rfl
@[simp] theorem State.stopWith_output (e : Cause) : (s.stopWith e).output = s.output := rfl
@[simp] theorem State.stopWith_pcIdx (e : Cause) : (s.stopWith e).pcIdx = s.pcIdx := rfl
@[simp] theorem State.stopWith_spIdx (e : Cause) : (s.stopWith e).spIdx = s.spIdx := rfl
@[simp] theorem State.stopWith_x (e : Cause) (j : RegIdx) : (s.stopWith e).x j = s.x j := rfl
@[simp] theorem State.stopWith_pc (e : Cause) : (s.stopWith e).pc = s.pc := rfl
@[simp] theorem State.stopWith_sp (e : Cause) : (s.stopWith e).sp = s.sp := rfl
@[simp] theorem State.stopWith_belowSp (e : Cause) : (s.stopWith e).belowSp = s.belowSp := rfl
@[simp] theorem State.stopWith_dataAt (e : Cause) (k : Nat) : (s.stopWith e).dataAt k = s.dataAt k := rfl
@[simp] theorem State.stopWith_ifetch (e : Cause) (k : Nat) : (s.stopWith e).ifetch k = s.ifetch k := rfl

/-! ### placeNext -/

@[simp] theorem State.placeNext_params (r : Record) : (s.placeNext r).params = s.params := rfl
@[simp] theorem State.placeNext_regs (r : Record) : (s.placeNext r).regs = s.regs := rfl
@[simp] theorem State.placeNext_dmem (r : Record) : (s.placeNext r).dmem = s.dmem := rfl
@[simp] theorem State.placeNext_imem (r : Record) : (s.placeNext r).imem = s.imem.write s.pc r := rfl
@[simp] theorem State.placeNext_ibound (r : Record) : (s.placeNext r).ibound = max s.ibound (s.pc + 1) := rfl
@[simp] theorem State.placeNext_stopped (r : Record) : (s.placeNext r).stopped = s.stopped := rfl
@[simp] theorem State.placeNext_cause (r : Record) : (s.placeNext r).cause = s.cause := rfl
@[simp] theorem State.placeNext_loadFault (r : Record) : (s.placeNext r).loadFault = s.loadFault := rfl
@[simp] theorem State.placeNext_input (r : Record) : (s.placeNext r).input = s.input := rfl
@[simp] theorem State.placeNext_output (r : Record) : (s.placeNext r).output = s.output := rfl
@[simp] theorem State.placeNext_pcIdx (r : Record) : (s.placeNext r).pcIdx = s.pcIdx := rfl
@[simp] theorem State.placeNext_spIdx (r : Record) : (s.placeNext r).spIdx = s.spIdx := rfl
@[simp] theorem State.placeNext_x (r : Record) (j : RegIdx) : (s.placeNext r).x j = s.x j := rfl
@[simp] theorem State.placeNext_pc (r : Record) : (s.placeNext r).pc = s.pc := rfl
@[simp] theorem State.placeNext_sp (r : Record) : (s.placeNext r).sp = s.sp := rfl
@[simp] theorem State.placeNext_belowSp (r : Record) : (s.placeNext r).belowSp = s.belowSp := rfl
@[simp] theorem State.placeNext_dataAt (r : Record) (k : Nat) : (s.placeNext r).dataAt k = s.dataAt k := rfl

/-! ### supply -/

@[simp] theorem State.supply_params (bytes : List Byte) : (s.supply bytes).params = s.params := rfl
@[simp] theorem State.supply_regs (bytes : List Byte) : (s.supply bytes).regs = s.regs := rfl
@[simp] theorem State.supply_dmem (bytes : List Byte) : (s.supply bytes).dmem = s.dmem := rfl
@[simp] theorem State.supply_imem (bytes : List Byte) : (s.supply bytes).imem = s.imem := rfl
@[simp] theorem State.supply_ibound (bytes : List Byte) : (s.supply bytes).ibound = s.ibound := rfl
@[simp] theorem State.supply_stopped (bytes : List Byte) : (s.supply bytes).stopped = s.stopped := rfl
@[simp] theorem State.supply_cause (bytes : List Byte) : (s.supply bytes).cause = s.cause := rfl
@[simp] theorem State.supply_loadFault (bytes : List Byte) : (s.supply bytes).loadFault = s.loadFault := rfl
@[simp] theorem State.supply_input (bytes : List Byte) : (s.supply bytes).input = s.input ++ bytes := rfl
@[simp] theorem State.supply_output (bytes : List Byte) : (s.supply bytes).output = s.output := rfl
@[simp] theorem State.supply_pcIdx (bytes : List Byte) : (s.supply bytes).pcIdx = s.pcIdx := rfl
@[simp] theorem State.supply_spIdx (bytes : List Byte) : (s.supply bytes).spIdx = s.spIdx := rfl
@[simp] theorem State.supply_x (bytes : List Byte) (j : RegIdx) : (s.supply bytes).x j = s.x j := rfl
@[simp] theorem State.supply_pc (bytes : List Byte) : (s.supply bytes).pc = s.pc := rfl
@[simp] theorem State.supply_sp (bytes : List Byte) : (s.supply bytes).sp = s.sp := rfl
@[simp] theorem State.supply_belowSp (bytes : List Byte) : (s.supply bytes).belowSp = s.belowSp := rfl
@[simp] theorem State.supply_dataAt (bytes : List Byte) (k : Nat) : (s.supply bytes).dataAt k = s.dataAt k := rfl
@[simp] theorem State.supply_ifetch (bytes : List Byte) (k : Nat) : (s.supply bytes).ifetch k = s.ifetch k := rfl

end Sys2Proof.Machine
end

