-- ==== Sys2Proof/Laws/Ops.lean ====
section
/-! SUPPORT. What each shared operation does, said once: stores, registers, access primitives, exceptions. -/

namespace Sys2Proof.Machine

/-! ## Stores -/

/-- Every entry of a canonical store's tail lies above its head. -/
theorem Store.wf_cons {a v : Nat} {m : Store} :
    Store.wf ((a, v) :: m) = true ↔ v ≠ 0 ∧ (∀ e ∈ m, a < e.1) ∧ Store.wf m = true := by
  simp [Store.wf, and_assoc]

/-- A cell with no entry holds 0. -/
theorem Store.read_unlisted {m : Store} {k : Nat} (h : ∀ e ∈ m, e.1 ≠ k) : Store.read m k = 0 := by
  induction m with
  | nil => rfl
  | cons e m ih =>
    have he : e.1 ≠ k := h e (by simp)
    simp only [Store.read, he, if_false]
    exact ih fun d hd => h d (by simp [hd])

/-- A cell at or below the head of a canonical store is not listed in its tail. -/
theorem Store.read_tail {a k v : Nat} {m : Store} (h : Store.wf ((a, v) :: m) = true) (hk : k ≤ a) :
    Store.read m k = 0 :=
  Store.read_unlisted fun e he => by have := (Store.wf_cons.mp h).2.1 e he; omega

/-- Read after write: the written cell holds the value, every other cell what it held. -/
theorem Store.read_write {m : Store} (hm : Store.wf m = true) (k j v : Nat) :
    Store.read (Store.write m k v) j = if j = k then v else Store.read m j := by
  induction m with
  | nil => unfold Store.write; split_ifs <;> simp_all [Store.read]; exact fun h => absurd h.symm ‹_›
  | cons e m ih =>
    obtain ⟨a, u⟩ := e
    have ht := Store.wf_cons.mp hm
    have hz := Store.read_tail (k := j) hm
    unfold Store.write
    split_ifs <;> grind [Store.read]

/-- The entries of a store after a write: the new one, and old ones. -/
theorem Store.mem_write {m : Store} {k v : Nat} {e : Nat × Nat} (h : e ∈ Store.write m k v) : e = (k, v) ∨ e ∈ m := by
  induction m with
  | nil => unfold Store.write at h; split_ifs at h <;> simp_all
  | cons d m ih =>
    unfold Store.write at h
    split_ifs at h <;> grind

/-- What a cell holds is 0 or listed for it. -/
theorem Store.read_mem (m : Store) (k : Nat) : Store.read m k = 0 ∨ (k, Store.read m k) ∈ m := by
  induction m with
  | nil => exact .inl rfl
  | cons e m ih =>
    obtain ⟨a, v⟩ := e
    unfold Store.read
    split_ifs with h
    · subst h; exact .inr List.mem_cons_self
    · exact ih.imp id (List.mem_cons_of_mem _)

/-- A write keeps the canonical form. -/
theorem Store.wf_write {m : Store} (hm : Store.wf m = true) (k v : Nat) :
    Store.wf (Store.write m k v) = true := by
  induction m with
  | nil => unfold Store.write; split_ifs <;> simp_all [Store.wf]
  | cons e m ih =>
    obtain ⟨a, u⟩ := e
    obtain ⟨hu, hlt, hm'⟩ := Store.wf_cons.mp hm
    unfold Store.write
    split_ifs with h1 h2 h2 h3
    · exact hm
    · refine Store.wf_cons.mpr ⟨h2, fun e he => ?_, hm⟩
      rcases List.mem_cons.mp he with rfl | he
      · exact h1
      · exact Nat.lt_trans h1 (hlt e he)
    · exact hm'
    · subst h2; exact Store.wf_cons.mpr ⟨h3, hlt, hm'⟩
    · refine Store.wf_cons.mpr ⟨hu, fun e he => ?_, ih hm'⟩
      rcases Store.mem_write he with h | h
      · rw [h]; show a < k; omega
      · exact hlt e h

/-- The data store of the machine after reset, and its code, are in canonical form. -/
theorem reset_stores_wf : Store.wf State.reset.dmem = true ∧ Store.wf State.reset.imem = true := ⟨rfl, rfl⟩

/-! ## Registers -/

variable (s : State)

/-- PC_IDX and SP_IDX are registers, and different ones (R22). -/
theorem pcIdx_lt {p : Params} (h : 2 ≤ p.nreg) : p.pcIdx < p.nreg := by
  unfold Params.pcIdx; split <;> lia

theorem spIdx_lt {p : Params} (h : 2 ≤ p.nreg) : p.spIdx < p.nreg := by
  unfold Params.spIdx; split <;> lia

theorem pcIdx_ne_spIdx {p : Params} (h : 2 ≤ p.nreg) : p.pcIdx ≠ p.spIdx := by
  unfold Params.pcIdx Params.spIdx; split <;> lia

/-- A register after a register write. -/
theorem State.setX_x {i : RegIdx} (h : i < s.regs.length) (j : RegIdx) (v : Word) :
    (s.setX i v).x j = if j = i then v else s.x j := by
  simp only [State.x, State.setX, List.getD_eq_getElem?_getD, List.getElem?_set]
  by_cases hj : j = i
  · subst hj; simp [h]
  · simp [hj, Ne.symm hj]

/-- A write to no register changes nothing. -/
theorem State.setX_of_ge {i : RegIdx} (h : s.regs.length ≤ i) (v : Word) : s.setX i v = s := by
  simp [State.setX, List.set_eq_of_length_le h]

/-- Two register files of one length with the same reads are the same. -/
theorem State.regs_ext {s t : State} (hl : t.regs.length = s.regs.length) (h : ∀ j, t.x j = s.x j) :
    t.regs = s.regs := by
  apply List.ext_getElem hl
  intro i h1 h2
  have := h i
  simpa [State.x, List.getD_eq_getElem?_getD, h1, h2] using this

/-! ## Arithmetic -/

/-- The arithmetic unit answers words. -/
theorem aluAdd_lt (p : Params) (a b : Word) : aluAdd p a b < 2 ^ p.xlen := Nat.mod_lt _ (by positivity)

theorem aluSub_lt (p : Params) (a b : Word) : aluSub p a b < 2 ^ p.xlen := Nat.mod_lt _ (by positivity)

/-- The sum of two words, by cases. -/
theorem aluAdd_eq {p : Params} {a b : Word} (ha : a < 2 ^ p.xlen) (hb : b < 2 ^ p.xlen) :
    aluAdd p a b = if a + b < 2 ^ p.xlen then a + b else a + b - 2 ^ p.xlen := by
  unfold aluAdd
  split_ifs with h
  · exact Nat.mod_eq_of_lt h
  · rw [Nat.mod_eq_sub_mod (by lia), Nat.mod_eq_of_lt (by lia)]

/-- The difference of two words, by cases. -/
theorem aluSub_eq {p : Params} {a b : Word} (ha : a < 2 ^ p.xlen) (hb : b < 2 ^ p.xlen) :
    aluSub p a b = if a < b then a + 2 ^ p.xlen - b else a - b := by
  unfold aluSub
  split_ifs with h
  · exact Nat.mod_eq_of_lt (by lia)
  · rw [Nat.mod_eq_sub_mod (by lia), Nat.mod_eq_of_lt (by lia)]; lia

/-! ## Access primitives -/

/-- The three predicates as the spec writes them (R44, R45). -/
theorem State.execValid_iff (a : Nat) : s.execValid a = true ↔ a < s.ibound := by simp [State.execValid]

theorem State.readValid_iff (a r : Nat) : s.readValid a r = true ↔ s.ibound ≤ a ∧ a + r < s.params.capacity := by
  simp [State.readValid]

theorem State.writeValid_iff (a r : Nat) : s.writeValid a r = true ↔ s.ibound ≤ a ∧ a + r < s.params.capacity := by
  simp [State.writeValid]

/-- Everything MemRead can answer. -/
theorem State.memRead_eq (a : Word) :
    s.memRead a = if s.ibound ≤ a ∧ a < s.params.capacity then .ok (s.dataAt a)
      else .error .accessViolation := by
  simp [State.memRead, State.readValid]

/-- Everything the write check can answer. -/
theorem State.checkWrite_eq (a : Word) :
    s.checkWrite a = if s.ibound ≤ a ∧ a < s.params.capacity then .ok () else .error .accessViolation := by
  simp [State.checkWrite, State.writeValid]

/-- Everything MemWrite can answer. -/
theorem State.memWrite_eq (a v : Word) :
    s.memWrite a v = if s.ibound ≤ a ∧ a < s.params.capacity then .ok (s.setData a v)
      else .error .accessViolation := by
  simp only [State.memWrite, State.checkWrite_eq]
  split_ifs <;> rfl

/-- The data cells after a cell is replaced. -/
theorem State.setData_dataAt (hm : Store.wf s.dmem = true) (a k : Nat) (v : Word) :
    (s.setData a v).dataAt k = if k = a then v else s.dataAt k := Store.read_write hm a k v

/-- A source operand that is no Address always has a value. -/
@[simp] theorem State.srcVal_reg (r : RegIdx) : s.srcVal (.reg r) = .ok (s.x r) := rfl
@[simp] theorem State.srcVal_const (c : Word) : s.srcVal (.const c) = .ok c := rfl
@[simp] theorem State.srcVal_char (b : Byte) : s.srcVal (.char b) = .ok (zextByte b) := rfl
@[simp] theorem State.srcVal_addr (a : Word) : s.srcVal (.addr a) = s.memRead a := rfl

/-- The only exception of operand resolution is AccessViolation. -/
theorem State.srcVal_error {s : State} {o : Operand} {e : Cause} (h : s.srcVal o = .error e) :
    e = .accessViolation := by
  cases o <;> simp [State.memRead_eq] at h
  split_ifs at h; simp_all

@[simp] theorem State.addrOf_reg (r : RegIdx) : s.addrOf (.reg r) = s.x r := rfl
@[simp] theorem State.addrOf_const (c : Word) : s.addrOf (.const c) = c := rfl
@[simp] theorem State.addrOf_addr (a : Word) : s.addrOf (.addr a) = a := rfl

/-! ## Exceptions -/

/-- `raise` in a running core. -/
theorem raise_running {s : State} (h : s.stopped = false) (e : Cause) : raise e s = .next (s.stopWith e) := by
  simp [raise, h]

/-- Everything `raise` can do when it answers a next state. -/
theorem raise_next {e : Cause} {s t : State} (h : raise e s = .next t) : s.stopped = false ∧ t = s.stopWith e := by
  unfold raise at h
  split at h
  · cases h
  · rename_i hs; cases h; exact ⟨by simpa using hs, rfl⟩

/-- `recordLoadFault` on a slot that is not set, and on one that is. -/
theorem recordLoadFault_unset {s : State} (h : s.loadFault = none) (e : LoadFault) :
    recordLoadFault e s = .next { s with loadFault := some e } := by
  simp [recordLoadFault, h]

theorem recordLoadFault_set {s : State} (h : s.loadFault ≠ none) (e : LoadFault) :
    recordLoadFault e s = .fault .loadFaultAlreadySet := by
  simp [recordLoadFault, Option.isSome_iff_ne_none, h]

@[simp] theorem onOk_ok {α : Type} (v : α) (s : State) (k : α → Result) : onOk (.ok v) s k = k v := rfl
@[simp] theorem onOk_error {α : Type} (e : Cause) (s : State) (k : α → Result) : onOk (.error e) s k = raise e s := rfl

/-- Everything `onOk` can do when it answers a next state: it went on with a value, or raised. -/
theorem onOk_next {α : Type} {r : Except Cause α} {s t : State} {k : α → Result} (h : onOk r s k = .next t) :
    (∃ v, r = .ok v ∧ k v = .next t) ∨ (∃ e, r = .error e ∧ s.stopped = false ∧ t = s.stopWith e) := by
  cases r with
  | ok v => exact .inl ⟨v, rfl, h⟩
  | error e => exact .inr ⟨e, rfl, raise_next h⟩

/-- Everything `Receive` can answer. -/
theorem State.receive_eq : s.receive =
    match s.input with
    | [] => none
    | b :: rest => some (b, { s with input := rest }) := rfl

end Sys2Proof.Machine
end

