-- ==== Sys2Proof/Laws/Meanings.lean ====
section
/-! SUPPORT. The access primitives in terms of data cells, and what each shared meaning can do, said once: if it answers
next t, then one of these cases holds. -/

namespace Sys2Proof.Machine

variable {s t : State}

/-! ## Accesses in terms of data cells -/

theorem State.memRead_of_dataCell {a : Word} (h : s.DataCell a) : s.memRead a = .ok (s.dataAt a) := by
  rw [State.memRead_eq]; exact if_pos h

theorem State.memRead_of_not_dataCell {a : Word} (h : ¬ s.DataCell a) :
    s.memRead a = .error .accessViolation := by
  rw [State.memRead_eq]; exact if_neg h

theorem State.checkWrite_of_dataCell {a : Word} (h : s.DataCell a) : s.checkWrite a = .ok () := by
  rw [State.checkWrite_eq]; exact if_pos h

theorem State.checkWrite_of_not_dataCell {a : Word} (h : ¬ s.DataCell a) :
    s.checkWrite a = .error .accessViolation := by
  rw [State.checkWrite_eq]; exact if_neg h

theorem State.memWrite_of_dataCell {a v : Word} (h : s.DataCell a) :
    s.memWrite a v = .ok (s.setData a v) := by
  rw [State.memWrite_eq]; exact if_pos h

theorem State.memWrite_of_not_dataCell {a v : Word} (h : ¬ s.DataCell a) :
    s.memWrite a v = .error .accessViolation := by
  rw [State.memWrite_eq]; exact if_neg h

/-- A write that is not refused was to a data cell. -/
theorem State.checkWrite_ok {a : Word} {u : Unit} (h : s.checkWrite a = .ok u) : s.DataCell a := by
  by_contra hc; rw [State.checkWrite_of_not_dataCell hc] at h; cases h

theorem State.memWrite_ok {a v : Word} (h : s.memWrite a v = .ok t) :
    s.DataCell a ∧ t = s.setData a v := by
  by_cases hc : s.DataCell a
  · rw [State.memWrite_of_dataCell hc] at h; cases h; exact ⟨hc, rfl⟩
  · rw [State.memWrite_of_not_dataCell hc] at h; cases h

/-! ## The shared meanings -/

/-- What an instruction that raised `e` leaves. -/
def Raised (s t : State) (e : Cause) : Prop := s.stopped = false ∧ t = s.stopWith e

theorem jumpTo_next {o : Operand} (h : jumpTo o s = .next t) :
    (s.addrOf o < s.ibound ∧ t = s.setPc (s.addrOf o)) ∨
      (¬ s.addrOf o < s.ibound ∧ Raised s t .invalidInstruction) := by
  unfold jumpTo at h
  split_ifs at h with hv
  · cases h; exact .inl ⟨(s.execValid_iff _).mp hv, rfl⟩
  · exact .inr ⟨fun hc => hv ((s.execValid_iff _).mpr hc), raise_next h⟩

theorem condOn_next {o : Operand} (h : condOn o s = .next t) :
    (∃ v, s.srcVal o = .ok v ∧ t = if v ≠ 0 then s.advancePc.advancePc else s.advancePc) ∨
      (∃ e, s.srcVal o = .error e ∧ Raised s t e) := by
  rcases onOk_next h with ⟨v, hv, ht⟩ | he
  · cases ht; exact .inl ⟨v, hv, rfl⟩
  · exact .inr he

theorem moveToReg_next {d : RegIdx} {o : Operand} (h : moveToReg d o s = .next t) :
    (∃ v, s.srcVal o = .ok v ∧ t = (s.setX d v).advancePc) ∨ (∃ e, s.srcVal o = .error e ∧ Raised s t e) := by
  rcases onOk_next h with ⟨v, hv, ht⟩ | he
  · cases ht; exact .inl ⟨v, hv, rfl⟩
  · exact .inr he

theorem moveToCell_next {d : Word} {o : Operand} (h : moveToCell d o s = .next t) :
    (∃ v, s.srcVal o = .ok v ∧ s.DataCell d ∧ t = (s.setData d v).advancePc) ∨ (∃ e, Raised s t e) := by
  rcases onOk_next h with ⟨v, hv, ht⟩ | ⟨e, _, he⟩
  · rcases onOk_next ht with ⟨u, hu, hn⟩ | ⟨e, _, he⟩
    · cases hn; obtain ⟨hc, rfl⟩ := State.memWrite_ok hu; exact .inl ⟨v, hv, hc, rfl⟩
    · exact .inr ⟨e, he⟩
  · exact .inr ⟨e, he⟩

theorem addInto_next {d : RegIdx} {a b : Operand} (h : addInto d a b s = .next t) :
    (∃ va vb, s.srcVal a = .ok va ∧ s.srcVal b = .ok vb ∧ t = (s.setX d (aluAdd s.params va vb)).advancePc) ∨
      (∃ e, Raised s t e) := by
  rcases onOk_next h with ⟨va, ha, ht⟩ | ⟨e, _, he⟩
  · rcases onOk_next ht with ⟨vb, hb, hn⟩ | ⟨e, _, he⟩
    · cases hn; exact .inl ⟨va, vb, ha, hb, rfl⟩
    · exact .inr ⟨e, he⟩
  · exact .inr ⟨e, he⟩

theorem subInto_next {d : RegIdx} {a b : Operand} (h : subInto d a b s = .next t) :
    (∃ va vb, s.srcVal a = .ok va ∧ s.srcVal b = .ok vb ∧ t = (s.setX d (aluSub s.params va vb)).advancePc) ∨
      (∃ e, Raised s t e) := by
  rcases onOk_next h with ⟨va, ha, ht⟩ | ⟨e, _, he⟩
  · rcases onOk_next ht with ⟨vb, hb, hn⟩ | ⟨e, _, he⟩
    · cases hn; exact .inl ⟨va, vb, ha, hb, rfl⟩
    · exact .inr ⟨e, he⟩
  · exact .inr ⟨e, he⟩

theorem writeByte_next {o : Operand} (h : writeByte o s = .next t) :
    (∃ v, s.srcVal o = .ok v ∧ t = (s.emit (truncByte v)).advancePc) ∨ (∃ e, s.srcVal o = .error e ∧ Raised s t e) := by
  rcases onOk_next h with ⟨v, hv, ht⟩ | he
  · cases ht; exact .inl ⟨v, hv, rfl⟩
  · exact .inr he

theorem readInto_next {d : RegIdx} (h : readInto d s = .next t) :
    ∃ b rest, s.input = b :: rest ∧ t = (State.setX { s with input := rest } d (zextByte b)).advancePc := by
  unfold readInto State.receive at h
  cases hi : s.input with
  | nil => rw [hi] at h; cases h
  | cons b rest => rw [hi] at h; cases h; exact ⟨b, rest, rfl, rfl⟩

/-- A READ with no byte available is not enabled. -/
theorem readInto_waits (d : RegIdx) (h : s.input = []) : readInto d s = .refused .waitsForInput := by
  simp [readInto, State.receive, h]

theorem loadInto_next {d : RegIdx} {o : Operand} (h : loadInto d o s = .next t) :
    (∃ v, s.memRead (s.addrOf o) = .ok v ∧ t = (s.setX d v).advancePc) ∨
      (∃ e, s.memRead (s.addrOf o) = .error e ∧ Raised s t e) := by
  rcases onOk_next h with ⟨v, hv, ht⟩ | he
  · cases ht; exact .inl ⟨v, hv, rfl⟩
  · exact .inr he

theorem storeAt_next {a o : Operand} (h : storeAt a o s = .next t) :
    (∃ v, s.srcVal o = .ok v ∧ s.DataCell (s.addrOf a) ∧ t = (s.setData (s.addrOf a) v).advancePc) ∨
      (∃ e, Raised s t e) := by
  rcases onOk_next h with ⟨u, hu, ht⟩ | ⟨e, _, he⟩
  · rcases onOk_next ht with ⟨v, hv, hn⟩ | ⟨e, _, he⟩
    · cases hn; exact .inl ⟨v, hv, State.checkWrite_ok hu, rfl⟩
    · exact .inr ⟨e, he⟩
  · exact .inr ⟨e, he⟩

theorem pushValue_next {o : Operand} (h : pushValue o s = .next t) :
    (∃ v, s.srcVal o = .ok v ∧ s.DataCell s.sp ∧
      t = ((s.setData s.sp v).setSp (aluAdd s.params s.sp 1)).advancePc) ∨ (∃ e, Raised s t e) := by
  rcases onOk_next h with ⟨u, hu, ht⟩ | ⟨e, _, he⟩
  · rcases onOk_next ht with ⟨v, hv, hn⟩ | ⟨e, _, he⟩
    · cases hn; exact .inl ⟨v, hv, State.checkWrite_ok hu, rfl⟩
    · exact .inr ⟨e, he⟩
  · exact .inr ⟨e, he⟩

theorem popInto_next {d : RegIdx} (h : popInto d s = .next t) :
    (∃ v, s.memRead s.belowSp = .ok v ∧ t = ((s.setX d v).setSp (s.setX d v).belowSp).advancePc) ∨
      (∃ e, s.memRead s.belowSp = .error e ∧ Raised s t e) := by
  rcases onOk_next h with ⟨v, hv, ht⟩ | he
  · cases ht; exact .inl ⟨v, hv, rfl⟩
  · exact .inr he

theorem breakStop_next (h : breakStop s = .next t) : Raised s t .none := raise_next h

/-! ## The effect of any instruction -/

/-- The ways an instruction can change the state: registers only; registers and one data cell of the data region;
registers and one byte more of output; registers and one byte less of input; the fault slot. -/
inductive Effect (s : State) : State → Prop where
  | regs (r : List Word) : Effect s { s with regs := r }
  | data (r : List Word) (a : Nat) (v : Word) (h : s.DataCell a) :
      Effect s { s with regs := r, dmem := s.dmem.write a v }
  | sent (r : List Word) (b : Byte) : Effect s { s with regs := r, output := s.output ++ [b] }
  | received (r : List Word) (b : Byte) (rest : List Byte) (h : s.input = b :: rest) :
      Effect s { s with regs := r, input := rest }
  | raised (e : Cause) (h : s.stopped = false) : Effect s { s with stopped := true, cause := e }

theorem Raised.effect {e : Cause} (h : Raised s t e) : Effect s t := by
  obtain ⟨hs, rfl⟩ := h; exact .raised e hs

/-- Every instruction that answers a next state has one of these effects. -/
theorem exec_effect {i : Instr} (h : exec i s = .next t) : Effect s t := by
  cases i
  case jumpR | jumpA =>
    simp only [exec_jumpR, exec_jumpA] at h
    rcases jumpTo_next h with ⟨_, rfl⟩ | ⟨_, he⟩
    · exact .regs _
    · exact he.effect
  case condR | condC | condA =>
    simp only [exec_condR, exec_condC, exec_condA] at h
    rcases condOn_next h with ⟨v, _, rfl⟩ | ⟨e, _, he⟩
    · split_ifs <;> exact .regs _
    · exact he.effect
  case moveRR | moveRC | moveRA =>
    simp only [exec_moveRR, exec_moveRC, exec_moveRA] at h
    rcases moveToReg_next h with ⟨v, _, rfl⟩ | ⟨e, _, he⟩
    · exact .regs _
    · exact he.effect
  case moveAR | moveAC | moveAA =>
    simp only [exec_moveAR, exec_moveAC, exec_moveAA] at h
    rcases moveToCell_next h with ⟨v, _, hc, rfl⟩ | ⟨e, he⟩
    · exact .data _ _ _ hc
    · exact he.effect
  case addRRR | addRRC | addRRA | addRCR | addRCC | addRCA | addRAR | addRAC | addRAA =>
    simp only [exec_addRRR, exec_addRRC, exec_addRRA, exec_addRCR, exec_addRCC, exec_addRCA, exec_addRAR,
      exec_addRAC, exec_addRAA] at h
    rcases addInto_next h with ⟨va, vb, _, _, rfl⟩ | ⟨e, he⟩
    · exact .regs _
    · exact he.effect
  case subRRR | subRRC | subRRA | subRCR | subRCC | subRCA | subRAR | subRAC | subRAA =>
    simp only [exec_subRRR, exec_subRRC, exec_subRRA, exec_subRCR, exec_subRCC, exec_subRCA, exec_subRAR,
      exec_subRAC, exec_subRAA] at h
    rcases subInto_next h with ⟨va, vb, _, _, rfl⟩ | ⟨e, he⟩
    · exact .regs _
    · exact he.effect
  case writeH | writeC | writeR =>
    simp only [exec_writeH, exec_writeC, exec_writeR] at h
    rcases writeByte_next h with ⟨v, _, rfl⟩ | ⟨e, _, he⟩
    · exact .sent _ _
    · exact he.effect
  case readR =>
    simp only [exec_readR] at h
    obtain ⟨b, rest, hi, rfl⟩ := readInto_next h
    exact .received _ b rest hi
  case loadRR | loadRC =>
    simp only [exec_loadRR, exec_loadRC] at h
    rcases loadInto_next h with ⟨v, _, rfl⟩ | ⟨e, _, he⟩
    · exact .regs _
    · exact he.effect
  case storeRR | storeRC | storeCR | storeCC =>
    simp only [exec_storeRR, exec_storeRC, exec_storeCR, exec_storeCC] at h
    rcases storeAt_next h with ⟨v, _, hc, rfl⟩ | ⟨e, he⟩
    · exact .data _ _ _ hc
    · exact he.effect
  case pushR | pushC =>
    simp only [exec_pushR, exec_pushC] at h
    rcases pushValue_next h with ⟨v, _, hc, rfl⟩ | ⟨e, he⟩
    · exact .data _ _ _ hc
    · exact he.effect
  case popR =>
    simp only [exec_popR] at h
    rcases popInto_next h with ⟨v, _, rfl⟩ | ⟨e, _, he⟩
    · exact .regs _
    · exact he.effect
  case brk => exact (breakStop_next h).effect

/-- A step fetches instruction `i` exactly when pc is in the code region and the record there decodes to `i`. -/
theorem State.fetchDecode_ok_iff {i : Instr} :
    s.fetchDecode = .ok i ↔ s.pc < s.ibound ∧ decode s.params (s.ifetch s.pc) = .instr i := by
  unfold State.fetchDecode State.nextRecord State.execValid
  by_cases h : s.pc < s.ibound <;> simp [h]
  cases decode s.params (s.ifetch s.pc) <;> simp

/-- Everything a step can do when it answers a next state: the core was running, and it executed the fetched instruction
or raised what the fetch or the decode answered. -/
theorem step_next (h : step s = .next t) :
    s.Running ∧ ((∃ i, s.fetchDecode = .ok i ∧ exec i s = .next t) ∨ (∃ e, s.fetchDecode = .error e ∧ Raised s t e)) := by
  unfold step at h
  split_ifs at h with h1 h2
  refine ⟨⟨by simpa using h1, by simpa using h2⟩, ?_⟩
  rcases onOk_next h with ⟨i, hi, he⟩ | ⟨e, he, hr⟩
  · exact .inl ⟨i, hi, he⟩
  · exact .inr ⟨e, he, hr⟩

/-- Every step that answers a next state has one of the effects of an instruction. -/
theorem step_effect (h : step s = .next t) : Effect s t := by
  obtain ⟨_, ⟨i, _, he⟩ | ⟨e, _, hr⟩⟩ := step_next h
  · exact exec_effect he
  · exact hr.effect

/-- The step of a running core. -/
theorem step_running (h : s.Running) : step s = onOk s.fetchDecode s fun i => exec i s := by
  simp [step, h.1, h.2]

end Sys2Proof.Machine
end

