-- ==== Sys2Proof/Laws/Invariant.lean ====
section
/-! SUPPORT. What the invariant gives, and that each operation on the state keeps it. -/

namespace Sys2Proof.Machine

variable {s t : State}

/-! ## What the invariant gives -/

theorem State.Inv.pcIdx_lt (h : s.Inv) : s.pcIdx < s.regs.length := by
  rw [h.regs_length]; exact Machine.pcIdx_lt h.params.nreg_ge

theorem State.Inv.spIdx_lt (h : s.Inv) : s.spIdx < s.regs.length := by
  rw [h.regs_length]; exact Machine.spIdx_lt h.params.nreg_ge

theorem State.Inv.pcIdx_ne_spIdx (h : s.Inv) : s.pcIdx ≠ s.spIdx := Machine.pcIdx_ne_spIdx h.params.nreg_ge

theorem State.Inv.lt_length (h : s.Inv) {d : RegIdx} (hd : s.IsReg d) : d < s.regs.length := by
  rw [h.regs_length]; exact hd

/-- Every register holds a word. -/
theorem State.Inv.x_word (h : s.Inv) (j : RegIdx) : s.IsWord (s.x j) := by
  unfold State.x
  rw [List.getD_eq_getElem?_getD]
  cases hj : s.regs[j]? with
  | none => exact Nat.two_pow_pos _
  | some v => exact h.regs_word v (List.mem_of_getElem? hj)

theorem State.Inv.pc_word (h : s.Inv) : s.IsWord s.pc := h.x_word _
theorem State.Inv.sp_word (h : s.Inv) : s.IsWord s.sp := h.x_word _

/-- Every data cell holds a word. -/
theorem State.Inv.dataAt_word (h : s.Inv) (a : Nat) : s.IsWord (s.dataAt a) := by
  rcases Store.read_mem s.dmem a with e | e
  · rw [State.dataAt, e]; exact Nat.two_pow_pos _
  · exact (h.dmem_cell _ e).2

/-- Every code cell holds a record of ILEN bits. -/
theorem State.Inv.ifetch_lt (h : s.Inv) (a : Nat) : s.ifetch a < 2 ^ s.params.ilen := by
  rcases Store.read_mem s.imem a with e | e
  · rw [State.ifetch, e]; exact Nat.two_pow_pos _
  · exact (h.imem_cell _ e).2

/-- Small numbers are words. -/
theorem Params.Legal.word_of_lt {p : Params} (h : p.Legal) {n : Nat} (hn : n < 256) : n < 2 ^ p.xlen :=
  Nat.lt_of_lt_of_le hn (Nat.pow_le_pow_right (n := 2) (by decide) h.xlen_ge)

theorem State.Inv.one_word (h : s.Inv) : s.IsWord 1 := Params.Legal.word_of_lt h.params (by decide)

/-- Every data cell's address is a word. -/
theorem State.Inv.cell_word (h : s.Inv) {a : Nat} (ha : s.DataCell a) : s.IsWord a := by
  have := h.params.capacity_le; have := ha.2; have := Nat.two_pow_pos s.params.xlen
  dsimp only [State.IsWord, Word] at *; omega

/-- The arithmetic unit computes the sum and the difference of words. -/
theorem aluAdd_eq_sumWord {p : Params} {a b : Word} (ha : a < 2 ^ p.xlen) (hb : b < 2 ^ p.xlen) :
    aluAdd p a b = sumWord p a b := aluAdd_eq ha hb

theorem aluSub_eq_differenceWord {p : Params} {a b : Word} (ha : a < 2 ^ p.xlen) (hb : b < 2 ^ p.xlen) :
    aluSub p a b = differenceWord p a b := aluSub_eq ha hb

/-- The value of a source operand in range is a word. -/
theorem State.Inv.srcVal_word (h : s.Inv) {o : Operand} {v : Word} (ho : o.inRange s.params = true)
    (hv : s.srcVal o = .ok v) : s.IsWord v := by
  cases o with
  | reg r => cases hv; exact h.x_word r
  | const c => cases hv; exact of_decide_eq_true ho
  | char b => cases hv; exact Operand.payload_lt h.params ho
  | addr a =>
    rw [State.srcVal_addr, State.memRead_eq] at hv
    split_ifs at hv
    cases hv; exact h.dataAt_word a

/-! ## Registers after a write of a register that exists -/

theorem State.Inv.setX_x (h : s.Inv) {d : RegIdx} (hd : s.IsReg d) (v : Word) (j : RegIdx) :
    (s.setX d v).x j = if j = d then v else s.x j := State.setX_x s (h.lt_length hd) j v

theorem State.Inv.setPc_x (h : s.Inv) (v : Word) (j : RegIdx) :
    (s.setPc v).x j = if j = s.pcIdx then v else s.x j := State.setX_x s h.pcIdx_lt j v

theorem State.Inv.setSp_x (h : s.Inv) (v : Word) (j : RegIdx) :
    (s.setSp v).x j = if j = s.spIdx then v else s.x j := State.setX_x s h.spIdx_lt j v

theorem State.Inv.advancePc_x (h : s.Inv) (j : RegIdx) :
    s.advancePc.x j = if j = s.pcIdx then sumWord s.params s.pc 1 else s.x j := by
  rw [State.advancePc, h.setPc_x, aluAdd_eq_sumWord h.pc_word h.one_word]

/-! ## The operations keep it -/

theorem State.Inv.setX (h : s.Inv) (d : RegIdx) {v : Word} (hv : s.IsWord v) : (s.setX d v).Inv :=
  ⟨h.params, h.ibound_le, by simpa using h.regs_length, fun u hu => by
    rcases List.mem_or_eq_of_mem_set hu with hu | rfl
    · exact h.regs_word u hu
    · exact hv, h.dmem_wf, h.imem_wf, h.dmem_cell, h.imem_cell⟩

theorem State.Inv.setPc (h : s.Inv) {v : Word} (hv : s.IsWord v) : (s.setPc v).Inv := h.setX _ hv
theorem State.Inv.setSp (h : s.Inv) {v : Word} (hv : s.IsWord v) : (s.setSp v).Inv := h.setX _ hv
theorem State.Inv.advancePc (h : s.Inv) : s.advancePc.Inv := h.setPc (aluAdd_lt _ _ _)

theorem State.Inv.setData (h : s.Inv) {a : Nat} {v : Word} (ha : s.DataCell a) (hv : s.IsWord v) :
    (s.setData a v).Inv :=
  ⟨h.params, h.ibound_le, h.regs_length, h.regs_word, Store.wf_write h.dmem_wf _ _, h.imem_wf, fun e he => by
    rcases Store.mem_write he with rfl | he
    · exact ⟨ha.2, hv⟩
    · exact h.dmem_cell e he, h.imem_cell⟩

theorem State.Inv.emit (h : s.Inv) (b : Byte) : (s.emit b).Inv :=
  ⟨h.params, h.ibound_le, h.regs_length, h.regs_word, h.dmem_wf, h.imem_wf, h.dmem_cell, h.imem_cell⟩

theorem State.Inv.stopWith (h : s.Inv) (e : Cause) : (s.stopWith e).Inv :=
  ⟨h.params, h.ibound_le, h.regs_length, h.regs_word, h.dmem_wf, h.imem_wf, h.dmem_cell, h.imem_cell⟩

theorem State.Inv.withInput (h : s.Inv) (bs : List Byte) : State.Inv { s with input := bs } :=
  ⟨h.params, h.ibound_le, h.regs_length, h.regs_word, h.dmem_wf, h.imem_wf, h.dmem_cell, h.imem_cell⟩

theorem State.Inv.supply (h : s.Inv) (bs : List Byte) : (s.supply bs).Inv := h.withInput _

/-- An instruction's record in the next code cell, below CAPACITY. -/
theorem State.Inv.appended (h : s.Inv) {i : Instr} (hc : s.ibound < s.params.capacity)
    (hi : i.wellFormed s.params = true) :
    State.Inv { s with imem := s.imem.write s.ibound (encode s.params i), ibound := s.ibound + 1 } :=
  ⟨h.params, hc, h.regs_length, h.regs_word, h.dmem_wf, Store.wf_write h.imem_wf _ _, h.dmem_cell, fun e he => by
    rcases Store.mem_write he with rfl | he
    · exact ⟨Nat.lt_succ_self _, encode_lt h.params hi⟩
    · exact ⟨Nat.lt_succ_of_lt (h.imem_cell e he).1, (h.imem_cell e he).2⟩⟩

end Sys2Proof.Machine
end

