-- ==== Sys2Proof/Laws/Assembler.lean ====
section
/-! SUPPORT. What the loader does, said once: the directives' checks, the bytes of a DS, one line, a list of lines. -/

namespace Sys2Proof.Machine

/-- The write check of a directive is that the address is a data cell. -/
theorem State.writeValid_zero_iff (s : State) (a : Nat) : s.writeValid a 0 = true ↔ s.DataCell a := by
  simp [State.writeValid, State.DataCell]

/-- A literal that is recognised is a word. -/
theorem wordLiteral_lt {p : LoaderParams} {m : Params} {ds : List Byte} {w : Word} (h : wordLiteral p m ds = some w) :
    w < 2 ^ m.xlen := by
  unfold wordLiteral at h
  split at h
  · cases h
  · split_ifs at h with hn
    · cases h; exact hn
    · split at h
      · cases h
      · cases h; exact Nat.mod_lt _ (Nat.two_pow_pos _)

/-- An operand that is recognised is in range (R83). -/
theorem recognise_inRange {p : LoaderParams} {m : Params} (hm : 2 ≤ m.nreg) {k : Kind} {tok : List Byte} {o : Operand}
    (h : recognise p m k tok = some o) : o.inRange m = true := by
  cases k <;> simp only [recognise, Option.map_eq_some_iff] at h <;> obtain ⟨v, hv, rfl⟩ := h
  · refine decide_eq_true ?_
    unfold recogniseRegister at hv
    dsimp only at hv
    generalize (if p.regNameCaseInsensitive = true then tok.map lowerByte else tok) = lowered at hv
    split_ifs at hv
    · cases hv; exact pcIdx_lt hm
    · cases hv; exact spIdx_lt hm
    · split at hv
      · cases hv
      · split_ifs at hv
        split at hv
        · cases hv
        · split_ifs at hv with hn; cases hv; exact hn
  · refine decide_eq_true ?_
    unfold recogniseAddress at hv
    split at hv
    · cases hv
    · exact wordLiteral_lt hv
  · refine decide_eq_true ?_
    unfold recogniseConstant at hv
    split at hv
    · cases hv
    · split_ifs at hv; exact wordLiteral_lt hv
  · rfl

/-- Every operand that is parsed is in range. -/
theorem parseOperand_inRange {p : LoaderParams} {m : Params} (hm : 2 ≤ m.nreg) {ks : List TryKind} {tok : List Byte}
    {o : Operand} (h : parseOperand p m ks tok = some o) : o.inRange m = true := by
  induction ks with
  | nil => cases h
  | cons k ks ih =>
    cases k <;> simp only [parseOperand] at h <;> split at h
    · rename_i hr; cases h; exact recognise_inRange hm hr
    · exact ih h
    · cases h
    · exact ih h

theorem parseOperands_inRange {p : LoaderParams} {m : Params} (hm : 2 ≤ m.nreg) {kss : List (List TryKind)}
    {toks : List (List Byte)} {os : List Operand} (h : parseOperands p m kss toks = some os) :
    ∀ o ∈ os, o.inRange m = true := by
  induction kss generalizing toks os with
  | nil => cases toks <;> simp [parseOperands] at h; subst h; simp
  | cons ks kss ih =>
    cases toks with
    | nil => simp [parseOperands] at h
    | cons tok toks =>
      simp only [parseOperands] at h
      split at h
      · cases h
      · rename_i ho
        split at h
        · cases h
        · rename_i hos
          cases h
          intro x hx
          rcases List.mem_cons.mp hx with rfl | hx
          · exact parseOperand_inRange hm ho
          · exact ih hos x hx

/-- Everything an instruction line that assembles does: its operands make an instruction, well formed on this machine,
which is appended to the code. -/
theorem assembleInstr_ok {p : LoaderParams} {op : Opcode} {toks : List (List Byte)} {s t : State}
    (hm : 2 ≤ s.params.nreg) (h : assembleInstr p op toks s = .ok t) :
    ∃ os i, parseOperands p s.params (tryOrder op) toks = some os ∧ Instr.ofOperands op os = some i ∧
      i.wellFormed s.params = true ∧ s.ibound < s.params.capacity ∧
      t = { s with imem := s.imem.write s.ibound (encode s.params i), ibound := s.ibound + 1 } := by
  unfold assembleInstr at h
  split_ifs at h
  split at h
  · cases h
  · rename_i os hos
    split at h
    · cases h
    · rename_i i hi
      unfold appendInstr at h
      split_ifs at h with hc
      cases h
      obtain ⟨_, rfl⟩ := ofOperands_some hi
      exact ⟨_, i, hos, hi, Instr.wellFormed_iff.mpr (parseOperands_inRange hm hos), hc, rfl⟩

/-- Everything a DW line that assembles does. -/
theorem assembleDw_ok {p : LoaderParams} {toks : List (List Byte)} {s t : State} (h : assembleDw p toks s = .ok t) :
    ∃ (a w : Word), s.DataCell a ∧ s.IsWord w ∧ t = s.setData a w := by
  unfold assembleDw at h
  split at h
  · split at h
    · rename_i a w _ hw
      split_ifs at h with hv
      cases h
      have : Operand.inRange s.params (.const w) = true := by
        unfold recogniseConstant at hw
        split at hw
        · cases hw
        · split_ifs at hw; exact decide_eq_true (wordLiteral_lt hw)
      exact ⟨a, w, (s.writeValid_zero_iff _).mp hv, of_decide_eq_true this, rfl⟩
    · cases h
  · cases h

/-- Everything the bytes of a DS that are all stored do: the data store alone differs, and the invariant is kept. -/
theorem storeBytes_ok {bs : List Byte} {a : Nat} {s t : State} (h : storeBytes bs a s = .ok t) :
    ∃ d, t = { s with dmem := d } ∧ (s.Inv → State.Inv { s with dmem := d }) := by
  induction bs generalizing a s with
  | nil => cases h; exact ⟨_, rfl, id⟩
  | cons b bs ih =>
    unfold storeBytes at h; split_ifs at h with hv
    obtain ⟨d, rfl, hw⟩ := ih h
    refine ⟨d, rfl, fun hi => hw (hi.setData ((s.writeValid_zero_iff _).mp hv) ?_)⟩
    exact Params.Legal.word_of_lt hi.params b.isLt

/-- Lines in two parts: the first part assembles, and the second from there on. -/
theorem assembleLines_append {p : LoaderParams} {xs ys : List (List Byte)} {s t : State}
    (h : assembleLines p (xs ++ ys) s = .ok t) :
    ∃ u, assembleLines p xs s = .ok u ∧ assembleLines p ys u = .ok t := by
  induction xs generalizing s with
  | nil => exact ⟨s, rfl, h⟩
  | cons x xs ih =>
    simp only [List.cons_append, assembleLines] at h ⊢
    split at h
    · exact ih h
    · cases h

/-- Every digit string with a value consists of digits. -/
theorem digitsVal_some {ds : List Byte} {acc n : Nat} (h : digitsVal ds acc = some n) :
    ∀ b ∈ ds, (digitVal b).isSome = true := by
  induction ds generalizing acc with
  | nil => simp
  | cons d ds ih =>
    unfold digitsVal at h
    split at h
    · cases h
    · rename_i q
      intro b hb
      rcases List.mem_cons.mp hb with rfl | hb
      · simp [q]
      · exact ih h b hb

end Sys2Proof.Machine
end

