-- ==== Sys2Proof/Laws/PerInstr.lean ====
section
/-! SUPPORT. The family EncodedHeader, one lemma per constructor of Instr: the record that the encoder writes has the
opcode and kind numbers of R65 and the payloads in the fields of R64, at every word width. -/

namespace Sys2Proof.Laws

/-- The opcode numbers of R65. -/
def opNumber : Opcode → Nat
  | .jump => 1 | .cond => 2 | .move => 3 | .add => 4 | .sub => 5 | .write => 6
  | .read => 7 | .load => 8 | .store => 9 | .push => 10 | .pop => 11 | .brk => 12

/-- The kind codes of R65. -/
def kindCode : Kind → Nat
  | .register => 1 | .address => 2 | .constant => 3 | .character => 4

/-- The kind code of an operand position, 0 for an absent operand (R65). -/
def codeAt (i : Instr) (n : Nat) : Nat := ((i.operands[n]?).map fun o => kindCode o.kind).getD 0

/-- A header whose fields are the opcode number, the kind codes of the operands in order, 0 for an absent operand, and 0
in the reserved bits (R64, R65, R85). -/
def HeaderSays (h : Header) (i : Instr) : Prop :=
  (h.extractLsb' 12 4).toNat = opNumber i.opcode ∧ (h.extractLsb' 9 3).toNat = codeAt i 0 ∧
    (h.extractLsb' 6 3).toNat = codeAt i 1 ∧ (h.extractLsb' 3 3).toNat = codeAt i 2 ∧ (h.extractLsb' 0 3).toNat = 0

/-- The instruction's opcode and operands are a legal form (R63, R67); and on every machine on which it is well formed,
the record that the encoder writes has ILEN bits, the opcode number and the kind codes of R65 in the header fields of
R64, 0 in the reserved bits, and the payloads in the slots, 0 for an absent operand. -/
def EncodedHeader.Statement (i : Instr) : Prop :=
  wellFormedOperands i.opcode i.operands = true ∧
    ∀ p : Params, p.Legal → i.wellFormed p = true →
      encode p i < 2 ^ p.ilen ∧
      (fieldsOf p (encode p i)).op.toNat = opNumber i.opcode ∧ (fieldsOf p (encode p i)).k0.toNat = codeAt i 0 ∧
      (fieldsOf p (encode p i)).k1.toNat = codeAt i 1 ∧ (fieldsOf p (encode p i)).k2.toNat = codeAt i 2 ∧
      (fieldsOf p (encode p i)).rsv.toNat = 0 ∧ (fieldsOf p (encode p i)).v0 = i.slot 0 ∧
      (fieldsOf p (encode p i)).v1 = i.slot 1 ∧ (fieldsOf p (encode p i)).v2 = i.slot 2

/-- An instruction whose header says its opcode and kinds has the statement. -/
theorem encodedHeader_of {i : Instr} (h : Header) (hi : i.header = h) (hs : HeaderSays h i) : EncodedHeader.Statement i :=
  ⟨i.form_legal, fun p hp hw => by
    obtain ⟨h0, h1, h2, h3, h4⟩ := hs
    rw [fieldsOf_encode hp hw, hi]
    exact ⟨encode_lt hp hw, h0, h1, h2, h3, h4, rfl, rfl, rfl⟩⟩

theorem EncodedHeader.jumpR (target : RegIdx) : EncodedHeader.Statement (.jumpR target) :=
  encodedHeader_of 0x1200#16 rfl ⟨rfl, rfl, rfl, rfl, rfl⟩

theorem EncodedHeader.jumpA (target : Word) : EncodedHeader.Statement (.jumpA target) :=
  encodedHeader_of 0x1400#16 rfl ⟨rfl, rfl, rfl, rfl, rfl⟩

theorem EncodedHeader.condR (tested : RegIdx) : EncodedHeader.Statement (.condR tested) :=
  encodedHeader_of 0x2200#16 rfl ⟨rfl, rfl, rfl, rfl, rfl⟩

theorem EncodedHeader.condC (tested : Word) : EncodedHeader.Statement (.condC tested) :=
  encodedHeader_of 0x2600#16 rfl ⟨rfl, rfl, rfl, rfl, rfl⟩

theorem EncodedHeader.condA (tested : Word) : EncodedHeader.Statement (.condA tested) :=
  encodedHeader_of 0x2400#16 rfl ⟨rfl, rfl, rfl, rfl, rfl⟩

theorem EncodedHeader.moveRR (dest : RegIdx) (src : RegIdx) : EncodedHeader.Statement (.moveRR dest src) :=
  encodedHeader_of 0x3240#16 rfl ⟨rfl, rfl, rfl, rfl, rfl⟩

theorem EncodedHeader.moveRC (dest : RegIdx) (src : Word) : EncodedHeader.Statement (.moveRC dest src) :=
  encodedHeader_of 0x32C0#16 rfl ⟨rfl, rfl, rfl, rfl, rfl⟩

theorem EncodedHeader.moveRA (dest : RegIdx) (src : Word) : EncodedHeader.Statement (.moveRA dest src) :=
  encodedHeader_of 0x3280#16 rfl ⟨rfl, rfl, rfl, rfl, rfl⟩

theorem EncodedHeader.moveAR (dest : Word) (src : RegIdx) : EncodedHeader.Statement (.moveAR dest src) :=
  encodedHeader_of 0x3440#16 rfl ⟨rfl, rfl, rfl, rfl, rfl⟩

theorem EncodedHeader.moveAC (dest : Word) (src : Word) : EncodedHeader.Statement (.moveAC dest src) :=
  encodedHeader_of 0x34C0#16 rfl ⟨rfl, rfl, rfl, rfl, rfl⟩

theorem EncodedHeader.moveAA (dest : Word) (src : Word) : EncodedHeader.Statement (.moveAA dest src) :=
  encodedHeader_of 0x3480#16 rfl ⟨rfl, rfl, rfl, rfl, rfl⟩

theorem EncodedHeader.addRRR (dest : RegIdx) (a : RegIdx) (b : RegIdx) : EncodedHeader.Statement (.addRRR dest a b) :=
  encodedHeader_of 0x4248#16 rfl ⟨rfl, rfl, rfl, rfl, rfl⟩

theorem EncodedHeader.addRRC (dest : RegIdx) (a : RegIdx) (b : Word) : EncodedHeader.Statement (.addRRC dest a b) :=
  encodedHeader_of 0x4258#16 rfl ⟨rfl, rfl, rfl, rfl, rfl⟩

theorem EncodedHeader.addRRA (dest : RegIdx) (a : RegIdx) (b : Word) : EncodedHeader.Statement (.addRRA dest a b) :=
  encodedHeader_of 0x4250#16 rfl ⟨rfl, rfl, rfl, rfl, rfl⟩

theorem EncodedHeader.addRCR (dest : RegIdx) (a : Word) (b : RegIdx) : EncodedHeader.Statement (.addRCR dest a b) :=
  encodedHeader_of 0x42C8#16 rfl ⟨rfl, rfl, rfl, rfl, rfl⟩

theorem EncodedHeader.addRCC (dest : RegIdx) (a : Word) (b : Word) : EncodedHeader.Statement (.addRCC dest a b) :=
  encodedHeader_of 0x42D8#16 rfl ⟨rfl, rfl, rfl, rfl, rfl⟩

theorem EncodedHeader.addRCA (dest : RegIdx) (a : Word) (b : Word) : EncodedHeader.Statement (.addRCA dest a b) :=
  encodedHeader_of 0x42D0#16 rfl ⟨rfl, rfl, rfl, rfl, rfl⟩

theorem EncodedHeader.addRAR (dest : RegIdx) (a : Word) (b : RegIdx) : EncodedHeader.Statement (.addRAR dest a b) :=
  encodedHeader_of 0x4288#16 rfl ⟨rfl, rfl, rfl, rfl, rfl⟩

theorem EncodedHeader.addRAC (dest : RegIdx) (a : Word) (b : Word) : EncodedHeader.Statement (.addRAC dest a b) :=
  encodedHeader_of 0x4298#16 rfl ⟨rfl, rfl, rfl, rfl, rfl⟩

theorem EncodedHeader.addRAA (dest : RegIdx) (a : Word) (b : Word) : EncodedHeader.Statement (.addRAA dest a b) :=
  encodedHeader_of 0x4290#16 rfl ⟨rfl, rfl, rfl, rfl, rfl⟩

theorem EncodedHeader.subRRR (dest : RegIdx) (a : RegIdx) (b : RegIdx) : EncodedHeader.Statement (.subRRR dest a b) :=
  encodedHeader_of 0x5248#16 rfl ⟨rfl, rfl, rfl, rfl, rfl⟩

theorem EncodedHeader.subRRC (dest : RegIdx) (a : RegIdx) (b : Word) : EncodedHeader.Statement (.subRRC dest a b) :=
  encodedHeader_of 0x5258#16 rfl ⟨rfl, rfl, rfl, rfl, rfl⟩

theorem EncodedHeader.subRRA (dest : RegIdx) (a : RegIdx) (b : Word) : EncodedHeader.Statement (.subRRA dest a b) :=
  encodedHeader_of 0x5250#16 rfl ⟨rfl, rfl, rfl, rfl, rfl⟩

theorem EncodedHeader.subRCR (dest : RegIdx) (a : Word) (b : RegIdx) : EncodedHeader.Statement (.subRCR dest a b) :=
  encodedHeader_of 0x52C8#16 rfl ⟨rfl, rfl, rfl, rfl, rfl⟩

theorem EncodedHeader.subRCC (dest : RegIdx) (a : Word) (b : Word) : EncodedHeader.Statement (.subRCC dest a b) :=
  encodedHeader_of 0x52D8#16 rfl ⟨rfl, rfl, rfl, rfl, rfl⟩

theorem EncodedHeader.subRCA (dest : RegIdx) (a : Word) (b : Word) : EncodedHeader.Statement (.subRCA dest a b) :=
  encodedHeader_of 0x52D0#16 rfl ⟨rfl, rfl, rfl, rfl, rfl⟩

theorem EncodedHeader.subRAR (dest : RegIdx) (a : Word) (b : RegIdx) : EncodedHeader.Statement (.subRAR dest a b) :=
  encodedHeader_of 0x5288#16 rfl ⟨rfl, rfl, rfl, rfl, rfl⟩

theorem EncodedHeader.subRAC (dest : RegIdx) (a : Word) (b : Word) : EncodedHeader.Statement (.subRAC dest a b) :=
  encodedHeader_of 0x5298#16 rfl ⟨rfl, rfl, rfl, rfl, rfl⟩

theorem EncodedHeader.subRAA (dest : RegIdx) (a : Word) (b : Word) : EncodedHeader.Statement (.subRAA dest a b) :=
  encodedHeader_of 0x5290#16 rfl ⟨rfl, rfl, rfl, rfl, rfl⟩

theorem EncodedHeader.writeH (src : Byte) : EncodedHeader.Statement (.writeH src) :=
  encodedHeader_of 0x6800#16 rfl ⟨rfl, rfl, rfl, rfl, rfl⟩

theorem EncodedHeader.writeC (src : Word) : EncodedHeader.Statement (.writeC src) :=
  encodedHeader_of 0x6600#16 rfl ⟨rfl, rfl, rfl, rfl, rfl⟩

theorem EncodedHeader.writeR (src : RegIdx) : EncodedHeader.Statement (.writeR src) :=
  encodedHeader_of 0x6200#16 rfl ⟨rfl, rfl, rfl, rfl, rfl⟩

theorem EncodedHeader.readR (dest : RegIdx) : EncodedHeader.Statement (.readR dest) :=
  encodedHeader_of 0x7200#16 rfl ⟨rfl, rfl, rfl, rfl, rfl⟩

theorem EncodedHeader.loadRR (dest : RegIdx) (addr : RegIdx) : EncodedHeader.Statement (.loadRR dest addr) :=
  encodedHeader_of 0x8240#16 rfl ⟨rfl, rfl, rfl, rfl, rfl⟩

theorem EncodedHeader.loadRC (dest : RegIdx) (addr : Word) : EncodedHeader.Statement (.loadRC dest addr) :=
  encodedHeader_of 0x82C0#16 rfl ⟨rfl, rfl, rfl, rfl, rfl⟩

theorem EncodedHeader.storeRR (addr : RegIdx) (value : RegIdx) : EncodedHeader.Statement (.storeRR addr value) :=
  encodedHeader_of 0x9240#16 rfl ⟨rfl, rfl, rfl, rfl, rfl⟩

theorem EncodedHeader.storeRC (addr : RegIdx) (value : Word) : EncodedHeader.Statement (.storeRC addr value) :=
  encodedHeader_of 0x92C0#16 rfl ⟨rfl, rfl, rfl, rfl, rfl⟩

theorem EncodedHeader.storeCR (addr : Word) (value : RegIdx) : EncodedHeader.Statement (.storeCR addr value) :=
  encodedHeader_of 0x9640#16 rfl ⟨rfl, rfl, rfl, rfl, rfl⟩

theorem EncodedHeader.storeCC (addr : Word) (value : Word) : EncodedHeader.Statement (.storeCC addr value) :=
  encodedHeader_of 0x96C0#16 rfl ⟨rfl, rfl, rfl, rfl, rfl⟩

theorem EncodedHeader.pushR (value : RegIdx) : EncodedHeader.Statement (.pushR value) :=
  encodedHeader_of 0xA200#16 rfl ⟨rfl, rfl, rfl, rfl, rfl⟩

theorem EncodedHeader.pushC (value : Word) : EncodedHeader.Statement (.pushC value) :=
  encodedHeader_of 0xA600#16 rfl ⟨rfl, rfl, rfl, rfl, rfl⟩

theorem EncodedHeader.popR (dest : RegIdx) : EncodedHeader.Statement (.popR dest) :=
  encodedHeader_of 0xB200#16 rfl ⟨rfl, rfl, rfl, rfl, rfl⟩

theorem EncodedHeader.brk : EncodedHeader.Statement .brk :=
  encodedHeader_of 0xC000#16 rfl ⟨rfl, rfl, rfl, rfl, rfl⟩

end Sys2Proof.Laws
end

