-- ==== Sys2Proof/Tests/Slice0.lean ====
section
/-! SUPPORT. The model's own tests: the refusals of WellFormed, a written-out word per instruction, single steps from
the vectors of spec/95_test_vectors.md, the loader, and for each obligation with hypotheses a witness that meets them. -/

namespace Sys2Proof.Tests

open Sys2Proof Sys2Proof.Machine

/-- A small machine: XLEN 8, NREG 2, SP_IDX 0 and PC_IDX 1, CAPACITY 255, the largest that R6 allows it. -/
def small : Params := ⟨8, 2, .spThenPc, 255⟩

/-! ## WellFormed refuses: one ill-formed term for each check -/

theorem test_wf_refuses_too_few_operands : wellFormedOperands .add [.reg 0, .reg 1] = false := by decide
theorem test_wf_refuses_too_many_operands : wellFormedOperands .brk [.reg 0] = false := by decide
theorem test_wf_refuses_constant_dest_of_move : wellFormedOperands .move [.const 5, .reg 0] = false := by decide
theorem test_wf_refuses_character_src_of_move : wellFormedOperands .move [.reg 0, .char 65] = false := by decide
theorem test_wf_refuses_address_of_load : wellFormedOperands .load [.reg 0, .addr 64] = false := by decide
theorem test_wf_refuses_address_of_push : wellFormedOperands .push [.addr 100] = false := by decide
theorem test_wf_takes_a_legal_form : wellFormedOperands .write [.char 255] = true := by decide
theorem test_wf_refuses_unknown_header :
    (fieldsOf .reference 0xD000_00000000_00000000_00000000).wellFormed .reference = false := by decide
theorem test_wf_refuses_reserved_bits :
    (fieldsOf .reference 0x32C1_00000000_00000005_00000000).wellFormed .reference = false := by decide
theorem test_wf_refuses_register_16 :
    (fieldsOf .reference 0x32C0_00000010_00000005_00000000).wellFormed .reference = false := by decide
theorem test_wf_refuses_character_256 :
    (fieldsOf .reference 0x6800_00000100_00000000_00000000).wellFormed .reference = false := by decide
theorem test_wf_refuses_used_absent_slot :
    (fieldsOf .reference 0x1200_00000000_00000001_00000000).wellFormed .reference = false := by decide
theorem test_wf_refuses_instruction_with_register_16 :
    (Instr.moveRR 16 0).wellFormed .reference = false := by decide
theorem test_wf_refuses_instruction_with_constant_2_32 :
    (Instr.pushC 0x1_0000_0000).wellFormed .reference = false := by decide
theorem test_wf_refuses_instruction_with_address_2_32 :
    (Instr.jumpA 0x1_0000_0000).wellFormed .reference = false := by decide
theorem test_wf_refuses_register_2_of_a_small_machine : (Instr.popR 2).wellFormed small = false := by decide
theorem test_wf_refuses_constant_256_of_a_small_machine : (Instr.pushC 256).wellFormed small = false := by decide
theorem test_wf_takes_the_largest_payloads_of_a_small_machine :
    (Instr.addRAC 1 255 255).wellFormed small = true := by decide
theorem test_wf_takes_boundary_payloads :
    (fieldsOf .reference 0x32C0_0000000F_FFFFFFFF_00000000).wellFormed .reference = true := by decide

/-! ## Decoding: a record per constructor, written out from R64's layout and R68's header table -/

theorem test_decode_jumpR : decode .reference 0x1200_00000003_00000000_00000000 = .instr (.jumpR 3) := by decide
theorem test_decode_jumpA : decode .reference 0x1400_00000100_00000000_00000000 = .instr (.jumpA 0x100) := by decide
theorem test_decode_condR : decode .reference 0x2200_00000003_00000000_00000000 = .instr (.condR 3) := by decide
theorem test_decode_condC : decode .reference 0x2600_00000005_00000000_00000000 = .instr (.condC 5) := by decide
theorem test_decode_condA : decode .reference 0x2400_00000100_00000000_00000000 = .instr (.condA 0x100) := by decide
theorem test_decode_moveRR : decode .reference 0x3240_00000003_0000000F_00000000 = .instr (.moveRR 3 15) := by decide
theorem test_decode_moveRC : decode .reference 0x32C0_00000003_FFFFFFFF_00000000 = .instr (.moveRC 3 0xFFFFFFFF) :=
    by decide
theorem test_decode_moveRA : decode .reference 0x3280_00000003_80000001_00000000 = .instr (.moveRA 3 0x80000001) :=
    by decide
theorem test_decode_moveAR : decode .reference 0x3440_00000100_0000000F_00000000 = .instr (.moveAR 0x100 15) := by
    decide
theorem test_decode_moveAC : decode .reference 0x34C0_00000100_FFFFFFFF_00000000 = .instr (.moveAC 0x100
    0xFFFFFFFF) := by decide
theorem test_decode_moveAA : decode .reference 0x3480_00000100_80000001_00000000 = .instr (.moveAA 0x100
    0x80000001) := by decide
theorem test_decode_addRRR : decode .reference 0x4248_00000003_0000000F_00000007 = .instr (.addRRR 3 15 7) := by decide
theorem test_decode_addRRC : decode .reference 0x4258_00000003_0000000F_00000009 = .instr (.addRRC 3 15 9) := by decide
theorem test_decode_addRRA : decode .reference 0x4250_00000003_0000000F_00002001 = .instr (.addRRA 3 15 0x2001) :=
    by decide
theorem test_decode_addRCR : decode .reference 0x42C8_00000003_FFFFFFFF_00000007 = .instr (.addRCR 3 0xFFFFFFFF 7)
    := by decide
theorem test_decode_addRCC : decode .reference 0x42D8_00000003_FFFFFFFF_00000009 = .instr (.addRCC 3 0xFFFFFFFF 9)
    := by decide
theorem test_decode_addRCA : decode .reference 0x42D0_00000003_FFFFFFFF_00002001 = .instr (.addRCA 3 0xFFFFFFFF
    0x2001) := by decide
theorem test_decode_addRAR : decode .reference 0x4288_00000003_80000001_00000007 = .instr (.addRAR 3 0x80000001 7)
    := by decide
theorem test_decode_addRAC : decode .reference 0x4298_00000003_80000001_00000009 = .instr (.addRAC 3 0x80000001 9)
    := by decide
theorem test_decode_addRAA : decode .reference 0x4290_00000003_80000001_00002001 = .instr (.addRAA 3 0x80000001
    0x2001) := by decide
theorem test_decode_subRRR : decode .reference 0x5248_00000003_0000000F_00000007 = .instr (.subRRR 3 15 7) := by decide
theorem test_decode_subRRC : decode .reference 0x5258_00000003_0000000F_00000009 = .instr (.subRRC 3 15 9) := by decide
theorem test_decode_subRRA : decode .reference 0x5250_00000003_0000000F_00002001 = .instr (.subRRA 3 15 0x2001) :=
    by decide
theorem test_decode_subRCR : decode .reference 0x52C8_00000003_FFFFFFFF_00000007 = .instr (.subRCR 3 0xFFFFFFFF 7)
    := by decide
theorem test_decode_subRCC : decode .reference 0x52D8_00000003_FFFFFFFF_00000009 = .instr (.subRCC 3 0xFFFFFFFF 9)
    := by decide
theorem test_decode_subRCA : decode .reference 0x52D0_00000003_FFFFFFFF_00002001 = .instr (.subRCA 3 0xFFFFFFFF
    0x2001) := by decide
theorem test_decode_subRAR : decode .reference 0x5288_00000003_80000001_00000007 = .instr (.subRAR 3 0x80000001 7)
    := by decide
theorem test_decode_subRAC : decode .reference 0x5298_00000003_80000001_00000009 = .instr (.subRAC 3 0x80000001 9)
    := by decide
theorem test_decode_subRAA : decode .reference 0x5290_00000003_80000001_00002001 = .instr (.subRAA 3 0x80000001
    0x2001) := by decide
theorem test_decode_writeH : decode .reference 0x6800_00000041_00000000_00000000 = .instr (.writeH 65) := by decide
theorem test_decode_writeC : decode .reference 0x6600_00000005_00000000_00000000 = .instr (.writeC 5) := by decide
theorem test_decode_writeR : decode .reference 0x6200_00000003_00000000_00000000 = .instr (.writeR 3) := by decide
theorem test_decode_readR : decode .reference 0x7200_00000003_00000000_00000000 = .instr (.readR 3) := by decide
theorem test_decode_loadRR : decode .reference 0x8240_00000003_0000000F_00000000 = .instr (.loadRR 3 15) := by decide
theorem test_decode_loadRC : decode .reference 0x82C0_00000003_FFFFFFFF_00000000 = .instr (.loadRC 3 0xFFFFFFFF) :=
    by decide
theorem test_decode_storeRR : decode .reference 0x9240_00000003_0000000F_00000000 = .instr (.storeRR 3 15) := by decide
theorem test_decode_storeRC : decode .reference 0x92C0_00000003_FFFFFFFF_00000000 = .instr (.storeRC 3 0xFFFFFFFF)
    := by decide
theorem test_decode_storeCR : decode .reference 0x9640_00000005_0000000F_00000000 = .instr (.storeCR 5 15) := by decide
theorem test_decode_storeCC : decode .reference 0x96C0_00000005_FFFFFFFF_00000000 = .instr (.storeCC 5 0xFFFFFFFF)
    := by decide
theorem test_decode_pushR : decode .reference 0xA200_00000003_00000000_00000000 = .instr (.pushR 3) := by decide
theorem test_decode_pushC : decode .reference 0xA600_00000005_00000000_00000000 = .instr (.pushC 5) := by decide
theorem test_decode_popR : decode .reference 0xB200_00000003_00000000_00000000 = .instr (.popR 3) := by decide
theorem test_decode_brk : decode .reference 0xC000_00000000_00000000_00000000 = .instr (.brk) := by decide

/-! Rejected records: one for each line of R70's table, and the null record with its other bits set (R66). -/

theorem test_decode_null : decode .reference 0x0FFF_00000001_00000002_00000003 = .null := by decide
theorem test_decode_reserved_opcode :
    decode .reference 0xF000_00000000_00000000_00000000 = .illegal .reservedOpcode := by decide
theorem test_decode_reserved_kind :
    decode .reference 0x2A00_00000000_00000000_00000000 = .illegal .reservedKindCode := by decide
theorem test_decode_operand_count :
    decode .reference 0x3200_00000000_00000000_00000000 = .illegal .operandCount := by decide
theorem test_decode_absent_before_present :
    decode .reference 0x3040_00000000_00000000_00000000 = .illegal .operandCount := by decide
theorem test_decode_reserved_bits :
    decode .reference 0x32C1_00000000_00000005_00000000 = .illegal .reservedBits := by decide
theorem test_decode_unused_slot :
    decode .reference 0xC000_00000001_00000000_00000000 = .illegal .unusedSlot := by decide
theorem test_decode_register_range :
    decode .reference 0x32C0_00000010_00000005_00000000 = .illegal .registerRange := by decide
theorem test_decode_character_range :
    decode .reference 0x6800_00000100_00000000_00000000 = .illegal .characterRange := by decide
theorem test_decode_operand_kind :
    decode .reference 0x8280_00000000_00000040_00000000 = .illegal .operandKind := by decide

/-! On a machine with XLEN = 8 the record has 40 bits and its slots 8. -/

theorem test_decode_small : decode small 0x4298_01_64_FF = .instr (.addRAC 1 100 255) := by decide
theorem test_decode_small_register_range : decode small 0x32C0_02_05_00 = .illegal .registerRange := by decide
theorem test_encode_small : encode small (.addRAC 1 100 255) = 0x4298_01_64_FF := by decide

/-! The numbering of the opcode table: its 16 header bits, or a whole record. -/

theorem test_table_word_header : decodeTableWord 16 0x4290 = some (.addRAA 0 0 0) := by decide
theorem test_table_word_record :
    decodeTableWord 112 0x4290_00000002_00000064_00000065 = some (.addRAA 2 100 101) := by decide
theorem test_table_word_refused : decodeTableWord 16 0x3640 = none := by decide

/-! ## Single steps -/

/-- The default start of 95_test_vectors.md Part 2: IBOUND 16, the record at address 4, the registers and cells that are
not 0, the input and the output. -/
def vec (regs : List (RegIdx × Word)) (cells : List (Nat × Word)) (inp outp : List Byte) (rec : Record) : State :=
  { regs.foldl (fun s e => s.setX e.1 e.2) State.reset with
    ibound := 16, imem := [(4, rec)], dmem := cells, input := inp, output := outp }

/-- With the record at address 4, the step from the first state answers the second. -/
def goesTo (rec : Record) (s t : Record → State) : Bool :=
  match step (s rec) with
  | .next u => decide (u = t rec)
  | _ => false

/-- With the record at address 4, the step stops with the cause and changes nothing else. -/
def stopsWith (rec : Record) (s : Record → State) (e : Cause) : Bool :=
  match step (s rec) with
  | .next u => decide (u = { s rec with stopped := true, cause := e })
  | _ => false

/-! The vectors of 95_test_vectors.md Part 2, at most two for each instruction, under the spec's own names. -/

theorem test_v_CT_3 :
    goesTo 0x1200_00000003_00000000_00000000 (vec [(3, 15), (14, 4)] [] [] [])
      (vec [(3, 15), (14, 15)] [] [] []) = true := by decide
theorem test_v_CT_4 :
    stopsWith 0x1200_00000003_00000000_00000000 (vec [(3, 16), (14, 4)] [] [] []) .invalidInstruction = true :=
      by decide
theorem test_v_CT_7 :
    goesTo 0x2200_00000000_00000000_00000000 (vec [(0, 7), (14, 4)] [] [] [])
      (vec [(0, 7), (14, 6)] [] [] []) = true := by decide
theorem test_v_CT_8 :
    goesTo 0x2200_00000000_00000000_00000000 (vec [(14, 4)] [] [] [])
      (vec [(14, 5)] [] [] []) = true := by decide
theorem test_v_CT_9 :
    goesTo 0x2600_00000000_00000000_00000000 (vec [(14, 4)] [] [] [])
      (vec [(14, 5)] [] [] []) = true := by decide
theorem test_v_CT_10 :
    goesTo 0x2600_00000001_00000000_00000000 (vec [(14, 4)] [] [] [])
      (vec [(14, 6)] [] [] []) = true := by decide
theorem test_v_CT_11 :
    goesTo 0x2400_00000064_00000000_00000000 (vec [(14, 4)] [(100, 0x80000000)] [] [])
      (vec [(14, 6)] [(100, 0x80000000)] [] []) = true := by decide
theorem test_v_CT_13 :
    stopsWith 0x2400_00000003_00000000_00000000 (vec [(14, 4)] [] [] []) .accessViolation = true := by decide
theorem test_v_MV_2 :
    goesTo 0x3240_00000001_00000000_00000000 (vec [(0, 0xFFFFFFFF), (14, 4)] [] [] [])
      (vec [(0, 0xFFFFFFFF), (1, 0xFFFFFFFF), (14, 5)] [] [] []) = true := by decide
theorem test_v_MV_12 :
    goesTo 0x3240_00000000_0000000e_00000000 (vec [(14, 4)] [] [] [])
      (vec [(0, 4), (14, 5)] [] [] []) = true := by decide
theorem test_v_MV_1 :
    goesTo 0x32C0_00000000_00000005_00000000 (vec [(14, 4)] [] [] [])
      (vec [(0, 5), (14, 5)] [] [] []) = true := by decide
theorem test_v_MV_11 :
    goesTo 0x32C0_0000000e_00000005_00000000 (vec [(14, 4)] [] [] [])
      (vec [(14, 6)] [] [] []) = true := by decide
theorem test_v_MV_3 :
    goesTo 0x3280_00000002_00000064_00000000 (vec [(14, 4)] [(100, 9)] [] [])
      (vec [(2, 9), (14, 5)] [(100, 9)] [] []) = true := by decide
theorem test_v_MV_8 :
    stopsWith 0x3280_00000000_00002000_00000000 (vec [(14, 4)] [] [] []) .accessViolation = true := by decide
theorem test_v_MV_4 :
    goesTo 0x3440_000000c8_00000000_00000000 (vec [(0, 77), (14, 4)] [] [] [])
      (vec [(0, 77), (14, 5)] [(200, 77)] [] []) = true := by decide
theorem test_v_MV_7 :
    stopsWith 0x3440_00000002_00000000_00000000 (vec [(0, 77), (14, 4)] [] [] []) .accessViolation = true := by decide
theorem test_v_MV_9 :
    goesTo 0x34C0_00001fff_00000001_00000000 (vec [(14, 4)] [] [] [])
      (vec [(14, 5)] [(8191, 1)] [] []) = true := by decide
theorem test_v_MV_5 :
    goesTo 0x34C0_000000c8_0000004d_00000000 (vec [(14, 4)] [] [] [])
      (vec [(14, 5)] [(200, 77)] [] []) = true := by decide
theorem test_v_MV_6 :
    goesTo 0x3480_000000c8_00000064_00000000 (vec [(14, 4)] [(100, 9), (200, 1)] [] [])
      (vec [(14, 5)] [(100, 9), (200, 9)] [] []) = true := by decide
theorem test_v_MV_16 :
    stopsWith 0x3480_000000c8_00000003_00000000 (vec [(14, 4)] [(200, 1)] [] []) .accessViolation = true := by decide
theorem test_v_AR_5 :
    goesTo 0x4248_00000001_00000001_00000001 (vec [(1, 0x80000000), (14, 4)] [] [] [])
      (vec [(1, 0), (14, 5)] [] [] []) = true := by decide
theorem test_v_AR_4 :
    goesTo 0x4258_00000000_00000000_00000001 (vec [(0, 0xFFFFFFFF), (14, 4)] [] [] [])
      (vec [(0, 0), (14, 5)] [] [] []) = true := by decide
theorem test_v_AR_17 :
    goesTo 0x4258_0000000e_0000000e_00000003 (vec [(14, 4)] [] [] [])
      (vec [(14, 8)] [] [] []) = true := by decide
theorem test_v_AR_10 :
    goesTo 0x4250_00000002_00000001_00000064 (vec [(1, 1), (14, 4)] [(100, 41)] [] [])
      (vec [(1, 1), (2, 42), (14, 5)] [(100, 41)] [] []) = true := by decide
theorem test_v_AR_20 :
    stopsWith 0x4250_00000002_00000000_00000005 (vec [(2, 9), (14, 4)] [] [] []) .accessViolation = true := by decide
theorem test_v_AR_8 :
    goesTo 0x42C8_00000002_00000007_00000001 (vec [(1, 1), (14, 4)] [] [] [])
      (vec [(1, 1), (2, 8), (14, 5)] [] [] []) = true := by decide
theorem test_v_AR_7 :
    goesTo 0x42D8_00000002_00000007_00000008 (vec [(14, 4)] [] [] [])
      (vec [(2, 15), (14, 5)] [] [] []) = true := by decide
theorem test_v_AR_11 :
    goesTo 0x42D0_00000002_00000001_00000064 (vec [(14, 4)] [(100, 41)] [] [])
      (vec [(2, 42), (14, 5)] [(100, 41)] [] []) = true := by decide
theorem test_v_AR_12 :
    goesTo 0x4288_00000002_00000064_00000001 (vec [(1, 1), (14, 4)] [(100, 41)] [] [])
      (vec [(1, 1), (2, 42), (14, 5)] [(100, 41)] [] []) = true := by decide
theorem test_v_AR_9 :
    goesTo 0x4298_00000002_00000064_00000001 (vec [(14, 4)] [(100, 41)] [] [])
      (vec [(2, 42), (14, 5)] [(100, 41)] [] []) = true := by decide
theorem test_v_AR_6 :
    goesTo 0x4290_00000002_00000064_00000065 (vec [(14, 4)] [(100, 40), (101, 2)] [] [])
      (vec [(2, 42), (14, 5)] [(100, 40), (101, 2)] [] []) = true := by decide
theorem test_v_AR_14 :
    goesTo 0x5248_00000000_00000000_00000000 (vec [(0, 1234), (14, 4)] [] [] [])
      (vec [(0, 0), (14, 5)] [] [] []) = true := by decide
theorem test_v_AR_3 :
    goesTo 0x5258_00000001_00000000_00000001 (vec [(14, 4)] [] [] [])
      (vec [(1, 0xFFFFFFFF), (14, 5)] [] [] []) = true := by decide
theorem test_v_AR_18 :
    goesTo 0x5258_0000000e_0000000e_00000002 (vec [(14, 4)] [] [] [])
      (vec [(14, 3)] [] [] []) = true := by decide
theorem test_v_AR_13 :
    goesTo 0x52C8_00000000_00000000_00000001 (vec [(1, 1), (14, 4)] [] [] [])
      (vec [(0, 0xFFFFFFFF), (1, 1), (14, 5)] [] [] []) = true := by decide
theorem test_v_AR_16 :
    goesTo 0x52D8_00000002_00000005_00000005 (vec [(2, 9), (14, 4)] [] [] [])
      (vec [(2, 0), (14, 5)] [] [] []) = true := by decide
theorem test_v_AR_15 :
    goesTo 0x5290_00000002_00000064_00000065 (vec [(14, 4)] [(100, 2), (101, 40)] [] [])
      (vec [(2, 0xFFFFFFDA), (14, 5)] [(100, 2), (101, 40)] [] []) = true := by decide
theorem test_v_IO_1 :
    goesTo 0x6800_00000041_00000000_00000000 (vec [(14, 4)] [] [] [])
      (vec [(14, 5)] [] [] [0x41]) = true := by decide
theorem test_v_IO_3 :
    goesTo 0x6600_00000141_00000000_00000000 (vec [(14, 4)] [] [] [])
      (vec [(14, 5)] [] [] [0x41]) = true := by decide
theorem test_v_IO_4 :
    goesTo 0x6200_00000001_00000000_00000000 (vec [(1, 0x12345678), (14, 4)] [] [] [])
      (vec [(1, 0x12345678), (14, 5)] [] [] [0x78]) = true := by decide
theorem test_v_IO_9 :
    goesTo 0x7200_00000002_00000000_00000000 (vec [(2, 0xFFFFFFFF), (14, 4)] [] [0x61] [])
      (vec [(2, 97), (14, 5)] [] [] []) = true := by decide
theorem test_v_IO_12 :
    goesTo 0x7200_0000000e_00000000_00000000 (vec [(14, 4)] [] [0x05] [])
      (vec [(14, 6)] [] [] []) = true := by decide
theorem test_v_MEM_2 :
    goesTo 0x8240_00000000_00000001_00000000 (vec [(1, 64), (14, 4)] [(64, 35)] [] [])
      (vec [(0, 35), (1, 64), (14, 5)] [(64, 35)] [] []) = true := by decide
theorem test_v_MEM_11 :
    stopsWith 0x8240_00000000_0000000e_00000000 (vec [(14, 4)] [] [] []) .accessViolation = true := by decide
theorem test_v_MEM_5 :
    stopsWith 0x82C0_00000000_0000000f_00000000 (vec [(0, 9), (14, 4)] [] [] []) .accessViolation = true := by decide
theorem test_v_MEM_6 :
    goesTo 0x82C0_00000000_00000010_00000000 (vec [(0, 9), (14, 4)] [] [] [])
      (vec [(0, 0), (14, 5)] [] [] []) = true := by decide
theorem test_v_MEM_7 :
    goesTo 0x9240_00000001_00000001_00000000 (vec [(1, 100), (14, 4)] [] [] [])
      (vec [(1, 100), (14, 5)] [(100, 100)] [] []) = true := by decide
theorem test_v_MEM_13 :
    goesTo 0x9240_00000000_0000000e_00000000 (vec [(0, 300), (14, 4)] [] [] [])
      (vec [(0, 300), (14, 5)] [(300, 4)] [] []) = true := by decide
theorem test_v_MEM_8 :
    stopsWith 0x92C0_00000001_00000001_00000000 (vec [(1, 0xFFFFFFFF), (14, 4)] [] [] []) .accessViolation = true :=
      by decide
theorem test_v_MEM_12 :
    goesTo 0x9640_00000041_00000003_00000000 (vec [(3, 42), (14, 4)] [] [] [])
      (vec [(3, 42), (14, 5)] [(65, 42)] [] []) = true := by decide
theorem test_v_MEM_3 :
    goesTo 0x96C0_00001fff_00000009_00000000 (vec [(14, 4)] [] [] [])
      (vec [(14, 5)] [(8191, 9)] [] []) = true := by decide
theorem test_v_MEM_4 :
    stopsWith 0x96C0_00002000_00000009_00000000 (vec [(14, 4)] [] [] []) .accessViolation = true := by decide
theorem test_v_ST_5 :
    goesTo 0xA200_0000000f_00000000_00000000 (vec [(14, 4), (15, 100)] [] [] [])
      (vec [(14, 5), (15, 101)] [(100, 100)] [] []) = true := by decide
theorem test_v_ST_3 :
    stopsWith 0xA200_00000000_00000000_00000000 (vec [(0, 5), (14, 4)] [] [] []) .accessViolation = true := by decide
theorem test_v_ST_14 :
    goesTo 0xA600_00000007_00000000_00000000 (vec [(14, 4), (15, 16)] [] [] [])
      (vec [(14, 5), (15, 17)] [(16, 7)] [] []) = true := by decide
theorem test_v_ST_8 :
    stopsWith 0xA600_00000001_00000000_00000000 (vec [(14, 4), (15, 8192)] [] [] []) .accessViolation = true :=
      by decide
theorem test_v_ST_12 :
    goesTo 0xB200_0000000f_00000000_00000000 (vec [(14, 4), (15, 101)] [(100, 200)] [] [])
      (vec [(14, 5), (15, 199)] [(100, 200)] [] []) = true := by decide
theorem test_v_ST_10 :
    stopsWith 0xB200_00000000_00000000_00000000 (vec [(14, 4), (15, 16)] [] [] []) .accessViolation = true := by decide

/-! The instructions with no vector in Part 2 at these defaults: worked out by hand from R120, R136 and R146. -/

theorem test_jumpA :
    goesTo 0x1400_0000000F_00000000_00000000 (vec [(14, 4)] [] [] [])
      (vec [(14, 15)] [] [] []) = true := by decide
theorem test_jumpA_out_of_range : 
    stopsWith 0x1400_00000010_00000000_00000000 (vec [(14, 4)] [] [] []) .invalidInstruction = true := by decide
theorem test_subRRA :
    goesTo 0x5250_00000002_00000001_00000064 (vec [(1, 1), (14, 4)] [(100, 41)] [] [])
      (vec [(1, 1), (2, 0xFFFFFFD8), (14, 5)] [(100, 41)] [] []) = true := by decide
theorem test_subRCA :
    goesTo 0x52D0_00000002_0000002A_00000064 (vec [(14, 4)] [(100, 41)] [] [])
      (vec [(2, 1), (14, 5)] [(100, 41)] [] []) = true := by decide
theorem test_subRAR :
    goesTo 0x5288_00000002_00000064_00000001 (vec [(1, 1), (14, 4)] [(100, 41)] [] [])
      (vec [(1, 1), (2, 40), (14, 5)] [(100, 41)] [] []) = true := by decide
theorem test_subRAC :
    goesTo 0x5298_00000002_00000064_00000001 (vec [(14, 4)] [(100, 41)] [] [])
      (vec [(2, 40), (14, 5)] [(100, 41)] [] []) = true := by decide
theorem test_storeRC :
    goesTo 0x92C0_00000001_00000007_00000000 (vec [(1, 8191), (14, 4)] [] [] [])
      (vec [(1, 8191), (14, 5)] [(8191, 7)] [] []) = true := by decide
theorem test_storeCC_zero_unlists :
    goesTo 0x96C0_00000064_00000000_00000000 (vec [(14, 4)] [(100, 9)] [] [])
      (vec [(14, 5)] [] [] []) = true := by decide

/-! Fetch and decode (V-BK-2, V-BK-4, V-BK-6, V-BK-8 and R110). -/

theorem test_v_BK_2 :
    stopsWith 0xC000_00000000_00000000_00000000 (vec [(14, 4)] [] [] []) .none = true := by decide
theorem test_v_BK_4 :
    stopsWith 0xC000_00000000_00000000_00000000 (vec [(14, 16)] [] [] []) .invalidInstruction = true := by decide
theorem test_v_BK_6 :
    stopsWith 0 (vec [(14, 4)] [] [] []) .noInstruction = true := by decide
theorem test_v_BK_8 :
    stopsWith 0xD000_00000000_00000000_00000000 (vec [(14, 4)] [] [] []) .invalidInstruction = true := by decide

/-- The step of a READ with no byte available is not enabled (R143, R205). -/
theorem test_read_waits :
    (match step (vec [(14, 4)] [] [] [] 0x7200_00000002_00000000_00000000) with
      | .refused e => decide (e = .waitsForInput)
      | _ => false) = true := by decide

/-- Words wrap at 2^8 on a machine with XLEN = 8: 200 + 100 leaves 44 (R7, R135). -/
theorem test_small_add_wraps :
    (match exec (.addRCC 0 200 100) (State.create small) with
      | .next t => t.regs
      | _ => []) = [44, 1] := by decide

/-- The other assignment of R22: pc is register 15, so MOVE to register 15 moves pc (D13). -/
theorem test_other_layout_moves_pc :
    (match exec (.moveRC 15 7) (State.create ⟨32, 16, .spThenPc, 100⟩) with
      | .next t => t.pc
      | _ => 0) = 8 := by decide

/-! ## Reset, the canonical form, the placing of an instruction -/

theorem test_reset_pc : State.reset.pc = 0 := by decide
theorem test_reset_capacity : State.reset.params.capacity = 8192 := by decide
theorem test_reset_form : Store.wf State.reset.dmem = true ∧ Store.wf State.reset.imem = true := by decide
theorem test_form_refuses_zero_entry : Store.wf [(3, 0)] = false := by decide
theorem test_form_refuses_falling_addresses : Store.wf [(5, 1), (3, 1)] = false := by decide
theorem test_write_orders : Store.write (Store.write [] 5 1) 3 2 = [(3, 2), (5, 1)] := by decide
theorem test_place_header :
    (State.reset.withFetchWord 16 0xC000).fetchDecode = .ok .brk := by decide
theorem test_place_record :
    (State.reset.withFetchWord 112 0x1400_00000000_00000000_00000000).fetchDecode = .ok (.jumpA 0) := by decide

/-! ## The loader -/

/-- One setting of the open points. No test below depends on which. -/
def params : LoaderParams :=
  ⟨false, .reject, true, false, false, true, false, false, false, false⟩

/-- The bytes of an ASCII text. -/
def text (s : String) : List Byte := asciiText s.toList

/-- The answer of the loader has this IBOUND and these data cells. -/
def loads (r : Except LoadFault State) (ibound : Nat) (cells : List (Nat × Word)) : Bool :=
  match r with
  | .ok t => decide (t.ibound = ibound ∧ t.dmem = cells)
  | .error _ => false

/-- The answer of the loader is this load fault. -/
def fails (r : Except LoadFault State) (e : LoadFault) : Bool :=
  match r with
  | .ok _ => false
  | .error f => decide (f = e)

/-- S2: the word of a DW. -/
theorem test_load_dw : loads (assemble params (text "DW 9000 #42") (State.create ⟨32, 16, .pcThenSp, 9001⟩)) 0
    [(9000, 42)] = true := by
  decide

/-- S3: the bytes of a DS, its escape, no terminator. -/
theorem test_load_ds : loads (assemble params (text "BREAK\nDS 100 \"AB\\n\"") State.reset) 1
    [(100, 0x41), (101, 0x42), (102, 0x0A)] = true := by decide

/-- The records of P4, mnemonics in any case (R81). -/
theorem test_load_records :
    (match assemble params (text "move r0 #0\n\n; note\nSUB r1 r0 #1\n  Store r1 #1") State.reset with
      | .ok t => t.imem
      | .error _ => []) =
      [(0, 0x32C0_00000000_00000000_00000000), (1, 0x5258_00000001_00000000_00000001),
        (2, 0x92C0_00000001_00000001_00000000)] := by decide

/-- R84: the first recogniser of the order that matches; `'A'` for WRITE. -/
theorem test_load_character :
    (match assemble params (text "WRITE 'A'") State.reset with
      | .ok t => t.imem
      | .error _ => []) = [(0, 0x6800_00000041_00000000_00000000)] := by decide

/-- CAPACITY out of range for the width, and a line that is faulty too: the image is refused (notes/assumptions/29.md). -/
theorem test_load_refuses_capacity_before_lines :
    fails (assemble params (text "NOP") (State.create ⟨8, 2, .pcThenSp, 256⟩)) .invalidInstruction = true := by decide

/-- A literal of 2^8 on a machine with XLEN = 8 (N11, rejected by these params), and the largest one it has. -/
theorem test_load_small :
    fails (assemble params (text "PUSH #256") (State.create small)) .invalidInstruction = true ∧
      loads (assemble params (text "DW 254 #255") (State.create small)) 0 [(254, 255)] = true := by decide

theorem test_load_refuses_move_to_constant :
    fails (assemble params (text "MOVE #5 r0") State.reset) .invalidInstruction = true := by decide
theorem test_load_refuses_unknown_mnemonic :
    fails (assemble params (text "NOP") State.reset) .unknownInstruction = true := by decide
theorem test_load_refuses_token_count :
    fails (assemble params (text "ADD r1 r0") State.reset) .invalidInstruction = true := by decide
theorem test_load_refuses_register_16 :
    fails (assemble params (text "PUSH r16") State.reset) .invalidInstruction = true := by decide
theorem test_load_refuses_bad_escape :
    fails (assemble params (text "DS 100 \"\\q\"") State.reset) .invalidInstruction = true := by decide
theorem test_load_refuses_dw_in_code :
    fails (assemble params (text "BREAK\nDW 0 #1") State.reset) .invalidInstruction = true := by decide

/-- P8: the word written at address 1 before the code reached it survives, unreachable (R56). -/
theorem test_load_shadow :
    loads (assemble params (text "DW 1 #42\nMOVE r0 #1\nLOAD r1 r0\nBREAK") State.reset) 3 [(1, 42)] = true := by decide

/-! ## Whole runs (R193, R199) -/

/-- What the host's loop answers: the report, or where it left the run, as a number. -/
def ending : RunEnd → Option Report × Nat
  | .reported r _ => (some r, 0)
  | .waiting _ => (none, 1)
  | .abandoned _ => (none, 2)
  | .noStep _ => (none, 3)

theorem test_run_echoes_and_stops :
    ending (run .reference params (text "READ r1\nWRITE r1\nBREAK") [0x41] 5) =
      (some (.stopped .none 2), 0) := by decide
theorem test_run_reports_a_load_fault :
    ending (run .reference params (text "NOP") [] 5) = (some (.loadFault .unknownInstruction), 0) := by decide
theorem test_run_waits : ending (run .reference params (text "READ r1\nBREAK") [] 5) = (none, 1) := by decide
theorem test_run_goes_on : ending (run .reference params (text "JUMP 0") [] 2) = (none, 2) := by decide

/-- A second load is refused (R191, R193). -/
theorem test_second_load_is_refused :
    (match State.load { State.reset with loadFault := some .fileOpen } params (text "BREAK") with
      | .refused e => decide (e = .notJustCreated)
      | _ => false) = true := by decide

/-! ## Witnesses: for each obligation with hypotheses, a state and operands that meet them, at the boundaries -/

/-- The running machine of the witnesses: IBOUND 16, CAPACITY 8192, pc 4 at `rec`, sp 100, r0 15, r1 16, r2 8191, one
byte of input. -/
def at4 (rec : Record) : State := vec [(0, 15), (1, 16), (2, 8191), (14, 4), (15, 100)] [(100, 9)] [0x61] [] rec

/-- The same with MOVE r0 #5 at pc. -/
def base : State := at4 0x32C0_00000000_00000005_00000000

theorem reference_legal : Params.reference.Legal := by constructor <;> decide

theorem small_legal : small.Legal := by constructor <;> decide

theorem base_inv : base.Inv :=
  ⟨reference_legal, by decide, by decide, by decide, by decide, by decide, by decide, by decide⟩

theorem base_running : base.Running := ⟨rfl, rfl⟩

theorem base_cells :
    base.DataCell 16 ∧ base.DataCell 8191 ∧ ¬ base.DataCell 15 ∧
      ¬ base.DataCell 8192 := by
  unfold State.DataCell; decide

theorem witness_EncodedInstructionDecodesToItself :
    Params.reference.Legal ∧ (Instr.addRAA 15 0xFFFFFFFF 0).wellFormed .reference = true ∧
      (Instr.writeH 255).wellFormed .reference = true ∧ small.Legal ∧ (Instr.addRAC 1 255 0).wellFormed small = true :=
  ⟨reference_legal, by decide, by decide, small_legal, by decide⟩

theorem witness_DecodedRecordIsTheEncoding :
    (0x4290_0000000F_FFFFFFFF_00000000 : Record) < 2 ^ Params.reference.ilen ∧
      decode .reference 0x4290_0000000F_FFFFFFFF_00000000 = .instr (.addRAA 15 0xFFFFFFFF 0) := by decide

theorem witness_OperandsMakeAnInstructionIffLegal :
    Instr.ofOperands .write [.char 255] = some (.writeH 255) := by decide

theorem witness_MemReadAnswersTheCellOrAccessViolation :
    base.DataCell 16 ∧ base.DataCell 8191 ∧ ¬ base.DataCell 15 ∧
      ¬ base.DataCell 8192 ∧ ∀ e ∈ base.dmem, e.1 ≠ 99 :=
  ⟨base_cells.1, base_cells.2.1, base_cells.2.2.1, base_cells.2.2.2, by decide⟩

theorem witness_MemWriteReplacesOneCellOrAccessViolation :
    base.Inv ∧ base.DataCell 16 ∧ ¬ base.DataCell 15 :=
  ⟨base_inv, base_cells.1, base_cells.2.2.1⟩

theorem witness_StepRunsTheDecodedInstruction :
    base.Running ∧ base.pc < base.ibound ∧ decode base.params (base.ifetch base.pc) = .instr (.moveRC 0 5) ∧
      (Instr.moveRC 0 5).wellFormed base.params = true := ⟨base_running, by decide, by decide, by decide⟩

theorem witness_FetchOutsideTheCodeRaisesInvalidInstruction :
    (base.setPc 16).Running ∧ ¬ (base.setPc 16).pc < (base.setPc 16).ibound ∧ base.Running ∧
      base.pc < base.ibound ∧ decode base.params (base.ifetch base.pc) = .instr (.moveRC 0 5) :=
  ⟨⟨rfl, rfl⟩, by decide, base_running, by decide, by decide⟩

/-- A null record at pc, its other bits set. -/
def nulled : State := at4 0x0FFF_00000001_00000002_00000003

theorem witness_NullRecordRaisesNoInstruction :
    nulled.Running ∧
      (fieldsOf nulled.params (nulled.ifetch nulled.pc)).op = 0 ∧
      nulled.pc = 4 := ⟨⟨rfl, rfl⟩, by decide, by decide⟩

/-- A record with a reserved opcode at pc. -/
def illFormed : State := at4 0xD000_00000000_00000000_00000000

theorem witness_IllegalRecordRaisesInvalidInstruction :
    illFormed.Running ∧
      illFormed.pc = 4 ∧
      (fieldsOf illFormed.params (illFormed.ifetch illFormed.pc)).op ≠ 0 ∧
      (fieldsOf illFormed.params (illFormed.ifetch illFormed.pc)).wellFormed .reference = false :=
  ⟨⟨rfl, rfl⟩, by decide, by decide, by decide⟩

theorem witness_StoppedCoreTakesNoStep :
    (base.stopWith .none).loadFault = none ∧ (base.stopWith .none).stopped = true ∧
      ({ base with loadFault := some .fileOpen } : State).loadFault ≠ none := by decide

/-- READ r2 at pc, with one byte or with none. -/
def reading (inp : List Byte) : State := { at4 0x7200_00000002_00000000_00000000 with input := inp }

theorem reading_waits : (reading []).WaitsForInput := ⟨rfl, 2, by decide⟩

theorem reading_goes_on : ¬ (reading [0]).WaitsForInput := fun h => absurd h.1 (by decide)

theorem witness_RunningCoreCompletesRaisesOrWaits :
    (reading []).Running ∧ (reading []).WaitsForInput ∧ (reading [0]).Running ∧ ¬ (reading [0]).WaitsForInput :=
  ⟨⟨rfl, rfl⟩, reading_waits, ⟨rfl, rfl⟩, reading_goes_on⟩

/-- BREAK at pc. -/
def breaking : State := at4 0xC000_00000000_00000000_00000000

theorem breaking_step : step breaking = .next (breaking.stopWith .none) := by rfl

theorem witness_StepThatStopsChangesOnlyTheFaultSlot :
    step breaking = .next (breaking.stopWith .none) ∧ (breaking.stopWith .none).stopped = true := ⟨breaking_step, rfl⟩

/-- The state after MOVE r0 #5. -/
def moved : State := (base.setX 0 5).advancePc

theorem base_step : step base = .next moved := by rfl

theorem base_reaches : Reaches base moved := .step base_step (.refl _)

theorem witness_FaultSlotIsWrittenOnce :
    Reaches base moved ∧ moved.stopped = false ∧ Reaches (base.stopWith .none) (base.stopWith .none) ∧
      (base.stopWith .none).stopped = true := ⟨base_reaches, rfl, .refl _, rfl⟩

theorem witness_SucceededMeansABreakWasExecuted :
    breaking.Running ∧ step breaking = .next (breaking.stopWith .none) ∧
      (base.setPc 16).Running ∧ step (base.setPc 16) = .next ((base.setPc 16).stopWith .invalidInstruction) ∧
      (base.setPc 16).fetchDecode ≠ .ok .brk := ⟨⟨rfl, rfl⟩, by rfl, ⟨rfl, rfl⟩, by rfl, by decide⟩

theorem witness_InstructionRaisesExactlyAsTabled :
    base.stopped = false ∧ Raises .brk base .none ∧ Raises (.jumpA 16) base .invalidInstruction ∧
      Raises (.loadRC 0 15) base .accessViolation ∧ ¬ Raises (.jumpA 15) base .invalidInstruction :=
  ⟨rfl, by unfold Raises; rfl, by unfold Raises; rfl, by unfold Raises; rfl, fun h => by
    have : (match exec (.jumpA 15) base with | .next t => t.stopped | _ => true) = true := by rw [h]
    exact absurd this (by decide)⟩

theorem witness_InstructionWithValidAccessesCompletes :
    (∀ a ∈ base.accesses (.moveAA 16 8191), base.DataCell a) ∧
      (∀ w, base.jumpTarget (.jumpA 15) = some w → w < base.ibound) ∧ (reading [0]).input ≠ [] := by
  refine ⟨fun a h => ?_, fun w h => by cases h; decide, by decide⟩
  obtain rfl | rfl : a = 8191 ∨ a = 16 := by simpa [State.accesses] using h
  · exact base_cells.2.1
  · exact base_cells.1

/-- STORE #16 #7 at pc, and the state after it. -/
def storing : State := at4 0x96C0_00000010_00000007_00000000

theorem storing_step : step storing = .next (storing.setData 16 7).advancePc := by rfl

theorem storing_inv : storing.Inv :=
  ⟨reference_legal, by decide, by decide, by decide, by decide, by decide, by decide, by decide⟩

theorem witness_StepKeepsTheInvariant :
    storing.Inv ∧ step storing = .next (storing.setData 16 7).advancePc := ⟨storing_inv, storing_step⟩

theorem witness_CodeIsConstantAndUnreachableForData :
    Reaches base moved ∧ base.stopped = false ∧ ∃ a ∈ base.accesses (.storeCC 15 7), a < base.ibound :=
  ⟨base_reaches, rfl, 15, by decide, by decide⟩

theorem witness_StepKeepsTheParameters : Reaches base moved := base_reaches

theorem witness_StepChangesAtMostOneDataCellOfTheDataRegion :
    storing.Inv ∧ step storing = .next (storing.setData 16 7).advancePc ∧
      (storing.setData 16 7).advancePc.dataAt 16 ≠ storing.dataAt 16 := ⟨storing_inv, storing_step, by decide⟩

theorem witness_OnlyWriteSendsAndOnlyReadReceives :
    step (at4 0x6800_00000041_00000000_00000000) =
        .next ((at4 0x6800_00000041_00000000_00000000).emit 0x41).advancePc ∧
      step (reading [0]) = .next ((reading []).setX 2 0).advancePc := ⟨by rfl, by rfl⟩

theorem witness_BytesSuppliedLaterDoNotChangeTheStep :
    step (reading [0]) = .next ((reading []).setX 2 0).advancePc := by rfl

/-- Two machines that differ in a word below IBOUND and one at CAPACITY. -/
theorem witness_ShadowedWordsAreNeverVisible :
    base.DataAgrees { base with dmem := [(1, 42), (100, 9), (8192, 5)] } ∧ Reaches base moved := by
  refine ⟨⟨rfl, by decide, by decide, fun a h => ?_⟩, base_reaches⟩
  have h1 : 16 ≤ a := h.1
  have h2 : a < 8192 := h.2
  have e1 : ¬ 1 = a := by omega
  have e2 : ¬ 8192 = a := by omega
  show Store.read [(1, 42), (100, 9), (8192, 5)] a = Store.read [(100, 9)] a
  simp only [Store.read, e1, e2, if_false]

theorem witness_JumpSetsPcToTheTarget :
    base.Inv ∧ base.x 0 < base.ibound ∧ 15 < base.ibound ∧ 0 < base.ibound := ⟨base_inv, by decide⟩

theorem witness_JumpOutOfRangeRaisesInvalidInstruction :
    base.stopped = false ∧ ¬ (base.x 1) < base.ibound ∧ ¬ 16 < base.ibound := by decide

theorem witness_CondSkipsExactlyWhenNotZero : base.Inv ∧ base.DataCell 16 := ⟨base_inv, base_cells.1⟩

theorem witness_MoveToRegisterWritesTheSource :
    base.Inv ∧ base.IsReg 15 ∧ base.IsWord 0xFFFFFFFF ∧ base.DataCell 8191 :=
  ⟨base_inv, by decide, by decide, base_cells.2.1⟩

theorem witness_MoveToCellStoresTheSource :
    base.Inv ∧ base.DataCell 16 ∧ base.DataCell 8191 :=
  ⟨base_inv, base_cells.1, base_cells.2.1⟩

theorem witness_AddWritesTheWrappedSum :
    base.Inv ∧ base.IsReg 15 ∧ base.IsWord 0xFFFFFFFF ∧ base.DataCell 16 ∧ base.DataCell 8191 :=
  ⟨base_inv, by decide, by decide, base_cells.1, base_cells.2.1⟩

theorem witness_SubWritesTheWrappedDifference :
    base.Inv ∧ base.IsReg 0 ∧ base.IsWord 0xFFFFFFFF ∧ base.DataCell 16 ∧ base.DataCell 8191 :=
  ⟨base_inv, by decide, by decide, base_cells.1, base_cells.2.1⟩

theorem witness_WriteSendsTheLowByte : base.Inv := base_inv

theorem witness_ReadTakesTheNextByteZeroExtended :
    (reading [0xFF]).Inv ∧ (reading [0xFF]).IsReg 15 ∧ (reading [0xFF]).input = 0xFF :: [] :=
  ⟨⟨reference_legal, by decide, by decide, by decide, by decide, by decide, by decide, by decide⟩,
    by decide, by decide⟩

theorem witness_ReadWithNoByteWaits : (reading []).input = [] := by decide

theorem witness_LoadReadsTheCell :
    base.Inv ∧ base.IsReg 15 ∧ base.DataCell (base.x 1) ∧ base.DataCell (base.x 2) ∧ base.DataCell 16 :=
  ⟨base_inv, by decide, by unfold State.DataCell; decide⟩

theorem witness_StoreReplacesTheCellOrRaises :
    base.Inv ∧ base.stopped = false ∧ base.DataCell (base.x 2) ∧ base.DataCell 16 ∧
      ¬ base.DataCell (base.x 0) ∧ ¬ base.DataCell 8192 :=
  ⟨base_inv, rfl, by unfold State.DataCell; decide, base_cells.1, by unfold State.DataCell; decide, base_cells.2.2.2⟩

theorem witness_DataReadsOutsideTheDataRegionRaise :
    base.stopped = false ∧ ¬ base.DataCell 15 ∧ ¬ base.DataCell 8192 ∧
      ¬ base.DataCell (base.x 0) :=
  ⟨rfl, base_cells.2.2.1, base_cells.2.2.2, by unfold State.DataCell; decide⟩

theorem witness_PushStoresAtSpAndRaisesSp :
    (base.setSp 8191).Inv ∧ (base.setSp 8191).DataCell (base.setSp 8191).sp :=
  ⟨base_inv.setSp (by decide), by unfold State.DataCell; decide⟩

theorem witness_PopLoadsBelowSpAndLowersSp :
    (base.setSp 17).Inv ∧ base.IsReg 15 ∧ (base.setSp 17).DataCell (base.setSp 17).belowSp ∧
      (base.setSp 8192).Inv ∧ (base.setSp 8192).DataCell (base.setSp 8192).belowSp :=
  ⟨base_inv.setSp (by decide), by decide, by unfold State.DataCell; decide, base_inv.setSp (by decide),
    by unfold State.DataCell; decide⟩

theorem witness_PushAndPopOutsideTheDataRegionRaise :
    (base.setSp 8192).Inv ∧ (base.setSp 8192).stopped = false ∧ ¬ (base.setSp 8192).DataCell (base.setSp 8192).sp ∧
      (base.setSp 16).Inv ∧ (base.setSp 16).stopped = false ∧ ¬ (base.setSp 16).DataCell (base.setSp 16).belowSp ∧
      (base.setSp 0).Inv ∧ (base.setSp 0).stopped = false ∧ (base.setSp 0).sp = 0 :=
  ⟨base_inv.setSp (by decide), rfl, by unfold State.DataCell; decide, base_inv.setSp (by decide), rfl,
    by unfold State.DataCell; decide, base_inv.setSp (by decide), rfl, by decide⟩

theorem witness_PopAfterPushRestoresSpAndTheValue :
    base.Inv ∧ base.DataCell base.sp ∧ base.IsReg 0 ∧ (0 : RegIdx) ≠ base.spIdx ∧ (0 : RegIdx) ≠ base.pcIdx ∧
      base.IsWord 0xFFFFFFFF :=
  ⟨base_inv, by unfold State.DataCell; decide, by decide, by decide, by decide, by decide⟩

theorem witness_BreakStopsTheCoreCleanly :
    base.Running ∧ breaking.Running ∧ step breaking = .next (breaking.stopWith .none) ∧
      (breaking.stopWith .none).Succeeded := ⟨base_running, ⟨rfl, rfl⟩, breaking_step, rfl, rfl⟩

theorem witness_ResetMeetsTheInvariant : Params.reference.Legal ∧ small.Legal := ⟨reference_legal, small_legal⟩

theorem reset_inv : State.reset.Inv :=
  ⟨reference_legal, by decide, by decide, by decide, by decide, by decide, by decide, by decide⟩

/-- The machine after `BREAK`, `DW 9 #1`, `JUMP 0`. -/
def loaded : State :=
  { State.reset with
    ibound := 2, dmem := [(9, 1)],
    imem := [(0, 0xC000_00000000_00000000_00000000), (1, 0x1400_00000000_00000000_00000000)] }

/-- The line l is an instruction line in the first program, none in the second. -/
theorem witness_AssembledInstructionLinesStandInOrder :
    State.reset.ibound = 0 ∧ State.reset.Inv ∧
      assembleLines params ([text "BREAK", text "DW 9 #1"] ++ text "JUMP 0" :: []) State.reset = .ok loaded ∧
      isInstructionLine params (text "JUMP 0") = true ∧
      assembleLines params ([text "BREAK"] ++ text "DW 9 #1" :: [text "JUMP 0"]) State.reset = .ok loaded ∧
      isInstructionLine params (text "DW 9 #1") = false :=
  ⟨rfl, reset_inv, by rfl, by decide, by rfl, by decide⟩

theorem reset_code : State.reset.CodeWellFormed := fun a h => absurd h (Nat.not_lt_zero a)

theorem witness_AssembledMachineMeetsTheInvariant :
    State.reset.Inv ∧ State.reset.CodeWellFormed ∧
      assemble params (text "BREAK\nDW 9 #1\nJUMP 0") State.reset = .ok loaded := ⟨reset_inv, reset_code, by rfl⟩

theorem loaded_code : loaded.CodeWellFormed := fun a h => by
  have h : a < 2 := h
  obtain rfl | rfl : a = 0 ∨ a = 1 := by omega
  · exact ⟨.brk, by decide⟩
  · exact ⟨.jumpA 0, by decide⟩

/-- A run that ends outside the code region, and one that ends at BREAK. -/
theorem witness_WellFormedCodeNeverRaisesNoInstruction :
    (loaded.setPc 2).Running ∧ (loaded.setPc 2).CodeWellFormed ∧
      Reaches (loaded.setPc 2) ((loaded.setPc 2).stopWith .invalidInstruction) ∧
      loaded.Running ∧ Reaches loaded (loaded.stopWith .none) :=
  ⟨⟨rfl, rfl⟩, loaded_code, .step (by rfl) (.refl _), ⟨rfl, rfl⟩, .step (by rfl) (.refl _)⟩

theorem witness_FailedLoadIsNeverStepped :
    State.reset.justCreated = true ∧ assemble params (text "NOP") State.reset = .error .unknownInstruction ∧
      assemble params (text "BREAK\nDW 9 #1\nJUMP 0") State.reset = .ok loaded := ⟨by decide, by rfl, by rfl⟩

theorem witness_DwWritesItsWordAtLoadTime :
    base.Inv ∧ recogniseAddress params .reference (text "16") = some 16 ∧
      recogniseAddress params .reference (text "15") = some 15 ∧
      recogniseConstant params .reference (text "#4294967295") = some 0xFFFFFFFF ∧ base.DataCell 16 ∧
      ¬ base.DataCell 15 :=
  ⟨base_inv, by decide, by decide, by decide, base_cells.1, base_cells.2.2.1⟩

/-- Two bytes end at the last cell from 8190 on, and one beyond it from 8191 on. -/
theorem witness_DsStoresOneBytePerCell :
    base.Inv ∧ recogniseAddress params .reference (text "8190") = some 8190 ∧
      recogniseAddress params .reference (text "8191") = some 8191 ∧
      recogniseString (text "\"AB\"") = some [0x41, 0x42] ∧ ([0x41, 0x42] : List Byte) ≠ [] ∧
      (∀ i, i < 2 → base.DataCell (8190 + i)) ∧ ¬ base.DataCell (8191 + 1) := by
  refine ⟨base_inv, by decide, by decide, by decide, by decide, ?_, ?_⟩
  · unfold State.DataCell; decide
  · unfold State.DataCell; decide

theorem witness_ConstantDestinationOfMoveIsALoadFault :
    recogniseConstant params .reference (text "#5") = some 5 ∧
      recogniseConstant params .reference (text "#") = none := by decide

theorem witness_NoTokenIsAcceptedByTwoRecognisers :
    recognise params .reference .character (text "'5'") = some (.char 0x35) ∧
      recognise params .reference .address (text "5") = some (.addr 5) ∧
      recognise params .reference .constant (text "#5") = some (.const 5) ∧
      recognise params .reference .register (text "r5") = some (.reg 5) := by decide

theorem witness_EachFaultChannelIsSetAtMostOnce :
    (base.stopWith .none).stopped = true ∧
      ({ State.reset with loadFault := some .fileOpen } : State).loadFault ≠ none ∧
      State.reset.load params (text "BREAK\nDW 9 #1\nJUMP 0") = .next loaded ∧ loaded.ibound ≠ 0 :=
  ⟨rfl, by decide, by rfl, by decide⟩

/-- The machine of `loaded` after BREAK, and one that jumps to itself, with no bytes. -/
theorem witness_RunFollowsTheHostsSequence :
    assemble params (text "NOP") (State.create .reference) = .error .unknownInstruction ∧
      assemble params (text "BREAK\nDW 9 #1\nJUMP 0") (State.create .reference) = .ok loaded ∧
      run .reference params (text "BREAK\nDW 9 #1\nJUMP 0") [] 1 =
        .reported (.stopped .none 0) (loaded.stopWith .none) ∧
      run .reference params (text "BREAK\nDW 9 #1\nJUMP 0") [] 0 = .abandoned loaded ∧
      ending (run .reference params (text "READ r1") [] 1) = (none, 1) :=
  ⟨by rfl, by rfl, by rfl, by rfl, by decide⟩

/-- BREAK at pc, one step from its end; and a READ that waits, no step from it. -/
theorem witness_RunTakesAnExactNumberOfSteps :
    ReachesIn 1 breaking (breaking.stopWith .none) ∧ (breaking.stopWith .none).stopped = true ∧
      ReachesIn 0 (reading []) (reading []) ∧ (reading []).WaitsForInput :=
  ⟨.step breaking_step (.refl _), rfl, .refl _, reading_waits⟩

end Sys2Proof.Tests
end

/-! SUPPORT. The induction over runs, packaged once; and the part of the state that no run changes. -/

section
namespace Sys2Proof.Machine

variable {s t u : State}

/-- What every step keeps holds at the end of a run when it holds at its start. -/
theorem Reaches.keeps {P : State → Prop} (keep : ∀ {a b : State}, P a → Machine.step a = .next b → P b)
    (r : Reaches s t) (hs : P s) : P t := by
  induction r with
  | refl _ => exact hs
  | step h _ ih => exact ih (keep hs h)

theorem State.SameProgram.refl (s : State) : s.SameProgram s := ⟨rfl, rfl, rfl, rfl⟩

theorem State.SameProgram.trans (h : s.SameProgram t) (k : t.SameProgram u) : s.SameProgram u :=
  ⟨k.params.trans h.params, k.imem.trans h.imem, k.ibound.trans h.ibound, k.loadFault.trans h.loadFault⟩

/-- An effect is on the registers, one data cell, a byte port or the fault slot, never on the program (R33, R54). -/
theorem Effect.sameProgram (h : Effect s t) : s.SameProgram t := by
  cases h with
  | regs | data | sent | received | raised => exact ⟨rfl, rfl, rfl, rfl⟩

theorem step_sameProgram (h : step s = .next t) : s.SameProgram t := (step_effect h).sameProgram

theorem Reaches.sameProgram (r : Reaches s t) : s.SameProgram t :=
  r.keeps (fun sofar h => sofar.trans (step_sameProgram h)) (.refl s)

/-- Settles O24: every step keeps the program (`step_sameProgram`), so every run does. -/
theorem stepKeepsTheParameters : Obligations.StepKeepsTheParameters :=
  fun _ _ r => r.sameProgram

end Sys2Proof.Machine
end

/-! SUPPORT. Each shared meaning keeps the machine's invariant, and so does every step. A value put into a register or a
cell comes from the arithmetic unit, a register, a data cell, a byte, or a literal of the instruction's own record,
which is a word because a decoded instruction is well formed; a JUMP's target is below IBOUND. -/

section
namespace Sys2Proof.Machine

variable {s t : State}

/-- A read that is not refused was of a data cell, and answers what the cell holds. -/
theorem State.memRead_ok {a v : Word} (h : s.memRead a = .ok v) : s.DataCell a ∧ v = s.dataAt a := by
  by_cases hc : s.DataCell a
  · rw [State.memRead_of_dataCell hc] at h; cases h; exact ⟨hc, rfl⟩
  · rw [State.memRead_of_not_dataCell hc] at h; cases h

theorem State.Inv.memRead_word (h : s.Inv) {a v : Word} (hv : s.memRead a = .ok v) : s.IsWord v := by
  obtain ⟨_, rfl⟩ := State.memRead_ok hv
  exact h.dataAt_word a

/-- Every address of the code region is a word, since IBOUND is at most CAPACITY. -/
theorem State.Inv.code_word (h : s.Inv) {a : Nat} (ha : a < s.ibound) : s.IsWord a :=
  calc a < s.ibound := ha
    _ ≤ s.params.capacity := h.ibound_le
    _ ≤ 2 ^ s.params.xlen := h.params.capacity_le.trans (Nat.sub_le _ _)

theorem State.Inv.zextByte_word (h : s.Inv) (b : Byte) : s.IsWord (zextByte b) :=
  Params.Legal.word_of_lt h.params b.isLt

/-- A register write followed by the advance of pc, the end of most instructions. -/
theorem State.Inv.setX_advancePc (h : s.Inv) (d : RegIdx) {v : Word} (hv : s.IsWord v) :
    (s.setX d v).advancePc.Inv :=
  (h.setX d hv).advancePc

theorem Raised.keeps_inv {e : Cause} (hr : Raised s t e) (h : s.Inv) : t.Inv := by
  obtain ⟨_, rfl⟩ := hr; exact h.stopWith e

/-! ## The shared meanings -/

theorem jumpTo_keeps_inv {o : Operand} (h : s.Inv) (hx : jumpTo o s = .next t) : t.Inv := by
  rcases jumpTo_next hx with ⟨htarget, rfl⟩ | ⟨_, hr⟩
  · exact h.setPc (h.code_word htarget)
  · exact hr.keeps_inv h

theorem condOn_keeps_inv {o : Operand} (h : s.Inv) (hx : condOn o s = .next t) : t.Inv := by
  rcases condOn_next hx with ⟨v, _, rfl⟩ | ⟨e, _, hr⟩
  · split_ifs
    · exact h.advancePc.advancePc
    · exact h.advancePc
  · exact hr.keeps_inv h

theorem moveToReg_keeps_inv {d : RegIdx} {o : Operand} (h : s.Inv) (ho : o.inRange s.params = true)
    (hx : moveToReg d o s = .next t) : t.Inv := by
  rcases moveToReg_next hx with ⟨v, hv, rfl⟩ | ⟨e, _, hr⟩
  · exact h.setX_advancePc d (h.srcVal_word ho hv)
  · exact hr.keeps_inv h

theorem moveToCell_keeps_inv {d : Word} {o : Operand} (h : s.Inv) (ho : o.inRange s.params = true)
    (hx : moveToCell d o s = .next t) : t.Inv := by
  rcases moveToCell_next hx with ⟨v, hv, hc, rfl⟩ | ⟨e, hr⟩
  · exact (h.setData hc (h.srcVal_word ho hv)).advancePc
  · exact hr.keeps_inv h

theorem addInto_keeps_inv {d : RegIdx} {a b : Operand} (h : s.Inv) (hx : addInto d a b s = .next t) : t.Inv := by
  rcases addInto_next hx with ⟨va, vb, _, _, rfl⟩ | ⟨e, hr⟩
  · exact h.setX_advancePc d (aluAdd_lt _ _ _)
  · exact hr.keeps_inv h

theorem subInto_keeps_inv {d : RegIdx} {a b : Operand} (h : s.Inv) (hx : subInto d a b s = .next t) : t.Inv := by
  rcases subInto_next hx with ⟨va, vb, _, _, rfl⟩ | ⟨e, hr⟩
  · exact h.setX_advancePc d (aluSub_lt _ _ _)
  · exact hr.keeps_inv h

theorem writeByte_keeps_inv {o : Operand} (h : s.Inv) (hx : writeByte o s = .next t) : t.Inv := by
  rcases writeByte_next hx with ⟨v, _, rfl⟩ | ⟨e, _, hr⟩
  · exact (h.emit _).advancePc
  · exact hr.keeps_inv h

theorem readInto_keeps_inv {d : RegIdx} (h : s.Inv) (hx : readInto d s = .next t) : t.Inv := by
  obtain ⟨b, rest, _, rfl⟩ := readInto_next hx
  exact (h.withInput rest).setX_advancePc d (h.zextByte_word b)

theorem loadInto_keeps_inv {d : RegIdx} {o : Operand} (h : s.Inv) (hx : loadInto d o s = .next t) : t.Inv := by
  rcases loadInto_next hx with ⟨v, hv, rfl⟩ | ⟨e, _, hr⟩
  · exact h.setX_advancePc d (h.memRead_word hv)
  · exact hr.keeps_inv h

theorem storeAt_keeps_inv {a o : Operand} (h : s.Inv) (ho : o.inRange s.params = true)
    (hx : storeAt a o s = .next t) : t.Inv := by
  rcases storeAt_next hx with ⟨v, hv, hc, rfl⟩ | ⟨e, hr⟩
  · exact (h.setData hc (h.srcVal_word ho hv)).advancePc
  · exact hr.keeps_inv h

theorem pushValue_keeps_inv {o : Operand} (h : s.Inv) (ho : o.inRange s.params = true)
    (hx : pushValue o s = .next t) : t.Inv := by
  rcases pushValue_next hx with ⟨v, hv, hc, rfl⟩ | ⟨e, hr⟩
  · exact ((h.setData hc (h.srcVal_word ho hv)).setSp (aluAdd_lt _ _ _)).advancePc
  · exact hr.keeps_inv h

theorem popInto_keeps_inv {d : RegIdx} (h : s.Inv) (hx : popInto d s = .next t) : t.Inv := by
  rcases popInto_next hx with ⟨v, hv, rfl⟩ | ⟨e, _, hr⟩
  · exact ((h.setX d (h.memRead_word hv)).setSp (aluSub_lt _ _ _)).advancePc
  · exact hr.keeps_inv h

theorem breakStop_keeps_inv (h : s.Inv) (hx : breakStop s = .next t) : t.Inv := (breakStop_next hx).keeps_inv h

/-! ## Every instruction, and every step -/

/-- Every well-formed instruction keeps the invariant. The form matters where an operand's own value is stored (MOVE,
STORE, PUSH): a literal out of range would be no word. -/
theorem exec_keeps_inv {i : Instr} (h : s.Inv) (hi : i.wellFormed s.params = true) (hx : exec i s = .next t) :
    t.Inv := by
  have inRange := Instr.wellFormed_iff.mp hi
  cases i
  case jumpR | jumpA =>
    simp only [exec_jumpR, exec_jumpA] at hx
    exact jumpTo_keeps_inv h hx
  case condR | condC | condA =>
    simp only [exec_condR, exec_condC, exec_condA] at hx
    exact condOn_keeps_inv h hx
  case moveRR | moveRC | moveRA =>
    simp only [exec_moveRR, exec_moveRC, exec_moveRA] at hx
    exact moveToReg_keeps_inv h (inRange _ (by simp [Instr.operands])) hx
  case moveAR | moveAC | moveAA =>
    simp only [exec_moveAR, exec_moveAC, exec_moveAA] at hx
    exact moveToCell_keeps_inv h (inRange _ (by simp [Instr.operands])) hx
  case addRRR | addRRC | addRRA | addRCR | addRCC | addRCA | addRAR | addRAC | addRAA =>
    simp only [exec_addRRR, exec_addRRC, exec_addRRA, exec_addRCR, exec_addRCC, exec_addRCA, exec_addRAR,
      exec_addRAC, exec_addRAA] at hx
    exact addInto_keeps_inv h hx
  case subRRR | subRRC | subRRA | subRCR | subRCC | subRCA | subRAR | subRAC | subRAA =>
    simp only [exec_subRRR, exec_subRRC, exec_subRRA, exec_subRCR, exec_subRCC, exec_subRCA, exec_subRAR,
      exec_subRAC, exec_subRAA] at hx
    exact subInto_keeps_inv h hx
  case writeH | writeC | writeR =>
    simp only [exec_writeH, exec_writeC, exec_writeR] at hx
    exact writeByte_keeps_inv h hx
  case readR => exact readInto_keeps_inv h hx
  case loadRR | loadRC =>
    simp only [exec_loadRR, exec_loadRC] at hx
    exact loadInto_keeps_inv h hx
  case storeRR | storeRC | storeCR | storeCC =>
    simp only [exec_storeRR, exec_storeRC, exec_storeCR, exec_storeCC] at hx
    exact storeAt_keeps_inv h (inRange _ (by simp [Instr.operands])) hx
  case pushR | pushC =>
    simp only [exec_pushR, exec_pushC] at hx
    exact pushValue_keeps_inv h (inRange _ (by simp [Instr.operands])) hx
  case popR => exact popInto_keeps_inv h hx
  case brk => exact breakStop_keeps_inv h hx

/-- The instruction a step fetches is well formed (R69, R102). -/
theorem State.fetchDecode_wellFormed {i : Instr} (h : s.fetchDecode = .ok i) : i.wellFormed s.params = true :=
  decode_wellFormed (State.fetchDecode_ok_iff.mp h).2

theorem step_keeps_inv (h : s.Inv) (hs : step s = .next t) : t.Inv := by
  obtain ⟨_, ⟨i, hi, hx⟩ | ⟨e, _, hr⟩⟩ := step_next hs
  · exact exec_keeps_inv h (State.fetchDecode_wellFormed hi) hx
  · exact hr.keeps_inv h

/-- Settles O19: a step raises, or executes an instruction that decoded and so is well formed (`step_keeps_inv`). -/
theorem stepKeepsTheInvariant : Obligations.StepKeepsTheInvariant :=
  fun _ _ => step_keeps_inv

end Sys2Proof.Machine
end

/-! SUPPORT. The machine just created (R37, R190): what it holds, and that it meets the invariant. -/

section
namespace Sys2Proof.Machine

variable (p : Params)

@[simp] theorem State.create_params : (State.create p).params = p := rfl
@[simp] theorem State.create_regs : (State.create p).regs = List.replicate p.nreg 0 := rfl
@[simp] theorem State.create_dmem : (State.create p).dmem = [] := rfl
@[simp] theorem State.create_imem : (State.create p).imem = [] := rfl
@[simp] theorem State.create_ibound : (State.create p).ibound = 0 := rfl
@[simp] theorem State.create_stopped : (State.create p).stopped = false := rfl
@[simp] theorem State.create_loadFault : (State.create p).loadFault = none := rfl
@[simp] theorem State.create_dataAt (a : Nat) : (State.create p).dataAt a = 0 := rfl
@[simp] theorem State.create_ifetch (a : Nat) : (State.create p).ifetch a = 0 := rfl

/-- Every register is 0 after creation, and an index that names none reads 0 too. -/
@[simp] theorem State.create_x (j : RegIdx) : (State.create p).x j = 0 := by
  rw [State.x, State.create_regs, List.getD_eq_getElem?_getD, List.getElem?_replicate]
  split_ifs <;> rfl

@[simp] theorem State.create_pc : (State.create p).pc = 0 := State.create_x p _

variable {p}

/-- Creation with legal parameters meets the invariant: the registers are zeros and both stores list nothing. -/
theorem State.create_inv (hp : p.Legal) : (State.create p).Inv where
  params := hp
  ibound_le := Nat.zero_le _
  regs_length := List.length_replicate
  regs_word v hv := by
    rw [List.eq_of_mem_replicate hv]
    exact Nat.two_pow_pos _
  dmem_wf := rfl
  imem_wf := rfl
  dmem_cell := by simp
  imem_cell := by simp

/-- The reference parameters are within the ranges of R6. -/
theorem reference_params_legal : Params.reference.Legal := by constructor <;> decide

/-- Settles O20: creation meets the invariant (`State.create_inv`), and reset is a creation with legal parameters. -/
theorem resetMeetsTheInvariant : Obligations.ResetMeetsTheInvariant :=
  ⟨fun _ => State.create_inv, State.create_inv reference_params_legal⟩

/-- Settles O21: the values of creation, each said by its lemma, and the reference parameters. -/
theorem resetValuesOfTheMachine : Obligations.ResetValuesOfTheMachine := by
  refine ⟨fun p => ?_, rfl, rfl, rfl⟩
  exact ⟨State.create_dataAt p, State.create_ifetch p, State.create_ibound p, State.create_stopped p,
    State.create_loadFault p, State.create_pc p, State.create_x p, State.create_params p⟩

end Sys2Proof.Machine
end

/-! SUPPORT. Noninterference of the data cells outside the data region (R56): two machines that agree on all else take
the same step. Every operation reads a data cell only behind its check, so it cannot tell them apart, and what it does to
one it does to the other. -/

section
namespace Sys2Proof.Machine

variable {s t u : State}

/-! ## What two agreeing machines share -/

namespace State.DataAgrees

/-- What is computed without the data store is the same on both machines. -/
theorem eq_of_ignores_dmem {α : Type} (h : s.DataAgrees u) (f : State → α)
    (hf : ∀ (w : State) (m : Store), f { w with dmem := m } = f w) : f u = f s :=
  (congrArg f h.same).trans (hf s u.dmem)

theorem params (h : s.DataAgrees u) : u.params = s.params := h.eq_of_ignores_dmem _ fun _ _ => rfl
theorem stopped (h : s.DataAgrees u) : u.stopped = s.stopped := h.eq_of_ignores_dmem _ fun _ _ => rfl
theorem loadFault (h : s.DataAgrees u) : u.loadFault = s.loadFault := h.eq_of_ignores_dmem _ fun _ _ => rfl
theorem input (h : s.DataAgrees u) : u.input = s.input := h.eq_of_ignores_dmem _ fun _ _ => rfl
theorem x (h : s.DataAgrees u) (j : RegIdx) : u.x j = s.x j := h.eq_of_ignores_dmem (State.x · j) fun _ _ => rfl
theorem sp (h : s.DataAgrees u) : u.sp = s.sp := h.eq_of_ignores_dmem _ fun _ _ => rfl
theorem belowSp (h : s.DataAgrees u) : u.belowSp = s.belowSp := h.eq_of_ignores_dmem _ fun _ _ => rfl
theorem fetchDecode (h : s.DataAgrees u) : u.fetchDecode = s.fetchDecode := h.eq_of_ignores_dmem _ fun _ _ => rfl

theorem execValid (h : s.DataAgrees u) (a : Nat) : u.execValid a = s.execValid a :=
  h.eq_of_ignores_dmem (State.execValid · a) fun _ _ => rfl

theorem checkWrite (h : s.DataAgrees u) (a : Word) : u.checkWrite a = s.checkWrite a :=
  h.eq_of_ignores_dmem (State.checkWrite · a) fun _ _ => rfl

theorem addrOf (h : s.DataAgrees u) (o : Operand) : u.addrOf o = s.addrOf o := by
  cases o with
  | reg r => exact h.x r
  | const | char | addr => rfl

theorem dataCell_iff (h : s.DataAgrees u) {a : Nat} : u.DataCell a ↔ s.DataCell a :=
  iff_of_eq (h.eq_of_ignores_dmem (State.DataCell · a) fun _ _ => rfl)

/-- The check of a read leaves only cells on which the two machines agree. -/
theorem memRead (h : s.DataAgrees u) (a : Word) : u.memRead a = s.memRead a := by
  by_cases hc : s.DataCell a
  · rw [State.memRead_of_dataCell hc, State.memRead_of_dataCell (h.dataCell_iff.mpr hc), h.cells a hc]
  · rw [State.memRead_of_not_dataCell hc, State.memRead_of_not_dataCell (mt h.dataCell_iff.mp hc)]

theorem srcVal (h : s.DataAgrees u) (o : Operand) : u.srcVal o = s.srcVal o := by
  cases o with
  | reg r => exact congrArg Except.ok (h.x r)
  | const | char => rfl
  | addr a => exact h.memRead a

/-! ## The operations keep the agreement -/

theorem setX (h : s.DataAgrees u) (d : RegIdx) (v : Word) : (s.setX d v).DataAgrees (u.setX d v) :=
  ⟨congrArg (State.setX · d v) h.same, h.wf, h.wf', h.cells⟩

theorem setPc (h : s.DataAgrees u) (v : Word) : (s.setPc v).DataAgrees (u.setPc v) :=
  ⟨congrArg (State.setPc · v) h.same, h.wf, h.wf', h.cells⟩

theorem setSp (h : s.DataAgrees u) (v : Word) : (s.setSp v).DataAgrees (u.setSp v) :=
  ⟨congrArg (State.setSp · v) h.same, h.wf, h.wf', h.cells⟩

theorem advancePc (h : s.DataAgrees u) : s.advancePc.DataAgrees u.advancePc :=
  ⟨congrArg State.advancePc h.same, h.wf, h.wf', h.cells⟩

theorem emit (h : s.DataAgrees u) (b : Byte) : (s.emit b).DataAgrees (u.emit b) :=
  ⟨congrArg (State.emit · b) h.same, h.wf, h.wf', h.cells⟩

theorem stopWith (h : s.DataAgrees u) (e : Cause) : (s.stopWith e).DataAgrees (u.stopWith e) :=
  ⟨congrArg (State.stopWith · e) h.same, h.wf, h.wf', h.cells⟩

theorem withInput (h : s.DataAgrees u) (bs : List Byte) :
    State.DataAgrees { s with input := bs } { u with input := bs } :=
  ⟨congrArg (fun w : State => { w with input := bs }) h.same, h.wf, h.wf', h.cells⟩

/-- After a store both machines hold its value in its cell, and elsewhere what they held. -/
theorem setData (h : s.DataAgrees u) (a : Nat) (v : Word) : (s.setData a v).DataAgrees (u.setData a v) where
  same := congrArg (fun w : State => { w with dmem := u.dmem.write a v }) h.same
  wf := Store.wf_write h.wf a v
  wf' := Store.wf_write h.wf' a v
  cells k hk := by
    rw [State.setData_dataAt u h.wf', State.setData_dataAt s h.wf, h.cells k hk]

end State.DataAgrees

/-! ## Agreeing outcomes -/

/-- Two outcomes of one kind, for the same reason or with agreeing states. -/
inductive ResultsAgree : Result → Result → Prop where
  | next {t v : State} (h : t.DataAgrees v) : ResultsAgree (.next t) (.next v)
  | fault (r : Fault) : ResultsAgree (.fault r) (.fault r)
  | refused (r : Refusal) : ResultsAgree (.refused r) (.refused r)

theorem ResultsAgree.exists_next {r : Result} (h : ResultsAgree (.next t) r) :
    ∃ v, r = .next v ∧ t.DataAgrees v := by
  cases h with
  | next h => exact ⟨_, rfl, h⟩

theorem raise_agree (h : s.DataAgrees u) (e : Cause) : ResultsAgree (raise e s) (raise e u) := by
  unfold raise
  rw [h.stopped]
  split_ifs
  · exact .fault _
  · exact .next (h.stopWith e)

/-- Checks with one answer, and what follows them agreeing, make agreeing outcomes. -/
theorem onOk_agree {α : Type} {r : Except Cause α} {k k' : α → Result} (h : s.DataAgrees u)
    (hk : ∀ v, ResultsAgree (k v) (k' v)) : ResultsAgree (onOk r s k) (onOk r u k') := by
  cases r with
  | ok v => exact hk v
  | error e => exact raise_agree h e

/-! ## The shared meanings -/

theorem jumpTo_agree (h : s.DataAgrees u) (o : Operand) : ResultsAgree (jumpTo o s) (jumpTo o u) := by
  unfold jumpTo
  rw [h.addrOf, h.execValid]
  split_ifs
  · exact .next (h.setPc _)
  · exact raise_agree h _

theorem condOn_agree (h : s.DataAgrees u) (o : Operand) : ResultsAgree (condOn o s) (condOn o u) := by
  unfold condOn
  rw [h.srcVal]
  refine onOk_agree h fun v => ?_
  split_ifs
  · exact .next h.advancePc.advancePc
  · exact .next h.advancePc

theorem moveToReg_agree (h : s.DataAgrees u) (d : RegIdx) (o : Operand) :
    ResultsAgree (moveToReg d o s) (moveToReg d o u) := by
  unfold moveToReg
  rw [h.srcVal]
  exact onOk_agree h fun v => .next (h.setX d v).advancePc

/-- MemWrite is its check, then the store. -/
theorem onOk_memWrite (s : State) (a v : Word) (k : State → Result) :
    onOk (s.memWrite a v) s k = onOk (s.checkWrite a) s fun _ => k (s.setData a v) := by
  unfold State.memWrite
  cases s.checkWrite a <;> rfl

theorem moveToCell_agree (h : s.DataAgrees u) (d : Word) (o : Operand) :
    ResultsAgree (moveToCell d o s) (moveToCell d o u) := by
  unfold moveToCell
  simp only [onOk_memWrite, h.srcVal, h.checkWrite]
  exact onOk_agree h fun v => onOk_agree h fun _ => .next (h.setData d v).advancePc

theorem addInto_agree (h : s.DataAgrees u) (d : RegIdx) (a b : Operand) :
    ResultsAgree (addInto d a b s) (addInto d a b u) := by
  unfold addInto
  rw [h.srcVal a, h.srcVal b, h.params]
  exact onOk_agree h fun va => onOk_agree h fun vb => .next (h.setX d _).advancePc

theorem subInto_agree (h : s.DataAgrees u) (d : RegIdx) (a b : Operand) :
    ResultsAgree (subInto d a b s) (subInto d a b u) := by
  unfold subInto
  rw [h.srcVal a, h.srcVal b, h.params]
  exact onOk_agree h fun va => onOk_agree h fun vb => .next (h.setX d _).advancePc

theorem writeByte_agree (h : s.DataAgrees u) (o : Operand) : ResultsAgree (writeByte o s) (writeByte o u) := by
  unfold writeByte
  rw [h.srcVal]
  exact onOk_agree h fun v => .next (h.emit _).advancePc

theorem readInto_agree (h : s.DataAgrees u) (d : RegIdx) : ResultsAgree (readInto d s) (readInto d u) := by
  unfold readInto State.receive
  rw [h.input]
  cases s.input with
  | nil => exact .refused _
  | cons b rest => exact .next ((h.withInput rest).setX d _).advancePc

theorem loadInto_agree (h : s.DataAgrees u) (d : RegIdx) (o : Operand) :
    ResultsAgree (loadInto d o s) (loadInto d o u) := by
  unfold loadInto
  rw [h.addrOf, h.memRead]
  exact onOk_agree h fun v => .next (h.setX d v).advancePc

theorem storeAt_agree (h : s.DataAgrees u) (a o : Operand) : ResultsAgree (storeAt a o s) (storeAt a o u) := by
  unfold storeAt
  rw [h.addrOf, h.checkWrite, h.srcVal]
  exact onOk_agree h fun _ => onOk_agree h fun v => .next (h.setData _ v).advancePc

theorem pushValue_agree (h : s.DataAgrees u) (o : Operand) : ResultsAgree (pushValue o s) (pushValue o u) := by
  simp only [pushValue, State.setData_params, State.setData_sp]
  rw [h.sp, h.checkWrite, h.srcVal, h.params]
  exact onOk_agree h fun _ => onOk_agree h fun v => .next ((h.setData _ v).setSp _).advancePc

theorem popInto_agree (h : s.DataAgrees u) (d : RegIdx) : ResultsAgree (popInto d s) (popInto d u) := by
  unfold popInto
  rw [h.belowSp, h.memRead]
  refine onOk_agree h fun v => ?_
  dsimp only
  rw [(h.setX d v).belowSp]
  exact .next ((h.setX d v).setSp _).advancePc

/-! ## Every instruction, every step, every run -/

theorem exec_agree (h : s.DataAgrees u) (i : Instr) : ResultsAgree (exec i s) (exec i u) := by
  cases i
  case jumpR | jumpA =>
    simp only [exec_jumpR, exec_jumpA]
    exact jumpTo_agree h _
  case condR | condC | condA =>
    simp only [exec_condR, exec_condC, exec_condA]
    exact condOn_agree h _
  case moveRR | moveRC | moveRA =>
    simp only [exec_moveRR, exec_moveRC, exec_moveRA]
    exact moveToReg_agree h _ _
  case moveAR | moveAC | moveAA =>
    simp only [exec_moveAR, exec_moveAC, exec_moveAA]
    exact moveToCell_agree h _ _
  case addRRR | addRRC | addRRA | addRCR | addRCC | addRCA | addRAR | addRAC | addRAA =>
    simp only [exec_addRRR, exec_addRRC, exec_addRRA, exec_addRCR, exec_addRCC, exec_addRCA, exec_addRAR,
      exec_addRAC, exec_addRAA]
    exact addInto_agree h _ _ _
  case subRRR | subRRC | subRRA | subRCR | subRCC | subRCA | subRAR | subRAC | subRAA =>
    simp only [exec_subRRR, exec_subRRC, exec_subRRA, exec_subRCR, exec_subRCC, exec_subRCA, exec_subRAR,
      exec_subRAC, exec_subRAA]
    exact subInto_agree h _ _ _
  case writeH | writeC | writeR =>
    simp only [exec_writeH, exec_writeC, exec_writeR]
    exact writeByte_agree h _
  case readR => exact readInto_agree h _
  case loadRR | loadRC =>
    simp only [exec_loadRR, exec_loadRC]
    exact loadInto_agree h _ _
  case storeRR | storeRC | storeCR | storeCC =>
    simp only [exec_storeRR, exec_storeRC, exec_storeCR, exec_storeCC]
    exact storeAt_agree h _ _
  case pushR | pushC =>
    simp only [exec_pushR, exec_pushC]
    exact pushValue_agree h _
  case popR => exact popInto_agree h _
  case brk => exact raise_agree h _

/-- Agreeing machines take the same step: it goes on, faults or is refused in both alike. -/
theorem step_agree (h : s.DataAgrees u) : ResultsAgree (step s) (step u) := by
  unfold step
  rw [h.loadFault, h.stopped, h.fetchDecode]
  split_ifs
  · exact .refused _
  · exact .fault _
  · exact onOk_agree h (exec_agree h)

/-- Settles O28: induction along the run, each step matched by one of the other machine (`step_agree`). -/
theorem shadowedWordsAreNeverVisible : Obligations.ShadowedWordsAreNeverVisible := by
  intro s t u h r
  induction r generalizing u with
  | refl s => exact ⟨u, .refl u, h⟩
  | step hs _ ih =>
    obtain ⟨w, hw, hagree⟩ := (hs ▸ step_agree h).exists_next
    obtain ⟨v, hv, hv'⟩ := ih w hagree
    exact ⟨v, .step hw hv, hv'⟩

end Sys2Proof.Machine
end


/-! SUPPORT. An instruction that accesses, read or write, an address outside the data region raises AccessViolation,
whatever the instruction and whichever of its accesses it is (R45, R49, R161); so no data access reaches the code (R54). -/

section

/-- The data addresses that a source operand reads (R104). -/
def Sys2Proof.Operand.reads : Sys2Proof.Operand → List Sys2Proof.Word
  | .addr a => [a]
  | .reg _ | .const _ | .char _ => []

namespace Sys2Proof.Machine

variable {s : State} {a : Word}

theorem State.srcVal_of_not_dataCell {o : Operand} (ha : a ∈ o.reads) (hc : ¬ s.DataCell a) :
    s.srcVal o = .error .accessViolation := by
  cases o with
  | addr b =>
    obtain rfl : a = b := List.mem_singleton.mp ha
    exact State.memRead_of_not_dataCell hc
  | reg | const | char => cases ha

/-- A check that can only answer AccessViolation, before what raises it too. -/
theorem onOk_eq_raise {α : Type} {r : Except Cause α} {k : α → Result}
    (hr : ∀ e, r = .error e → e = .accessViolation) (hk : ∀ v, k v = raise .accessViolation s) :
    onOk r s k = raise .accessViolation s := by
  cases r with
  | ok v => exact hk v
  | error e => rw [hr e rfl, onOk_error]

/-- The meanings that start with the read of one source. -/
theorem onOk_srcVal_raises {o : Operand} (ha : a ∈ o.reads) (hc : ¬ s.DataCell a) (k : Word → Result) :
    onOk (s.srcVal o) s k = raise .accessViolation s := by
  rw [State.srcVal_of_not_dataCell ha hc, onOk_error]

/-- The meanings that start with the reads of two sources. -/
theorem onOk_srcVal_srcVal_raises {o o' : Operand} (ha : a ∈ o.reads ++ o'.reads) (hc : ¬ s.DataCell a)
    (k : Word → Word → Result) :
    (onOk (s.srcVal o) s fun v => onOk (s.srcVal o') s (k v)) = raise .accessViolation s := by
  rcases List.mem_append.mp ha with h | h
  · exact onOk_srcVal_raises h hc _
  · exact onOk_eq_raise (fun _ => State.srcVal_error) fun v => onOk_srcVal_raises h hc (k v)

theorem moveToCell_raises {d : Word} {o : Operand} (ha : a ∈ o.reads ++ [d]) (hc : ¬ s.DataCell a) :
    moveToCell d o s = raise .accessViolation s := by
  rcases List.mem_append.mp ha with h | h
  · exact onOk_srcVal_raises h hc _
  · obtain rfl : a = d := List.mem_singleton.mp h
    refine onOk_eq_raise (fun _ => State.srcVal_error) fun v => ?_
    rw [State.memWrite_of_not_dataCell hc, onOk_error]

theorem loadInto_raises {d : RegIdx} {o : Operand} (hc : ¬ s.DataCell (s.addrOf o)) :
    loadInto d o s = raise .accessViolation s := by
  rw [loadInto, State.memRead_of_not_dataCell hc, onOk_error]

theorem storeAt_raises {o o' : Operand} (hc : ¬ s.DataCell (s.addrOf o)) :
    storeAt o o' s = raise .accessViolation s := by
  rw [storeAt, State.checkWrite_of_not_dataCell hc, onOk_error]

theorem pushValue_raises {o : Operand} (hc : ¬ s.DataCell s.sp) : pushValue o s = raise .accessViolation s := by
  rw [pushValue, State.checkWrite_of_not_dataCell hc, onOk_error]

theorem popInto_raises {d : RegIdx} (hc : ¬ s.DataCell s.belowSp) : popInto d s = raise .accessViolation s := by
  rw [popInto, State.memRead_of_not_dataCell hc, onOk_error]

/-- Every instruction checks each of its accesses, before it has any effect. -/
theorem exec_of_not_dataCell {i : Instr} (ha : a ∈ s.accesses i) (hc : ¬ s.DataCell a) :
    exec i s = raise .accessViolation s := by
  cases i
  case jumpR | jumpA | readR | brk => cases ha
  case condR | condC | condA =>
    simp only [exec_condR, exec_condC, exec_condA, condOn]
    exact onOk_srcVal_raises ha hc _
  case moveRR | moveRC | moveRA =>
    simp only [exec_moveRR, exec_moveRC, exec_moveRA, moveToReg]
    exact onOk_srcVal_raises ha hc _
  case moveAR | moveAC | moveAA =>
    simp only [exec_moveAR, exec_moveAC, exec_moveAA]
    exact moveToCell_raises ha hc
  case addRRR | addRRC | addRRA | addRCR | addRCC | addRCA | addRAR | addRAC | addRAA =>
    simp only [exec_addRRR, exec_addRRC, exec_addRRA, exec_addRCR, exec_addRCC, exec_addRCA, exec_addRAR,
      exec_addRAC, exec_addRAA, addInto]
    exact onOk_srcVal_srcVal_raises ha hc _
  case subRRR | subRRC | subRRA | subRCR | subRCC | subRCA | subRAR | subRAC | subRAA =>
    simp only [exec_subRRR, exec_subRRC, exec_subRRA, exec_subRCR, exec_subRCC, exec_subRCA, exec_subRAR,
      exec_subRAC, exec_subRAA, subInto]
    exact onOk_srcVal_srcVal_raises ha hc _
  case writeH | writeC | writeR =>
    simp only [exec_writeH, exec_writeC, exec_writeR, writeByte]
    exact onOk_srcVal_raises ha hc _
  case loadRR | loadRC =>
    obtain rfl := List.mem_singleton.mp ha
    simp only [exec_loadRR, exec_loadRC]
    exact loadInto_raises hc
  case storeRR | storeRC | storeCR | storeCC =>
    obtain rfl := List.mem_singleton.mp ha
    simp only [exec_storeRR, exec_storeRC, exec_storeCR, exec_storeCC]
    exact storeAt_raises hc
  case pushR | pushC =>
    obtain rfl := List.mem_singleton.mp ha
    simp only [exec_pushR, exec_pushC]
    exact pushValue_raises hc
  case popR =>
    obtain rfl := List.mem_singleton.mp ha
    exact popInto_raises hc

theorem raises_of_not_dataCell {i : Instr} (hs : s.stopped = false) (ha : a ∈ s.accesses i) (hc : ¬ s.DataCell a) :
    Raises i s .accessViolation :=
  (exec_of_not_dataCell ha hc).trans (raise_running hs _)

/-- Settles O23: no run changes the program (`Reaches.sameProgram`), and an address below IBOUND is no data cell
(`raises_of_not_dataCell`). -/
theorem codeIsConstantAndUnreachableForData : Obligations.CodeIsConstantAndUnreachableForData := by
  refine ⟨fun s t r => ?_, fun i s hs ⟨a, ha, hlt⟩ => ?_⟩
  · have hp := r.sameProgram
    exact ⟨hp.imem, hp.ibound, fun a => congrArg (Store.read · a) hp.imem⟩
  · exact raises_of_not_dataCell hs ha fun hc => Nat.not_lt.mpr hc.1 hlt

end Sys2Proof.Machine
end

/-! SUPPORT. The data cells after a store, after an effect, and after a step; and MemRead and MemWrite (R47 to R49). -/

section
namespace Sys2Proof.Machine

variable {s t : State}

theorem State.setData_onlyCellBecomes (hm : Store.wf s.dmem = true) (a : Nat) (v : Word) :
    s.OnlyCellBecomes a v (s.setData a v) :=
  fun k => State.setData_dataAt s hm a k v

theorem State.setData_sameButRegsData (a : Nat) (v : Word) : s.SameButRegsData (s.setData a v) :=
  ⟨rfl, rfl, rfl, rfl, rfl, rfl, rfl, rfl⟩

/-- A cell that differs is the one that was stored to. -/
theorem State.OnlyCellBecomes.eq_of_ne {a k : Nat} {v : Word} (h : s.OnlyCellBecomes a v t)
    (hk : t.dataAt k ≠ s.dataAt k) : k = a := by
  by_contra hne
  exact hk ((h k).trans (if_neg hne))

/-- An effect leaves every data cell, or stores in one cell of the data region. -/
theorem Effect.dataAt (he : Effect s t) (hm : Store.wf s.dmem = true) :
    (∀ k, t.dataAt k = s.dataAt k) ∨ ∃ a v, s.DataCell a ∧ s.OnlyCellBecomes a v t := by
  cases he with
  | regs | sent | received | raised => exact .inl fun _ => rfl
  | data r a v hc => exact .inr ⟨a, v, hc, State.setData_onlyCellBecomes hm a v⟩

/-- Settles O25: the step's effect stores in at most one cell, a cell of the data region (`Effect.dataAt`). -/
theorem stepChangesAtMostOneDataCellOfTheDataRegion :
    Obligations.StepChangesAtMostOneDataCellOfTheDataRegion := by
  intro s t hi hs
  rcases (step_effect hs).dataAt hi.dmem_wf with hsame | ⟨c, v, hc, hcell⟩
  · exact ⟨fun a ha => absurd (hsame a) ha, fun a _ ha _ => absurd (hsame a) ha⟩
  · exact ⟨fun a ha => hcell.eq_of_ne ha ▸ hc, fun a b ha hb => (hcell.eq_of_ne ha).trans (hcell.eq_of_ne hb).symm⟩

/-- Settles O6: what MemRead answers inside and outside the data region, and what an unlisted cell holds. -/
theorem memReadAnswersTheCellOrAccessViolation : Obligations.MemReadAnswersTheCellOrAccessViolation :=
  fun _ _ => ⟨State.memRead_of_dataCell, State.memRead_of_not_dataCell, Store.read_unlisted⟩

/-- Settles O7: what MemWrite answers inside and outside the data region, and the frame of the store; the invariant gives
the canonical form that a read after a write needs. -/
theorem memWriteReplacesOneCellOrAccessViolation : Obligations.MemWriteReplacesOneCellOrAccessViolation := by
  intro s a v hi
  refine ⟨fun hc => ⟨s.setData a v, ?_, ?_, ?_, ?_⟩, State.memWrite_of_not_dataCell⟩
  · exact State.memWrite_of_dataCell hc
  · exact State.setData_onlyCellBecomes hi.dmem_wf a v
  · exact State.setData_regs s a v
  · exact State.setData_sameButRegsData a v

end Sys2Proof.Machine
end

/-! SUPPORT. The decoder as an iff: a record decodes to an instruction exactly when its header fields are the opcode
number and the kind codes of R65 and its slots read as the instruction's operands. The round trip of encoder and decoder
(R69) and the well-formedness that the decoder follows (R69, R70) are read off it. -/

section
namespace Sys2Proof

open Sys2Proof.Laws (opNumber kindCode codeAt HeaderSays)

variable {p : Params}

/-! ## Which opcodes and operands make an instruction (R63, R67) -/

theorem Operand.kind_eq_register {o : Operand} : o.kind = .register ↔ ∃ r, o = .reg r := by
  cases o <;> simp [Operand.kind]

theorem Operand.kind_eq_address {o : Operand} : o.kind = .address ↔ ∃ a, o = .addr a := by
  cases o <;> simp [Operand.kind]

theorem Operand.kind_eq_constant {o : Operand} : o.kind = .constant ↔ ∃ c, o = .const c := by
  cases o <;> simp [Operand.kind]

theorem Operand.kind_eq_character {o : Operand} : o.kind = .character ↔ ∃ b, o = .char b := by
  cases o <;> simp [Operand.kind]

/-- No positions are left: no operand may be. -/
theorem kindsLegal_nil {os : List Operand} : kindsLegal [] os = true ↔ os = [] := by
  cases os <;> simp [kindsLegal]

/-- A position takes the first operand, of one of its legal kinds, and the rest takes the rest. -/
theorem kindsLegal_cons {ks : List Kind} {kss : List (List Kind)} {os : List Operand} :
    kindsLegal (ks :: kss) os = true ↔ ∃ o rest, os = o :: rest ∧ o.kind ∈ ks ∧ kindsLegal kss rest = true := by
  cases os with
  | nil => simp [kindsLegal]
  | cons o rest => simp [kindsLegal]

/-- Whether operands are legal depends on their kinds alone. -/
theorem kindsLegal_congr {kss : List (List Kind)} {os os' : List Operand}
    (h : os'.map Operand.kind = os.map Operand.kind) : kindsLegal kss os' = kindsLegal kss os := by
  induction kss generalizing os os' with
  | nil => cases os <;> cases os' <;> simp_all [kindsLegal]
  | cons ks kss ih =>
    cases os with
    | nil => simp_all
    | cons o os =>
      obtain ⟨o', rest, rfl, ho, hrest⟩ := List.map_eq_cons_iff.mp h
      simp only [kindsLegal, ho, ih hrest]

theorem wellFormedOperands_congr {op : Opcode} {os os' : List Operand}
    (h : os'.map Operand.kind = os.map Operand.kind) : wellFormedOperands op os' = wellFormedOperands op os := by
  have hlen : os'.length = os.length := by simpa using congrArg List.length h
  rw [wellFormedOperands, wellFormedOperands, kindsLegal_congr h, hlen]

/-- Operands of legal kinds are those of a form: the table of R67 lists no other. -/
theorem ofOperands_of_kindsLegal {op : Opcode} {os : List Operand} (h : kindsLegal op.legalKinds os = true) :
    ∃ i, Instr.ofOperands op os = some i := by
  cases op <;>
    simp only [Opcode.legalKinds, kindsLegal_cons, kindsLegal_nil, List.mem_cons, List.not_mem_nil, or_false,
      Operand.kind_eq_register, Operand.kind_eq_address, Operand.kind_eq_constant, Operand.kind_eq_character] at h
  case brk => subst h; exact ⟨_, rfl⟩
  case jump | push =>
    obtain ⟨_, _, rfl, ⟨_, rfl⟩ | ⟨_, rfl⟩, rfl⟩ := h <;> exact ⟨_, rfl⟩
  case cond | write =>
    obtain ⟨_, _, rfl, ⟨_, rfl⟩ | ⟨_, rfl⟩ | ⟨_, rfl⟩, rfl⟩ := h <;> exact ⟨_, rfl⟩
  case read | pop =>
    obtain ⟨_, _, rfl, ⟨_, rfl⟩, rfl⟩ := h; exact ⟨_, rfl⟩
  case move =>
    obtain ⟨_, _, rfl, ⟨_, rfl⟩ | ⟨_, rfl⟩, _, _, rfl, ⟨_, rfl⟩ | ⟨_, rfl⟩ | ⟨_, rfl⟩, rfl⟩ := h <;> exact ⟨_, rfl⟩
  case load =>
    obtain ⟨_, _, rfl, ⟨_, rfl⟩, _, _, rfl, ⟨_, rfl⟩ | ⟨_, rfl⟩, rfl⟩ := h <;> exact ⟨_, rfl⟩
  case store =>
    obtain ⟨_, _, rfl, ⟨_, rfl⟩ | ⟨_, rfl⟩, _, _, rfl, ⟨_, rfl⟩ | ⟨_, rfl⟩, rfl⟩ := h <;> exact ⟨_, rfl⟩
  case add | sub =>
    obtain ⟨_, _, rfl, ⟨_, rfl⟩, _, _, rfl, ha, _, _, rfl, hb, rfl⟩ := h
    obtain ⟨_, rfl⟩ | ⟨_, rfl⟩ | ⟨_, rfl⟩ := ha <;> obtain ⟨_, rfl⟩ | ⟨_, rfl⟩ | ⟨_, rfl⟩ := hb <;> exact ⟨_, rfl⟩

theorem ofOperands_isSome_iff {op : Opcode} {os : List Operand} :
    (∃ i, Instr.ofOperands op os = some i) ↔ wellFormedOperands op os = true := by
  constructor
  · rintro ⟨i, hi⟩
    obtain ⟨rfl, rfl⟩ := ofOperands_some hi
    exact i.form_legal
  · intro h
    rw [wellFormedOperands, Bool.and_eq_true] at h
    exact ofOperands_of_kindsLegal h.2

/-- Settles O5: operands of legal kinds make an instruction (`ofOperands_of_kindsLegal`), and every instruction is a legal
form of its own opcode and operands. -/
theorem operandsMakeAnInstructionIffLegal : Obligations.OperandsMakeAnInstructionIffLegal := by
  intro op os
  refine ⟨ofOperands_isSome_iff, fun i hi => ?_⟩
  obtain ⟨hop, hos⟩ := ofOperands_some hi
  exact ⟨hop.symm, hos.symm⟩

/-! ## Slots: the kind code and the payload of an operand that may be absent (R65, R69) -/

/-- The kind code of a slot, 0 for an absent operand. -/
def slotCode (o : Option Operand) : Nat := (o.map fun a => kindCode a.kind).getD 0

/-- The payload of a slot, 0 for an absent operand. -/
def slotPayload (o : Option Operand) : Word := (o.map Operand.payload).getD 0

theorem Instr.slot_eq_slotPayload (i : Instr) (n : Nat) : i.slot n = slotPayload i.operands[n]? := by
  unfold Instr.slot slotPayload
  cases i.operands[n]? <;> rfl

theorem slotCode_le (o : Option Operand) : slotCode o ≤ 4 := by
  rcases o with _ | (_ | _ | _ | _) <;> simp [slotCode, kindCode, Operand.kind]

theorem codeAt_le (i : Instr) (n : Nat) : codeAt i n ≤ 4 := slotCode_le _

theorem kindCode_pos (k : Kind) : 0 < kindCode k := by cases k <;> decide

theorem kindCode_inj {k k' : Kind} (h : kindCode k = kindCode k') : k = k' := by
  cases k <;> cases k' <;> revert h <;> decide

/-- The kind code of a slot says whether there is an operand and of which kind. -/
theorem slotCode_inj {o o' : Option Operand} (h : slotCode o = slotCode o') :
    o.map Operand.kind = o'.map Operand.kind := by
  cases o with
  | none =>
    cases o' with
    | none => rfl
    | some b => exact absurd h (kindCode_pos b.kind).ne
  | some a =>
    cases o' with
    | none => exact absurd h (kindCode_pos a.kind).ne'
    | some b => exact congrArg some (kindCode_inj h)

/-- A slot reads as an operand, or as none, exactly when it holds that operand's kind code and payload, a register in
range. -/
theorem slotOperand_ok_iff {k : BitVec 3} {v : Word} {o : Option Operand} :
    slotOperand p k v = .ok o ↔
      k.toNat = slotCode o ∧ v = slotPayload o ∧ ∀ r, o = some (.reg r) → r < p.nreg := by
  constructor
  · intro h
    rcases slotOperand_ok h with ⟨rfl, rfl, rfl⟩ | ⟨rfl, hr, rfl⟩ | ⟨rfl, rfl⟩ | ⟨rfl, rfl⟩ | ⟨b, rfl, rfl, rfl⟩
    · exact ⟨rfl, rfl, by simp⟩
    · exact ⟨rfl, rfl, by simpa using hr⟩
    · exact ⟨rfl, rfl, by simp⟩
    · exact ⟨rfl, rfl, by simp⟩
    · exact ⟨rfl, rfl, by simp⟩
  · rintro ⟨hk, rfl, hr⟩
    obtain rfl : k = BitVec.ofNat 3 (slotCode o) := by rw [← hk, BitVec.ofNat_toNat, BitVec.setWidth_eq]
    rcases o with _ | (r | a | c | b)
    · exact slotOperand_absent
    · exact slotOperand_reg (hr r rfl)
    · exact slotOperand_addr a
    · exact slotOperand_const c
    · exact slotOperand_char b

/-- A slot reads as something exactly when it is well formed and its kind code is not a reserved one. -/
theorem slotOperand_isOk_iff {k : BitVec 3} {v : Word} :
    (∃ o, slotOperand p k v = .ok o) ↔ slotWellFormed p k v = true ∧ k.toNat ≤ 4 := by
  unfold slotOperand slotWellFormed
  split
  case h_1 h | h_2 h | h_5 h => split_ifs with hv <;> simp [h, hv]
  case h_3 h | h_4 h => simp [h]
  case h_6 =>
    have reserved : ¬ k.toNat ≤ 4 := by lia
    simp [reserved]

/-! ## The operand list of three slots -/

/-- Three slots give an operand list exactly when they are its positions 0, 1 and 2 and it has no further. -/
theorem operandList_eq_some_iff {s0 s1 s2 : Option Operand} {os : List Operand} :
    operandList s0 s1 s2 = some os ↔ os.length ≤ 3 ∧ s0 = os[0]? ∧ s1 = os[1]? ∧ s2 = os[2]? := by
  constructor
  · intro h
    unfold operandList at h
    split at h <;> simp at h <;> subst h <;> simp
  · rintro ⟨hlen, rfl, rfl, rfl⟩
    match os, hlen with
    | [], _ | [_], _ | [_, _], _ | [_, _, _], _ => rfl

/-- Slots of the kinds of an operand list give an operand list of those kinds. -/
theorem operandList_of_kinds {s0 s1 s2 : Option Operand} {os : List Operand} (hlen : os.length ≤ 3)
    (h0 : s0.map Operand.kind = os[0]?.map Operand.kind) (h1 : s1.map Operand.kind = os[1]?.map Operand.kind)
    (h2 : s2.map Operand.kind = os[2]?.map Operand.kind) :
    ∃ os', operandList s0 s1 s2 = some os' ∧ os'.map Operand.kind = os.map Operand.kind := by
  have absent {s : Option Operand} (h : s.map Operand.kind = none) : s = none := Option.map_eq_none_iff.mp h
  have present {s : Option Operand} {k : Kind} (h : s.map Operand.kind = some k) : ∃ o, s = some o ∧ o.kind = k :=
    Option.map_eq_some_iff.mp h
  match os, hlen with
  | [], _ =>
    rw [absent h0, absent h1, absent h2]
    exact ⟨[], rfl, rfl⟩
  | [a], _ =>
    obtain ⟨a', rfl, ha⟩ := present h0
    rw [absent h1, absent h2]
    exact ⟨[a'], rfl, by simp [ha]⟩
  | [a, b], _ =>
    obtain ⟨a', rfl, ha⟩ := present h0
    obtain ⟨b', rfl, hb⟩ := present h1
    rw [absent h2]
    exact ⟨[a', b'], rfl, by simp [ha, hb]⟩
  | [a, b, c], _ =>
    obtain ⟨a', rfl, ha⟩ := present h0
    obtain ⟨b', rfl, hb⟩ := present h1
    obtain ⟨c', rfl, hc⟩ := present h2
    exact ⟨[a', b', c'], rfl, by simp [ha, hb, hc]⟩

theorem Instr.length_operands (i : Instr) : i.operands.length = i.opcode.operandCount := by cases i <;> rfl

theorem Opcode.operandCount_le (op : Opcode) : op.operandCount ≤ 3 := by cases op <;> decide

theorem Instr.length_operands_le (i : Instr) : i.operands.length ≤ 3 :=
  i.length_operands ▸ i.opcode.operandCount_le

/-! ## The decoder -/

theorem opcodeOf_eq_some_iff {b : BitVec 4} {op : Opcode} : opcodeOf b = some op ↔ b.toNat = opNumber op := by
  cases op <;> revert b <;> decide

theorem opNumber_pos (op : Opcode) : 0 < opNumber op := by cases op <;> decide

theorem decodeSlots_eq_instr_iff {op : Opcode} {s0 s1 s2 : Option Operand} {i : Instr} :
    decodeSlots op s0 s1 s2 = .instr i ↔ op = i.opcode ∧ operandList s0 s1 s2 = some i.operands := by
  constructor
  · intro h
    unfold decodeSlots at h
    split at h
    · cases h
    · rename_i os hos
      split_ifs at h
      split at h
      · rename_i j hj
        cases h
        obtain ⟨rfl, rfl⟩ := ofOperands_some hj
        exact ⟨rfl, hos⟩
      · cases h
  · rintro ⟨rfl, hos⟩
    simp [decodeSlots, hos, i.length_operands, ofOperands_operands]

theorem decodeSlots_ne_null {op : Opcode} {s0 s1 s2 : Option Operand} : decodeSlots op s0 s1 s2 ≠ .null := by
  unfold decodeSlots
  split
  · exact nofun
  · split_ifs
    · split <;> exact nofun
    · exact nofun

/-- What a record has that decodes to `i`, and all it needs. -/
theorem decodeFields_eq_instr_iff {f : Fields} {i : Instr} :
    decodeFields p f = .instr i ↔
      f.op.toNat = opNumber i.opcode ∧ f.rsv = 0 ∧ slotOperand p f.k0 f.v0 = .ok i.operands[0]? ∧
        slotOperand p f.k1 f.v1 = .ok i.operands[1]? ∧ slotOperand p f.k2 f.v2 = .ok i.operands[2]? := by
  constructor
  · intro h
    obtain ⟨hop, hrsv, s0, s1, s2, e0, e1, e2, hos⟩ := decodeFields_instr h
    obtain ⟨_, rfl, rfl, rfl⟩ := operandList_eq_some_iff.mp hos
    exact ⟨opcodeOf_eq_some_iff.mp hop, hrsv, e0, e1, e2⟩
  · rintro ⟨hop, hrsv, e0, e1, e2⟩
    have hne : f.op ≠ 0 := fun h0 => by
      have := opNumber_pos i.opcode
      rw [← hop, h0] at this
      exact absurd this (by decide)
    have hos : operandList i.operands[0]? i.operands[1]? i.operands[2]? = some i.operands :=
      operandList_eq_some_iff.mpr ⟨i.length_operands_le, rfl, rfl, rfl⟩
    rw [decodeFields, if_neg hne, opcodeOf_eq_some_iff.mpr hop]
    simp only [hrsv, if_true, e0, e1, e2]
    exact decodeSlots_eq_instr_iff.mpr ⟨rfl, hos⟩

/-! ## Headers -/

theorem Instr.headerSays (i : Instr) : HeaderSays i.header i := by
  cases i <;> simp only [Instr.header] <;> exact ⟨rfl, rfl, rfl, rfl, rfl⟩

/-- The header of a record is `h` exactly when its fields are the slices of `h` (R64). -/
theorem Fields.hdr_eq_toNat_iff {f : Fields} {h : Header} :
    f.hdr = h.toNat ↔
      f.op.toNat = (h.extractLsb' 12 4).toNat ∧ f.k0.toNat = (h.extractLsb' 9 3).toNat ∧
        f.k1.toNat = (h.extractLsb' 6 3).toNat ∧ f.k2.toNat = (h.extractLsb' 3 3).toNat ∧
        f.rsv.toNat = (h.extractLsb' 0 3).toNat := by
  have := f.k0.isLt; have := f.k1.isLt; have := f.k2.isLt; have := f.rsv.isLt; have := h.isLt
  simp only [Fields.hdr, BitVec.extractLsb'_toNat, Nat.shiftRight_eq_div_pow]
  omega

/-- The header of a record is the one of the form of `i` exactly when its fields are the numbers of R65. -/
theorem Fields.hdr_eq_header_iff {f : Fields} {i : Instr} :
    f.hdr = i.header.toNat ↔
      f.op.toNat = opNumber i.opcode ∧ f.k0.toNat = codeAt i 0 ∧ f.k1.toNat = codeAt i 1 ∧
        f.k2.toNat = codeAt i 2 ∧ f.rsv.toNat = 0 := by
  obtain ⟨hop, h0, h1, h2, hrsv⟩ := i.headerSays
  rw [Fields.hdr_eq_toNat_iff, hop, h0, h1, h2, hrsv]

/-- A record that decodes to `i` has the header of the form of `i`, and its payloads in their slots. -/
theorem decodeFields_spells {f : Fields} {i : Instr} (h : decodeFields p f = .instr i) :
    f.hdr = i.header.toNat ∧ f.v0 = i.slot 0 ∧ f.v1 = i.slot 1 ∧ f.v2 = i.slot 2 := by
  obtain ⟨hop, hrsv, e0, e1, e2⟩ := decodeFields_eq_instr_iff.mp h
  obtain ⟨k0, v0, _⟩ := slotOperand_ok_iff.mp e0
  obtain ⟨k1, v1, _⟩ := slotOperand_ok_iff.mp e1
  obtain ⟨k2, v2, _⟩ := slotOperand_ok_iff.mp e2
  simp only [Instr.slot_eq_slotPayload]
  exact ⟨Fields.hdr_eq_header_iff.mpr ⟨hop, k0, k1, k2, by rw [hrsv]; rfl⟩, v0, v1, v2⟩

/-! ## Encode, then decode -/

/-- A slot with the kind code and the payload of an operand of a well-formed instruction reads as that operand. -/
theorem Instr.slotOperand_slot {i : Instr} (hi : i.wellFormed p = true) {k : BitVec 3} {n : Nat}
    (hk : k.toNat = codeAt i n) : slotOperand p k (i.slot n) = .ok i.operands[n]? := by
  refine slotOperand_ok_iff.mpr ⟨hk, i.slot_eq_slotPayload n, fun r hr => ?_⟩
  exact of_decide_eq_true (Instr.wellFormed_iff.mp hi _ (List.mem_of_getElem? hr))

theorem decode_encode (hp : p.Legal) {i : Instr} (hi : i.wellFormed p = true) :
    decode p (encode p i) = .instr i := by
  obtain ⟨hop, h0, h1, h2, hrsv⟩ := i.headerSays
  rw [decode, fieldsOf_encode hp hi]
  refine decodeFields_eq_instr_iff.mpr ⟨hop, BitVec.eq_of_toNat_eq hrsv, ?_, ?_, ?_⟩
  · exact Instr.slotOperand_slot hi h0
  · exact Instr.slotOperand_slot hi h1
  · exact Instr.slotOperand_slot hi h2

/-- Settles O1: the encoding has ILEN bits, and its fields say the form and the operands (`decode_encode`). -/
theorem encodedInstructionDecodesToItself : Obligations.EncodedInstructionDecodesToItself :=
  fun _ _ hp hi => ⟨encode_lt hp hi, decode_encode hp hi⟩

/-! ## Decode, then encode -/

/-- A number is its part above the low `n` bits with the low `n` bits behind it. -/
theorem concat_div_slice (n v : Nat) : concat n (v / 2 ^ n) (slice v 0 n) = v := by
  rw [concat, slice, pow_zero, Nat.div_one, Nat.div_add_mod']

/-- A number of 16 bits is made up of the slices that R64 gives the header. -/
theorem header_slices {n : Nat} (h : n < 2 ^ 16) :
    slice n 12 4 * 4096 + slice n 9 3 * 512 + slice n 6 3 * 64 + slice n 3 3 * 8 + slice n 0 3 = n := by
  simp only [slice]
  omega

/-- The header of a record of ILEN bits is what stands above its three slots. -/
theorem fieldsOf_hdr {r : Record} (hr : r < 2 ^ p.ilen) :
    (fieldsOf p r).hdr = r / 2 ^ p.xlen / 2 ^ p.xlen / 2 ^ p.xlen := by
  have hlt : r / 2 ^ p.xlen / 2 ^ p.xlen / 2 ^ p.xlen < 2 ^ 16 := by
    rw [Nat.div_div_eq_div_mul, Nat.div_div_eq_div_mul]
    refine Nat.div_lt_of_lt_mul (lt_of_lt_of_eq hr ?_)
    rw [Params.ilen]; ring
  have high : ∀ lo n,
      slice r (3 * p.xlen + lo) n = slice (r / 2 ^ p.xlen / 2 ^ p.xlen / 2 ^ p.xlen) lo n := fun lo n => by
    rw [show 3 * p.xlen + lo = p.xlen + (p.xlen + (p.xlen + lo)) by omega, slice_add, slice_add, slice_add]
  have low := high 0 3
  rw [Nat.add_zero] at low
  simp only [Fields.hdr, fieldsOf, high, low, BitVec.toNat_ofNat, Nat.mod_eq_of_lt (slice_lt _ _ _)]
  exact header_slices hlt

/-- The fields of a record of ILEN bits make it up again. -/
theorem mkRecord_fieldsOf {r : Record} {h : Header} (hr : r < 2 ^ p.ilen) (hh : (fieldsOf p r).hdr = h.toNat) :
    mkRecord p h (fieldsOf p r).v0 (fieldsOf p r).v1 (fieldsOf p r).v2 = r := by
  have e0 : (fieldsOf p r).v0 = slice (r / 2 ^ p.xlen / 2 ^ p.xlen) 0 p.xlen := by
    rw [← slice_add, ← slice_add, Nat.add_zero, ← Nat.two_mul, fieldsOf]
  have e1 : (fieldsOf p r).v1 = slice (r / 2 ^ p.xlen) 0 p.xlen := by
    rw [← slice_add, Nat.add_zero, fieldsOf]
  have e2 : (fieldsOf p r).v2 = slice r 0 p.xlen := rfl
  rw [mkRecord, ← hh, fieldsOf_hdr hr, e0, e1, e2, concat_div_slice, concat_div_slice, concat_div_slice]

theorem eq_encode_of_decode {r : Record} {i : Instr} (hr : r < 2 ^ p.ilen) (h : decode p r = .instr i) :
    r = encode p i := by
  obtain ⟨hhdr, h0, h1, h2⟩ := decodeFields_spells h
  rw [encode, ← h0, ← h1, ← h2, mkRecord_fieldsOf hr hhdr]

/-- Settles O2: the record has the header and the slots of `i` (`decodeFields_spells`), and a record of ILEN bits is
made up of its fields. -/
theorem decodedRecordIsTheEncoding : Obligations.DecodedRecordIsTheEncoding :=
  fun _ _ _ hr h => ⟨decode_wellFormed h, eq_encode_of_decode hr h⟩

/-! ## Which records decode (R69, R70) -/

/-- One instruction of each of the 43 forms, in the order of R68's table. -/
def formExamples : List Instr :=
  [.jumpR 0, .jumpA 0, .condR 0, .condC 0, .condA 0, .moveRR 0 0, .moveRC 0 0, .moveRA 0 0, .moveAR 0 0, .moveAC 0 0,
    .moveAA 0 0, .addRRR 0 0 0, .addRRC 0 0 0, .addRRA 0 0 0, .addRCR 0 0 0, .addRCC 0 0 0, .addRCA 0 0 0,
    .addRAR 0 0 0, .addRAC 0 0 0, .addRAA 0 0 0, .subRRR 0 0 0, .subRRC 0 0 0, .subRRA 0 0 0, .subRCR 0 0 0,
    .subRCC 0 0 0, .subRCA 0 0 0, .subRAR 0 0 0, .subRAC 0 0 0, .subRAA 0 0 0, .writeH 0, .writeC 0, .writeR 0,
    .readR 0, .loadRR 0 0, .loadRC 0 0, .storeRR 0 0, .storeRC 0 0, .storeCR 0 0, .storeCC 0 0, .pushR 0, .pushC 0,
    .popR 0, .brk]

theorem formExamples_headers : formExamples.map (fun i => i.header.toNat) = formHeaders := by decide

/-- The headers of R68's table are the headers of instructions, and of nothing else. -/
theorem mem_formHeaders_iff {n : Nat} : n ∈ formHeaders ↔ ∃ i : Instr, i.header.toNat = n := by
  constructor
  · intro h
    rw [← formExamples_headers] at h
    obtain ⟨i, _, hi⟩ := List.mem_map.mp h
    exact ⟨i, hi⟩
  · rintro ⟨i, rfl⟩
    rw [← List.contains_iff_mem]
    cases i <;> rfl

/-- A record with the header of the form of `i` whose slots all read as something decodes to an instruction: the kind
codes make the operands of the kinds of `i`, which are legal for its opcode. -/
theorem decodeFields_isInstr {f : Fields} {i : Instr} {s0 s1 s2 : Option Operand} (hh : f.hdr = i.header.toNat)
    (e0 : slotOperand p f.k0 f.v0 = .ok s0) (e1 : slotOperand p f.k1 f.v1 = .ok s1)
    (e2 : slotOperand p f.k2 f.v2 = .ok s2) : ∃ j, decodeFields p f = .instr j := by
  obtain ⟨hop, h0, h1, h2, hrsv⟩ := Fields.hdr_eq_header_iff.mp hh
  have kinds : ∀ {k v s n}, slotOperand p k v = .ok s → k.toNat = codeAt i n →
      s.map Operand.kind = i.operands[n]?.map Operand.kind := fun e hk =>
    slotCode_inj ((slotOperand_ok_iff.mp e).1.symm.trans hk)
  obtain ⟨os, hos, hkinds⟩ :=
    operandList_of_kinds i.length_operands_le (kinds e0 h0) (kinds e1 h1) (kinds e2 h2)
  obtain ⟨j, hj⟩ := ofOperands_isSome_iff.mpr ((wellFormedOperands_congr hkinds).trans i.form_legal)
  obtain ⟨hopj, rfl⟩ := ofOperands_some hj
  obtain ⟨_, rfl, rfl, rfl⟩ := operandList_eq_some_iff.mp hos
  exact ⟨j, decodeFields_eq_instr_iff.mpr ⟨hopj ▸ hop, BitVec.eq_of_toNat_eq hrsv, e0, e1, e2⟩⟩

theorem decodeFields_isInstr_iff {f : Fields} :
    (∃ i, decodeFields p f = .instr i) ↔ f.wellFormed p = true := by
  simp only [Fields.wellFormed, Bool.and_eq_true, List.contains_iff_mem, mem_formHeaders_iff]
  constructor
  · rintro ⟨i, hi⟩
    obtain ⟨_, _, e0, e1, e2⟩ := decodeFields_eq_instr_iff.mp hi
    exact ⟨⟨⟨⟨i, (decodeFields_spells hi).1.symm⟩, (slotOperand_isOk_iff.mp ⟨_, e0⟩).1⟩,
      (slotOperand_isOk_iff.mp ⟨_, e1⟩).1⟩, (slotOperand_isOk_iff.mp ⟨_, e2⟩).1⟩
  · rintro ⟨⟨⟨⟨i, hi⟩, w0⟩, w1⟩, w2⟩
    obtain ⟨_, h0, h1, h2, _⟩ := Fields.hdr_eq_header_iff.mp hi.symm
    obtain ⟨_, e0⟩ := slotOperand_isOk_iff.mpr ⟨w0, h0 ▸ codeAt_le i 0⟩
    obtain ⟨_, e1⟩ := slotOperand_isOk_iff.mpr ⟨w1, h1 ▸ codeAt_le i 1⟩
    obtain ⟨_, e2⟩ := slotOperand_isOk_iff.mpr ⟨w2, h2 ▸ codeAt_le i 2⟩
    exact decodeFields_isInstr hi.symm e0 e1 e2

theorem decodeFields_eq_null_iff {f : Fields} : decodeFields p f = .null ↔ f.op = 0 := by
  constructor
  · intro h
    by_contra hop
    rw [decodeFields, if_neg hop] at h
    split at h
    · cases h
    · split_ifs at h
      split at h
      · exact decodeSlots_ne_null h
      all_goals cases h
  · intro h
    rw [decodeFields, if_pos h]

/-- Settles O3: the null records are those with `op = 0`, the records that decode to instructions are the well-formed ones
(`decodeFields_isInstr_iff`), and the decoder answers one of the three. -/
theorem decodeFollowsWellFormedness : Obligations.DecodeFollowsWellFormedness := by
  intro p r
  have hnull : decode p r = .null ↔ (fieldsOf p r).op = 0 := decodeFields_eq_null_iff
  have hinstr : (∃ i, decode p r = .instr i) ↔ (fieldsOf p r).wellFormed p = true := decodeFields_isInstr_iff
  rw [ne_eq, ← hnull, ← Bool.not_eq_true, ← hinstr]
  cases decode p r <;> simp

/-- Settles O4: the decoder run on each of the records. -/
theorem writtenOutRecordsDecode : Obligations.WrittenOutRecordsDecode := by
  refine ⟨?_, ?_, ?_, ?_, ?_, ?_, ?_, ?_, ?_, ?_, ?_⟩ <;> decide

end Sys2Proof
end

/-! SUPPORT. The first byte of a token says which recogniser can accept it (R83), so that no two accept the same token and
a token that begins with `#` is a Constant or nothing (R84, R86). -/

section
namespace Sys2Proof.Machine

variable {p : LoaderParams} {m : Params} {tok : List Byte}

/-- The kind of operand that a token with this first byte can be: `#` starts a Constant, `'` a Character, a digit an
Address, and of the other bytes some start a Register. -/
def startKind (b : Byte) : Kind :=
  if b = ch '#' then .constant
  else if b = ch '\'' then .character
  else if (digitVal b).isSome then .address
  else .register

theorem startKind_of_digit : ∀ b : Byte, (digitVal b).isSome = true → startKind b = .address := by decide

/-- `pc`, `sp` and `r` with digits begin with letters, in either case. -/
theorem startKind_of_lowerByte :
    ∀ b : Byte, lowerByte b = ch 'p' ∨ lowerByte b = ch 's' ∨ lowerByte b = ch 'r' → startKind b = .register := by
  decide

/-! ## What each recogniser asks of the first byte -/

/-- A decimal literal that has a value begins with a digit. -/
theorem decimal_head {b : Byte} {ds : List Byte} {n : Nat} (h : decimal p (b :: ds) = some n) :
    (digitVal b).isSome = true := by
  have digits : digitsVal (b :: ds) 0 = some n := by
    cases ds with
    | nil => exact h
    | cons d ds =>
      simp only [decimal] at h
      split_ifs at h
      exact h
  exact digitsVal_some digits b List.mem_cons_self

theorem recogniseAddress_head {a : Word} (h : recogniseAddress p m tok = some a) :
    ∃ b bs, tok = b :: bs ∧ (digitVal b).isSome = true := by
  cases tok with
  | nil => cases h
  | cons b bs =>
    refine ⟨b, bs, rfl, ?_⟩
    simp only [recogniseAddress, wordLiteral] at h
    split at h
    · cases h
    · rename_i hn
      exact decimal_head hn

theorem recogniseConstant_head {w : Word} (h : recogniseConstant p m tok = some w) : ∃ bs, tok = ch '#' :: bs := by
  cases tok with
  | nil => cases h
  | cons b bs =>
    simp only [recogniseConstant] at h
    split_ifs at h with hb
    exact ⟨bs, by rw [hb]⟩

theorem recogniseCharacter_head {b : Byte} (h : recogniseCharacter p tok = some b) : ∃ bs, tok = ch '\'' :: bs := by
  unfold recogniseCharacter at h
  split at h
  · split_ifs at h with hq
    exact ⟨_, by rw [hq.1]⟩
  · split_ifs at h with hq
    exact ⟨_, by rw [hq.1]⟩
  · cases h

/-- A register name begins with `p`, `s` or `r`, in lower case once its case is ignored. -/
theorem recogniseRegister_head {r : RegIdx} (h : recogniseRegister p m tok = some r) :
    ∃ b bs, tok = b :: bs ∧ (lowerByte b = ch 'p' ∨ lowerByte b = ch 's' ∨ lowerByte b = ch 'r') := by
  unfold recogniseRegister at h
  dsimp only at h
  cases tok with
  | nil => simp [asciiText] at h
  | cons b bs =>
    refine ⟨b, bs, rfl, ?_⟩
    obtain ⟨c, cs, ht, hc⟩ : ∃ c cs, (if p.regNameCaseInsensitive = true then (b :: bs).map lowerByte else b :: bs)
        = c :: cs ∧ (c = lowerByte b ∨ c = b) := by
      split_ifs
      · exact ⟨_, _, rfl, .inl rfl⟩
      · exact ⟨_, _, rfl, .inr rfl⟩
    rw [ht] at h
    dsimp only at h
    have hletter : c = ch 'p' ∨ c = ch 's' ∨ c = ch 'r' := by
      split_ifs at h with hpc hsp hr
      · exact .inl (List.cons.inj hpc).1
      · exact .inr (.inl (List.cons.inj hsp).1)
      · exact .inr (.inr hr)
    rcases hc with rfl | rfl
    · exact hletter
    · rcases hletter with rfl | rfl | rfl <;> decide

/-! ## The recognisers are disjoint -/

/-- A token that the recogniser of a kind accepts begins with a byte of that kind. -/
theorem recognise_startKind {k : Kind} {o : Operand} (h : recognise p m k tok = some o) :
    ∃ b bs, tok = b :: bs ∧ startKind b = k := by
  cases k <;> obtain ⟨v, hv, rfl⟩ := Option.map_eq_some_iff.mp h
  case register =>
    obtain ⟨b, bs, rfl, hb⟩ := recogniseRegister_head hv
    exact ⟨b, bs, rfl, startKind_of_lowerByte b hb⟩
  case address =>
    obtain ⟨b, bs, rfl, hb⟩ := recogniseAddress_head hv
    exact ⟨b, bs, rfl, startKind_of_digit b hb⟩
  case constant =>
    obtain ⟨bs, rfl⟩ := recogniseConstant_head hv
    exact ⟨_, bs, rfl, rfl⟩
  case character =>
    obtain ⟨bs, rfl⟩ := recogniseCharacter_head hv
    exact ⟨_, bs, rfl, by decide⟩

theorem recognise_eq_none {b : Byte} {bs : List Byte} {k : Kind} (h : startKind b ≠ k) :
    recognise p m k (b :: bs) = none := by
  rw [Option.eq_none_iff_forall_ne_some]
  intro o ho
  obtain ⟨_, _, hb, hk⟩ := recognise_startKind ho
  obtain ⟨rfl, _⟩ := List.cons.inj hb
  exact h hk

/-- Settles O54: the kind is the one of the token's first byte (`recognise_startKind`). -/
theorem noTokenIsAcceptedByTwoRecognisers : Obligations.NoTokenIsAcceptedByTwoRecognisers := by
  intro p m tok k k' o o' h h'
  obtain ⟨b, bs, rfl, hk⟩ := recognise_startKind h
  obtain ⟨_, _, hb, hk'⟩ := recognise_startKind h'
  obtain ⟨rfl, _⟩ := List.cons.inj hb
  exact hk.symm.trans hk'

/-! ## A Constant in the destination position of MOVE (R86) -/

/-- The Register recogniser passes over a token that begins with `#`, and a Constant match is an error. -/
theorem parseOperand_reject_constant {w : Word} {later : List TryKind} (h : recogniseConstant p m tok = some w) :
    parseOperand p m (.accept .register :: .reject .constant :: later) tok = none := by
  obtain ⟨ds, rfl⟩ := recogniseConstant_head h
  have hreg : recognise p m .register (ch '#' :: ds) = none := recognise_eq_none (by decide)
  have hconst : recognise p m .constant (ch '#' :: ds) = some (.const w) := Option.map_eq_some_iff.mpr ⟨w, h, rfl⟩
  simp only [parseOperand, hreg, hconst]

/-- A token that begins with `#` is no destination of MOVE: well formed, it is a Constant; malformed, no recogniser takes
it. -/
theorem parseOperand_moveDestination (ds : List Byte) :
    parseOperand p m [.accept .register, .reject .constant, .accept .address] (ch '#' :: ds) = none := by
  cases hw : recogniseConstant p m (ch '#' :: ds) with
  | some w => exact parseOperand_reject_constant hw
  | none =>
    have hreg : recognise p m .register (ch '#' :: ds) = none := recognise_eq_none (by decide)
    have hconst : recognise p m .constant (ch '#' :: ds) = none := Option.map_eq_none_iff.mpr hw
    have haddr : recognise p m .address (ch '#' :: ds) = none := recognise_eq_none (by decide)
    simp only [parseOperand, hreg, hconst, haddr]

/-- Settles O53: the destination token parses to nothing (`parseOperand_moveDestination`), so the operands do not. -/
theorem constantDestinationOfMoveIsALoadFault : Obligations.ConstantDestinationOfMoveIsALoadFault := by
  refine ⟨fun p ds toks s => ?_, fun p m tok w later => parseOperand_reject_constant⟩
  have hnone : parseOperands p s.params (tryOrder .move) ((ch '#' :: ds) :: toks) = none := by
    simp only [tryOrder, parseOperands, parseOperand_moveDestination]
  rw [assembleInstr, hnone]
  split_ifs <;> rfl

end Sys2Proof.Machine
end

/-! SUPPORT. What a load does to the machine: a load that fails, the directives DW and DS on the data store (R91 to R95),
and the lines of a program in order, each instruction line one record further (R89). -/

section
namespace Sys2Proof.Machine

variable {p : LoaderParams} {s t : State}

/-! ## A load that fails (R91) -/

theorem State.justCreated_loadFault (h : s.justCreated = true) : s.loadFault = none := by
  rw [of_decide_eq_true h]
  rfl

theorem State.load_of_error {text : List Byte} {e : LoadFault} (hj : s.justCreated = true)
    (h : assemble p text s = .error e) : s.load p text = .next { s with loadFault := some e } := by
  rw [State.load, if_pos hj, h]
  exact recordLoadFault_unset (State.justCreated_loadFault hj) e

theorem State.load_of_ok {text : List Byte} (hj : s.justCreated = true) (h : assemble p text s = .ok t) :
    s.load p text = .next t := by
  rw [State.load, if_pos hj, h]

/-- Settles O50: the load of a machine just created is the assembly's result, or its load fault recorded, after which
`step` is refused. -/
theorem failedLoadIsNeverStepped : Obligations.FailedLoadIsNeverStepped :=
  fun _ _ _ hj => ⟨fun _ he => ⟨State.load_of_error hj he, rfl⟩, fun _ ht => State.load_of_ok hj ht⟩

/-! ## DW (R92) -/

theorem writeValid_of_dataCell {a : Nat} (h : s.DataCell a) : s.writeValid a 0 = true :=
  (s.writeValid_zero_iff a).mpr h

theorem writeValid_of_not_dataCell {a : Nat} (h : ¬ s.DataCell a) : s.writeValid a 0 = false :=
  Bool.eq_false_iff.mpr (mt (s.writeValid_zero_iff a).mp h)

theorem assembleDw_eq {aTok wTok : List Byte} {a w : Word} (ha : recogniseAddress p s.params aTok = some a)
    (hw : recogniseConstant p s.params wTok = some w) :
    assembleDw p [aTok, wTok] s =
      if s.writeValid a 0 then .ok (s.setData a w) else .error .invalidInstruction := by
  simp only [assembleDw, ha, hw]

/-- Settles O51: a DW is the store of its word, after the check of R95 (`assembleDw_eq`). -/
theorem dwWritesItsWordAtLoadTime : Obligations.DwWritesItsWordAtLoadTime := by
  intro p aTok wTok a w s hi ha hw
  rw [assembleDw_eq ha hw]
  refine ⟨fun hc => ⟨s.setData a w, ?_, ?_, ?_, ?_⟩, fun hc => ?_⟩
  · rw [writeValid_of_dataCell hc, if_pos rfl]
  · exact State.setData_onlyCellBecomes hi.dmem_wf a w
  · exact State.setData_regs s a w
  · exact State.setData_sameButRegsData a w
  · rw [writeValid_of_not_dataCell hc, if_neg Bool.false_ne_true]

/-! ## DS (R93) -/

theorem storeBytes_cons_of_dataCell {b : Byte} {bs : List Byte} {a : Nat} (h : s.DataCell a) :
    storeBytes (b :: bs) a s = storeBytes bs (a + 1) (s.setData a (zextByte b)) := by
  rw [storeBytes, writeValid_of_dataCell h, if_pos rfl]

theorem storeBytes_cons_of_not_dataCell {b : Byte} {bs : List Byte} {a : Nat} (h : ¬ s.DataCell a) :
    storeBytes (b :: bs) a s = .error .invalidInstruction := by
  rw [storeBytes, writeValid_of_not_dataCell h, if_neg Bool.false_ne_true]

/-- All the bytes are stored when every cell is a data cell; each cell then holds its byte, and the others what they
held. -/
theorem storeBytes_of_dataCells {bs : List Byte} {a : Nat} (hm : Store.wf s.dmem = true)
    (hc : ∀ i, i < bs.length → s.DataCell (a + i)) :
    ∃ t, storeBytes bs a s = .ok t ∧ (∀ (i : Nat) (b : Byte), bs[i]? = some b → t.dataAt (a + i) = b.toNat) ∧
      ∀ k, (k < a ∨ a + bs.length ≤ k) → t.dataAt k = s.dataAt k := by
  induction bs generalizing a s with
  | nil => exact ⟨s, rfl, by simp, fun _ _ => rfl⟩
  | cons b bs ih =>
    have hrest : ∀ i, i < bs.length → (s.setData a (zextByte b)).DataCell (a + 1 + i) := fun i hi => by
      have := hc (i + 1) (Nat.succ_lt_succ hi)
      rwa [Nat.add_comm i 1, ← Nat.add_assoc] at this
    obtain ⟨t, ht, hbytes, hothers⟩ := ih (Store.wf_write hm a (zextByte b)) hrest
    refine ⟨t, ?_, fun i c hi => ?_, fun k hk => ?_⟩
    · exact (storeBytes_cons_of_dataCell (hc 0 (Nat.succ_pos _))).trans ht
    · cases i with
      | zero =>
        obtain rfl : b = c := by simpa using hi
        rw [Nat.add_zero, hothers a (.inl (Nat.lt_succ_self a)), State.setData_dataAt s hm, if_pos rfl, zextByte]
      | succ i =>
        rw [Nat.add_comm i 1, ← Nat.add_assoc]
        exact hbytes i c hi
    · rw [List.length_cons] at hk
      rw [hothers k (by omega), State.setData_dataAt s hm, if_neg (by omega)]

/-- One cell that is no data cell is enough for the load fault. -/
theorem storeBytes_of_not_dataCell {bs : List Byte} {a i : Nat} (hi : i < bs.length) (hc : ¬ s.DataCell (a + i)) :
    storeBytes bs a s = .error .invalidInstruction := by
  induction bs generalizing a s i with
  | nil => exact absurd hi (Nat.not_lt_zero i)
  | cons b bs ih =>
    by_cases ha : s.DataCell a
    · rw [storeBytes_cons_of_dataCell ha]
      cases i with
      | zero => exact absurd ha hc
      | succ i =>
        rw [Nat.add_comm i 1, ← Nat.add_assoc] at hc
        exact ih (Nat.lt_of_succ_lt_succ hi) hc
    · exact storeBytes_cons_of_not_dataCell ha

/-- The bytes go to the data store and nowhere else. -/
theorem storeBytes_frame {bs : List Byte} {a : Nat} (h : storeBytes bs a s = .ok t) :
    t.regs = s.regs ∧ s.SameButRegsData t := by
  obtain ⟨d, rfl, _⟩ := storeBytes_ok h
  exact ⟨rfl, rfl, rfl, rfl, rfl, rfl, rfl, rfl, rfl⟩

theorem assembleDs_eq {aTok strTok : List Byte} {a : Word} {bs : List Byte}
    (ha : recogniseAddress p s.params aTok = some a) (hbs : recogniseString strTok = some bs) (hne : bs ≠ []) :
    assembleDs p [aTok, strTok] s = storeBytes bs a s := by
  simp only [assembleDs, ha, hbs, hne, false_and, if_false]

/-- Settles O52: a DS with a string that is not empty is the store of its bytes, cell after cell
(`storeBytes_of_dataCells`, `storeBytes_of_not_dataCell`). -/
theorem dsStoresOneBytePerCell : Obligations.DsStoresOneBytePerCell := by
  intro p aTok strTok a bs s hi ha hbs hne
  rw [assembleDs_eq ha hbs hne]
  refine ⟨fun hc => ?_, fun ⟨i, hlt, hc⟩ => storeBytes_of_not_dataCell hlt hc⟩
  obtain ⟨t, ht, hbytes, hothers⟩ := storeBytes_of_dataCells hi.dmem_wf hc
  obtain ⟨hregs, hsame⟩ := storeBytes_frame ht
  exact ⟨t, ht, hbytes, hothers, hregs, hsame⟩

/-! ## One line (R80 to R82, R89) -/

theorem parseOperands_length {m : Params} {kss : List (List TryKind)} {toks : List (List Byte)} {os : List Operand}
    (h : parseOperands p m kss toks = some os) : toks.length = os.length := by
  induction kss generalizing toks os with
  | nil =>
    cases toks with
    | nil => cases h; rfl
    | cons => cases h
  | cons ks kss ih =>
    cases toks with
    | nil => cases h
    | cons tok toks =>
      simp only [parseOperands] at h
      split at h
      · cases h
      · split at h
        · cases h
        · rename_i hos
          cases h
          exact congrArg Nat.succ (ih hos)

/-- The machine with the record of `i` in the next code cell (R28, R89). -/
def State.withAppended (s : State) (i : Instr) : State :=
  { s with imem := s.imem.write s.ibound (encode s.params i), ibound := s.ibound + 1 }

/-- The line denotes `i` on a machine with parameters `m`: its mnemonic is the opcode's, and its other tokens parse to
the operands, one a token (R81 to R85). -/
def LineDenotes (p : LoaderParams) (m : Params) (l : List Byte) (i : Instr) : Prop :=
  ∃ name toks, lineTokens p l = name :: toks ∧ lookupMnemonic name = some (.op i.opcode) ∧
    parseOperands p m (tryOrder i.opcode) toks = some i.operands ∧ toks.length = i.operands.length

/-- Everything an instruction line that assembles does: the record of the instruction it denotes is appended. -/
theorem assembleLine_instruction {l : List Byte} (hi : s.Inv) (hl : isInstructionLine p l = true)
    (h : assembleLine p l s = .ok t) :
    ∃ i, LineDenotes p s.params l i ∧ i.wellFormed s.params = true ∧ s.ibound < s.params.capacity ∧
      t = s.withAppended i := by
  unfold isInstructionLine at hl
  unfold assembleLine at h
  split at hl
  · cases hl
  · rename_i name toks htoks
    split at hl
    · rename_i op hop
      simp only [htoks, hop] at h
      obtain ⟨os, i, hos, hof, hwf, hc, ht⟩ := assembleInstr_ok hi.params.nreg_ge h
      obtain ⟨rfl, rfl⟩ := ofOperands_some hof
      exact ⟨i, ⟨name, toks, htoks, hop, hos, parseOperands_length hos⟩, hwf, hc, ht⟩
    · cases hl

/-- Everything a DS line that assembles does. -/
theorem assembleDs_ok {toks : List (List Byte)} (h : assembleDs p toks s = .ok t) :
    ∃ d, t = { s with dmem := d } ∧ (s.Inv → t.Inv) := by
  unfold assembleDs at h
  split at h
  · split at h
    · split_ifs at h
      obtain ⟨d, rfl, hinv⟩ := storeBytes_ok h
      exact ⟨d, rfl, hinv⟩
    · cases h
  · cases h

/-- Everything any other line that assembles does: data cells alone differ. -/
theorem assembleLine_other {l : List Byte} (hl : isInstructionLine p l = false) (h : assembleLine p l s = .ok t) :
    ∃ d, t = { s with dmem := d } ∧ (s.Inv → t.Inv) := by
  unfold isInstructionLine at hl
  unfold assembleLine at h
  split at hl
  · rename_i htoks
    simp only [htoks] at h
    cases h
    exact ⟨_, rfl, id⟩
  · rename_i name toks htoks
    simp only [htoks] at h
    split at h
    · cases h
    · rename_i hop
      simp [hop] at hl
    · obtain ⟨a, w, ha, hw, rfl⟩ := assembleDw_ok h
      exact ⟨_, rfl, fun hi => hi.setData ha hw⟩
    · exact assembleDs_ok h

/-! ## The lines of a program -/

/-- The machine `t` meets the invariant, and has the code of `s` with `n` records behind it, on the same parameters. -/
structure State.GrownBy (s : State) (n : Nat) (t : State) : Prop where
  inv : t.Inv
  params : t.params = s.params
  ibound : t.ibound = s.ibound + n
  ifetch : ∀ a, a < s.ibound → t.ifetch a = s.ifetch a

theorem State.GrownBy.trans {u : State} {n k : Nat} (h : s.GrownBy n t) (h' : t.GrownBy k u) :
    s.GrownBy (n + k) u where
  inv := h'.inv
  params := h'.params.trans h.params
  ibound := by rw [h'.ibound, h.ibound, Nat.add_assoc]
  ifetch a ha := (h'.ifetch a (h.ibound ▸ Nat.lt_add_right n ha)).trans (h.ifetch a ha)

theorem State.Inv.withAppended_ifetch (h : s.Inv) (i : Instr) (a : Nat) :
    (s.withAppended i).ifetch a = if a = s.ibound then encode s.params i else s.ifetch a :=
  Store.read_write h.imem_wf s.ibound a _

theorem State.Inv.withAppended_grownBy (h : s.Inv) {i : Instr} (hc : s.ibound < s.params.capacity)
    (hw : i.wellFormed s.params = true) : s.GrownBy 1 (s.withAppended i) where
  inv := h.appended hc hw
  params := rfl
  ibound := rfl
  ifetch a ha := by rw [h.withAppended_ifetch, if_neg (Nat.ne_of_lt ha)]

/-- A line grows the code by one record if it is an instruction line, and not at all otherwise. -/
theorem assembleLine_grownBy {l : List Byte} (hi : s.Inv) (h : assembleLine p l s = .ok t) :
    s.GrownBy (if isInstructionLine p l then 1 else 0) t := by
  split_ifs with hl
  · obtain ⟨i, _, hw, hc, rfl⟩ := assembleLine_instruction hi hl h
    exact hi.withAppended_grownBy hc hw
  · obtain ⟨d, rfl, hinv⟩ := assembleLine_other (Bool.eq_false_iff.mpr hl) h
    exact ⟨hinv hi, rfl, rfl, fun _ _ => rfl⟩

theorem assembleLines_cons {l : List Byte} {ls : List (List Byte)} (h : assembleLines p (l :: ls) s = .ok t) :
    ∃ u, assembleLine p l s = .ok u ∧ assembleLines p ls u = .ok t := by
  rw [assembleLines] at h
  split at h
  · exact ⟨_, ‹_›, h⟩
  · cases h

/-- Lines grow the code by as many records as there are instruction lines among them. -/
theorem assembleLines_grownBy {ls : List (List Byte)} (hi : s.Inv) (h : assembleLines p ls s = .ok t) :
    s.GrownBy (ls.countP (isInstructionLine p)) t := by
  induction ls generalizing s with
  | nil => cases h; exact ⟨hi, rfl, rfl, fun _ _ => rfl⟩
  | cons l ls ih =>
    obtain ⟨u, hl, hls⟩ := assembleLines_cons h
    have hline := assembleLine_grownBy hi hl
    rw [List.countP_cons, Nat.add_comm]
    exact hline.trans (ih hline.inv hls)

/-- Settles O47: the lines before `l` grow the code to its address, `l` appends its record there if it denotes an
instruction (`assembleLine_instruction`), and the lines after it leave the record in place. -/
theorem assembledInstructionLinesStandInOrder : Obligations.AssembledInstructionLinesStandInOrder := by
  intro p pre post l s t h0 hi h
  obtain ⟨u, hpre, hrest⟩ := assembleLines_append h
  obtain ⟨v, hline, hpost⟩ := assembleLines_cons hrest
  have all := assembleLines_grownBy hi h
  have before := assembleLines_grownBy hi hpre
  have after := assembleLines_grownBy (assembleLine_grownBy before.inv hline).inv hpost
  refine ⟨?_, u, v, hpre, hline, ?_, fun hl => ?_, fun hl => ?_⟩
  · rw [all.ibound, h0, Nat.zero_add]
  · rw [before.ibound, h0, Nat.zero_add]
  · obtain ⟨i, ⟨name, toks, htoks, hop, hos, hlen⟩, hw, _, rfl⟩ := assembleLine_instruction before.inv hl hline
    have hrecord : (u.withAppended i).ifetch u.ibound = encode s.params i := by
      rw [before.inv.withAppended_ifetch, if_pos rfl, before.params]
    rw [before.params] at hos hw
    exact ⟨rfl, name, toks, i.opcode, i, htoks, hop, rfl, hos, hlen, hw, hrecord,
      (after.ifetch _ (Nat.lt_succ_self _)).trans hrecord⟩
  · obtain ⟨d, rfl, _⟩ := assembleLine_other hl hline
    exact ⟨rfl, rfl⟩

end Sys2Proof.Machine
end

/-! SUPPORT. The cycle of one step (40_step_cycle.md): what the fetch answers in each of its cases (R100 to R102), what
the step makes of that answer, when there is no step at all (R109), and that a step which stops the core is an exception
and nothing else (R107). -/

section
namespace Sys2Proof.Machine

variable {s t : State}

/-! ## What the fetch answers -/

theorem State.fetchDecode_of_pc_outside (hpc : ¬ s.pc < s.ibound) : s.fetchDecode = .error .invalidInstruction := by
  rw [State.fetchDecode, if_neg (mt (s.execValid_iff _).mp hpc)]

theorem State.fetchDecode_of_null (hpc : s.pc < s.ibound) (h : decode s.params (s.ifetch s.pc) = .null) :
    s.fetchDecode = .error .noInstruction := by
  simp only [State.fetchDecode, if_pos ((s.execValid_iff _).mpr hpc), State.nextRecord, h]

theorem State.fetchDecode_of_illegal (hpc : s.pc < s.ibound)
    (h : ∃ why, decode s.params (s.ifetch s.pc) = .illegal why) : s.fetchDecode = .error .invalidInstruction := by
  obtain ⟨why, h⟩ := h
  simp only [State.fetchDecode, if_pos ((s.execValid_iff _).mpr hpc), State.nextRecord, h]

/-! ## What the step makes of it -/

theorem step_of_fetchDecode_ok {i : Instr} (hr : s.Running) (h : s.fetchDecode = .ok i) : step s = exec i s := by
  rw [step_running hr, h, onOk_ok]

theorem step_of_fetchDecode_error {e : Cause} (hr : s.Running) (h : s.fetchDecode = .error e) :
    step s = .next (s.stopWith e) := by
  rw [step_running hr, h, onOk_error, raise_running hr.2]

theorem step_of_decode_instr {i : Instr} (hr : s.Running) (hpc : s.pc < s.ibound)
    (h : decode s.params (s.ifetch s.pc) = .instr i) : step s = exec i s :=
  step_of_fetchDecode_ok hr (State.fetchDecode_ok_iff.mpr ⟨hpc, h⟩)

theorem step_of_loadFault (h : s.loadFault ≠ none) : step s = .refused .loadFaultSet := by
  rw [step, if_pos (Option.isSome_iff_ne_none.mpr h)]

theorem step_of_stopped (hl : s.loadFault = none) (h : s.stopped = true) : step s = .fault .steppedWhileStopped := by
  simp [step, hl, h]

/-- Of all effects only an exception sets `stopped`, and an exception has no other effect. -/
theorem Effect.eq_stopWith (he : Effect s t) (hs : s.stopped = false) (ht : t.stopped = true) :
    ∃ e, t = s.stopWith e := by
  cases he with
  | raised e _ => exact ⟨e, rfl⟩
  | regs | data | sent | received => exact absurd (hs.symm.trans ht) Bool.false_ne_true

/-! ## The statements -/

/-- Settles O11: such a record is one that the decoder rejects (`decodeFollowsWellFormedness`), and the step raises what
the fetch answers. -/
theorem illegalRecordRaisesInvalidInstruction : Obligations.IllegalRecordRaisesInvalidInstruction := by
  intro s hr hpc hop hwf
  obtain ⟨_, _, hillegal⟩ := decodeFollowsWellFormedness s.params (s.ifetch s.pc)
  exact step_of_fetchDecode_error hr (State.fetchDecode_of_illegal hpc (hillegal.mpr ⟨hop, hwf⟩))

/-- Settles O14: only a running core steps (`step_next`), and of the effects a step can have (`step_effect`) only an
exception stops it. -/
theorem stepThatStopsChangesOnlyTheFaultSlot : Obligations.StepThatStopsChangesOnlyTheFaultSlot := by
  intro s t h ht
  obtain ⟨⟨_, hs⟩, _⟩ := step_next h
  exact ⟨hs, (step_effect h).eq_stopWith hs ht⟩

/-- Settles O8: the fetch answers the instruction, and the step executes it. -/
theorem stepRunsTheDecodedInstruction : Obligations.StepRunsTheDecodedInstruction :=
  fun _ _ hr hpc hi _ => step_of_decode_instr hr hpc hi

/-- Settles O9: outside the code region the fetch answers InvalidInstruction, inside it what the record decodes to. -/
theorem fetchOutsideTheCodeRaisesInvalidInstruction : Obligations.FetchOutsideTheCodeRaisesInvalidInstruction :=
  fun _ hr =>
    ⟨fun hpc => step_of_fetchDecode_error hr (State.fetchDecode_of_pc_outside hpc),
      fun hpc _ hi => step_of_decode_instr hr hpc hi⟩

/-- Settles O10: a record with `op = 0` decodes to the null record (`decodeFollowsWellFormedness`), and the step raises
what the fetch answers. -/
theorem nullRecordRaisesNoInstruction : Obligations.NullRecordRaisesNoInstruction := by
  intro s hr hpc hop
  obtain ⟨hnull, _⟩ := decodeFollowsWellFormedness s.params (s.ifetch s.pc)
  exact step_of_fetchDecode_error hr (State.fetchDecode_of_null hpc (hnull.mpr hop))

/-- Settles O12: the two cases in which there is no step. -/
theorem stoppedCoreTakesNoStep : Obligations.StoppedCoreTakesNoStep :=
  fun _ => ⟨step_of_stopped, step_of_loadFault⟩

end Sys2Proof.Machine
end

/-! SUPPORT. Control transfer (R120, R121): an instruction that writes pc alone is one `setPc`, a JUMP of its target and a
COND of the sum that its one or two advances of pc come to. Then the data addresses of COND, MOVE, ADD, SUB and LOAD that
are outside the data region (R161). -/

section
namespace Sys2Proof.Machine

variable {s : State}

/-! ## An instruction that writes pc alone -/

theorem State.setX_setX (s : State) (i : RegIdx) (v w : Word) : (s.setX i v).setX i w = s.setX i w := by
  simp only [State.setX, List.set_set]

theorem State.setPc_setPc (s : State) (v w : Word) : (s.setPc v).setPc w = s.setPc w := s.setX_setX s.pcIdx v w

theorem State.Inv.setPc_pc (h : s.Inv) (v : Word) : (s.setPc v).pc = v :=
  (h.setPc_x v s.pcIdx).trans (if_pos rfl)

theorem State.setPc_sameButRegs (s : State) (v : Word) : s.SameButRegs (s.setPc v) :=
  ⟨rfl, rfl, rfl, rfl, rfl, rfl, rfl, rfl, rfl⟩

theorem State.Inv.completesAt_of_setPc (h : s.Inv) {i : Instr} {v : Word} (hx : exec i s = .next (s.setPc v)) :
    CompletesAt i s v :=
  ⟨s.setPc v, hx, h.setPc_x v, s.setPc_sameButRegs v⟩

/-! ## JUMP (R120) -/

theorem jumpTo_of_lt {o : Operand} (h : s.addrOf o < s.ibound) : jumpTo o s = .next (s.setPc (s.addrOf o)) := by
  rw [jumpTo, if_pos ((s.execValid_iff _).mpr h)]

theorem jumpTo_of_not_lt {o : Operand} (h : ¬ s.addrOf o < s.ibound) : jumpTo o s = raise .invalidInstruction s := by
  rw [jumpTo, if_neg (mt (s.execValid_iff _).mp h)]

/-- Settles O29: a JUMP whose target passes the check (`jumpTo_of_lt`) is the write of that target to pc. -/
theorem jumpSetsPcToTheTarget : Obligations.JumpSetsPcToTheTarget := by
  refine fun s hi => ⟨fun r hr => ?_, fun a ha => ?_⟩
  · exact hi.completesAt_of_setPc (jumpTo_of_lt (o := .reg r) hr)
  · exact hi.completesAt_of_setPc (jumpTo_of_lt (o := .addr a) ha)

/-- Settles O30: a JUMP whose target fails the check (`jumpTo_of_not_lt`) is a raise in the state before it, in which pc is
still the address of the JUMP (D25). -/
theorem jumpOutOfRangeRaisesInvalidInstruction : Obligations.JumpOutOfRangeRaisesInvalidInstruction := by
  refine fun s hs => ⟨fun r hr => ?_, fun a ha => ?_⟩
  · exact (jumpTo_of_not_lt (o := .reg r) hr).trans (raise_running hs _)
  · exact (jumpTo_of_not_lt (o := .addr a) ha).trans (raise_running hs _)

/-! ## COND (R121) -/

/-- Adding modulo 2^XLEN twice is adding the sum once, whatever wraps on the way. -/
theorem aluAdd_aluAdd (p : Params) (a b c : Word) : aluAdd p (aluAdd p a b) c = aluAdd p a (b + c) := by
  simp only [aluAdd, Nat.mod_add_mod, Nat.add_assoc]

theorem State.Inv.advancePc_advancePc (h : s.Inv) :
    s.advancePc.advancePc = s.setPc (aluAdd s.params s.pc 2) := by
  have hpc : s.advancePc.pc = aluAdd s.params s.pc 1 := h.setPc_pc _
  calc s.advancePc.advancePc
      = s.advancePc.setPc (aluAdd s.params s.advancePc.pc 1) := rfl
    _ = s.advancePc.setPc (aluAdd s.params s.pc 2) := by rw [hpc, aluAdd_aluAdd]
    _ = s.setPc (aluAdd s.params s.pc 2) := s.setPc_setPc _ _

/-- A COND that reads `v` adds 1 or 2 to pc, in one write: its two advances of pc come to one of 2. -/
theorem State.Inv.condOn_of_srcVal (h : s.Inv) {o : Operand} {v : Word} (hv : s.srcVal o = .ok v) :
    condOn o s = .next (s.setPc (sumWord s.params s.pc (if v = 0 then 1 else 2))) := by
  have htwo : s.IsWord 2 := Params.Legal.word_of_lt h.params (by decide)
  rw [condOn, hv, onOk_ok]
  by_cases hzero : v = 0
  · rw [if_neg (not_not_intro hzero), if_pos hzero, ← aluAdd_eq_sumWord h.pc_word h.one_word, State.advancePc]
  · rw [if_pos hzero, if_neg hzero, ← aluAdd_eq_sumWord h.pc_word htwo, h.advancePc_advancePc]

/-- Settles O31: each form reads its own word, an Address from its data cell, and is then one write of pc
(`State.Inv.condOn_of_srcVal`). -/
theorem condSkipsExactlyWhenNotZero : Obligations.CondSkipsExactlyWhenNotZero := by
  refine fun s hi => ⟨fun r => ?_, fun c => ?_, fun a ha => ?_⟩
  · exact hi.completesAt_of_setPc (hi.condOn_of_srcVal (s.srcVal_reg r))
  · exact hi.completesAt_of_setPc (hi.condOn_of_srcVal (s.srcVal_const c))
  · exact hi.completesAt_of_setPc (hi.condOn_of_srcVal (State.memRead_of_dataCell ha))

/-! ## Addresses outside the data region (R161) -/

/-- Settles O41: each of the addresses is among the accesses of its instruction, and an access outside the data region
raises (`raises_of_not_dataCell`). -/
theorem dataReadsOutsideTheDataRegionRaise : Obligations.DataReadsOutsideTheDataRegionRaise := by
  intro s hs
  have raisesAt {i : Instr} {a : Word} (hc : ¬ s.DataCell a) (ha : a ∈ s.accesses i) : Raises i s .accessViolation :=
    raises_of_not_dataCell hs ha hc
  refine ⟨fun a hc => ⟨?cond, fun d => ⟨?moveRA, ?loadRC⟩, fun r => ?moveAR, fun c => ?moveAC, fun b => ?moveAA⟩,
    fun d a hc => ⟨fun r => ?withReg, fun c => ?withConst, fun b => ?withAddr⟩, fun d r hc => ?loadRR⟩
  case cond | moveRA | loadRC | moveAR | moveAC | loadRR => exact raisesAt hc (List.mem_singleton_self _)
  case moveAA => constructor <;> exact raisesAt hc (by simp [State.accesses])
  case withReg | withConst | withAddr =>
    refine ⟨?_, ?_, ?_, ?_⟩ <;> exact raisesAt hc (by simp [State.accesses])

end Sys2Proof.Machine
end

/-! SUPPORT. An instruction that ends with a register write, or with a store, and the advance of pc (R106): what it
completes, said once. Then MOVE (R130) in its two shapes. -/

section
namespace Sys2Proof.Machine

variable {s : State}

/-! ## A register write, then the advance of pc -/

theorem State.Inv.setX_pc (h : s.Inv) {d : RegIdx} (hd : s.IsReg d) (v : Word) :
    (s.setX d v).pc = if d = s.pcIdx then v else s.pc :=
  (h.setX_x hd v s.pcIdx).trans (if_congr eq_comm rfl rfl)

/-- The advance reads pc after the write, so that a write to pc is advanced too (D13). -/
theorem State.Inv.setX_advancePc_written (h : s.Inv) {d : RegIdx} (hd : s.IsReg d) {v : Word} (hv : s.IsWord v) :
    s.WrittenThenAdvanced d v (s.setX d v).advancePc := by
  intro j
  rw [(h.setX d hv).advancePc_x, h.setX_pc hd, h.setX_x hd, State.setX_pcIdx, State.setX_params]

theorem State.setX_advancePc_sameButRegs (s : State) (d : RegIdx) (v : Word) :
    s.SameButRegs (s.setX d v).advancePc :=
  ⟨rfl, rfl, rfl, rfl, rfl, rfl, rfl, rfl, rfl⟩

theorem State.Inv.completesWriting_of_setX (h : s.Inv) {i : Instr} {d : RegIdx} {v : Word} (hd : s.IsReg d)
    (hv : s.IsWord v) (hx : exec i s = .next (s.setX d v).advancePc) : CompletesWriting i s d v :=
  ⟨_, hx, h.setX_advancePc_written hd hv, s.setX_advancePc_sameButRegs d v⟩

/-! ## A store, then the advance of pc -/

/-- A store touches no register, so the order of the two does not matter. -/
theorem State.setData_advancePc (s : State) (a : Nat) (v : Word) :
    (s.setData a v).advancePc = s.advancePc.setData a v := rfl

theorem State.Inv.setData_advancePc_onlyPcBecomes (h : s.Inv) (a : Nat) (v : Word) :
    s.OnlyPcBecomes (sumWord s.params s.pc 1) (s.setData a v).advancePc := by
  intro j
  rw [State.setData_advancePc, State.setData_x, h.advancePc_x]

theorem State.setData_advancePc_sameButRegsData (s : State) (a : Nat) (v : Word) :
    s.SameButRegsData (s.setData a v).advancePc :=
  ⟨rfl, rfl, rfl, rfl, rfl, rfl, rfl, rfl⟩

theorem State.Inv.completesStoring_of_setData (h : s.Inv) {i : Instr} {a : Nat} {v : Word}
    (hx : exec i s = .next (s.setData a v).advancePc) : CompletesStoring i s a v :=
  ⟨_, hx, h.setData_advancePc_onlyPcBecomes a v, State.setData_onlyCellBecomes h.dmem_wf a v,
    s.setData_advancePc_sameButRegsData a v⟩

/-! ## MOVE (R130) -/

theorem moveToReg_of_srcVal {d : RegIdx} {o : Operand} {v : Word} (hv : s.srcVal o = .ok v) :
    moveToReg d o s = .next (s.setX d v).advancePc := by
  rw [moveToReg, hv, onOk_ok]

theorem moveToCell_of_srcVal {d : Word} {o : Operand} {v : Word} (hv : s.srcVal o = .ok v) (hd : s.DataCell d) :
    moveToCell d o s = .next (s.setData d v).advancePc := by
  rw [moveToCell, hv, onOk_ok, State.memWrite_of_dataCell hd, onOk_ok]

/-- Settles O32: each form reads its own word, an Address from its data cell (D14), and is then one register write and the
advance of pc (`moveToReg_of_srcVal`). -/
theorem moveToRegisterWritesTheSource : Obligations.MoveToRegisterWritesTheSource := by
  refine fun s d hi hd => ⟨fun r => ?_, fun c hc => ?_, fun a ha => ?_⟩
  · exact hi.completesWriting_of_setX hd (hi.x_word r) (moveToReg_of_srcVal (s.srcVal_reg r))
  · exact hi.completesWriting_of_setX hd hc (moveToReg_of_srcVal (s.srcVal_const c))
  · exact hi.completesWriting_of_setX hd (hi.dataAt_word a) (moveToReg_of_srcVal (State.memRead_of_dataCell ha))

/-- Settles O33: each form reads its own word in the state before the instruction, and is then one store in the checked
cell and the advance of pc (`moveToCell_of_srcVal`). -/
theorem moveToCellStoresTheSource : Obligations.MoveToCellStoresTheSource := by
  refine fun s d hi hd => ⟨fun r => ?_, fun c => ?_, fun a ha => ?_⟩
  · exact hi.completesStoring_of_setData (moveToCell_of_srcVal (s.srcVal_reg r) hd)
  · exact hi.completesStoring_of_setData (moveToCell_of_srcVal (s.srcVal_const c) hd)
  · exact hi.completesStoring_of_setData (moveToCell_of_srcVal (State.memRead_of_dataCell ha) hd)

end Sys2Proof.Machine
end

/-! SUPPORT. ADD and SUB (R135, R136): what each source operand yields, said once per kind of operand, and what the shared
meaning of the nine forms completes from any two such sources. -/

section
namespace Sys2Proof.Machine

variable {s : State} {d : RegIdx} {a b : Operand} {va vb : Word}

/-! ## What a source operand yields -/

/-- The source operand `o` yields the value `v`, which is a word of the machine. -/
structure State.Yields (s : State) (o : Operand) (v : Word) : Prop where
  value : s.srcVal o = .ok v
  word : s.IsWord v

theorem State.Inv.yields_reg (h : s.Inv) (r : RegIdx) : s.Yields (.reg r) (s.x r) :=
  ⟨s.srcVal_reg r, h.x_word r⟩

theorem State.yields_const {c : Word} (hc : s.IsWord c) : s.Yields (.const c) c :=
  ⟨s.srcVal_const c, hc⟩

/-- An Address in a source position is read from its data cell (D14). -/
theorem State.Inv.yields_addr (h : s.Inv) {k : Word} (hk : s.DataCell k) : s.Yields (.addr k) (s.dataAt k) :=
  ⟨State.memRead_of_dataCell hk, h.dataAt_word k⟩

/-! ## ADD (R135) -/

theorem State.Yields.sumWord_word (ha : s.Yields a va) (hb : s.Yields b vb) : s.IsWord (sumWord s.params va vb) :=
  aluAdd_eq_sumWord ha.word hb.word ▸ aluAdd_lt s.params va vb

theorem addInto_of_yields (ha : s.Yields a va) (hb : s.Yields b vb) :
    addInto d a b s = .next (s.setX d (sumWord s.params va vb)).advancePc := by
  rw [addInto, ha.value, onOk_ok, hb.value, onOk_ok, aluAdd_eq_sumWord ha.word hb.word]

theorem State.Inv.completesWriting_of_addInto (h : s.Inv) {i : Instr} (hd : s.IsReg d) (ha : s.Yields a va)
    (hb : s.Yields b vb) (hx : exec i s = addInto d a b s) : CompletesWriting i s d (sumWord s.params va vb) :=
  h.completesWriting_of_setX hd (ha.sumWord_word hb) (hx.trans (addInto_of_yields ha hb))

/-- Settles O34: each form is the shared meaning of ADD on its own two kinds of source operand
(`State.Inv.completesWriting_of_addInto`). -/
theorem addWritesTheWrappedSum : Obligations.AddWritesTheWrappedSum := by
  intro s d hi hd
  refine ⟨fun a b => ?RRR, fun a b hb => ?RRC, fun a b hb => ?RRA, fun a b ha => ?RCR, fun a b ha hb => ?RCC,
    fun a b ha hb => ?RCA, fun a b ha => ?RAR, fun a b ha hb => ?RAC, fun a b ha hb => ?RAA⟩
  case RRR => exact hi.completesWriting_of_addInto hd (hi.yields_reg a) (hi.yields_reg b) rfl
  case RRC => exact hi.completesWriting_of_addInto hd (hi.yields_reg a) (State.yields_const hb) rfl
  case RRA => exact hi.completesWriting_of_addInto hd (hi.yields_reg a) (hi.yields_addr hb) rfl
  case RCR => exact hi.completesWriting_of_addInto hd (State.yields_const ha) (hi.yields_reg b) rfl
  case RCC => exact hi.completesWriting_of_addInto hd (State.yields_const ha) (State.yields_const hb) rfl
  case RCA => exact hi.completesWriting_of_addInto hd (State.yields_const ha) (hi.yields_addr hb) rfl
  case RAR => exact hi.completesWriting_of_addInto hd (hi.yields_addr ha) (hi.yields_reg b) rfl
  case RAC => exact hi.completesWriting_of_addInto hd (hi.yields_addr ha) (State.yields_const hb) rfl
  case RAA => exact hi.completesWriting_of_addInto hd (hi.yields_addr ha) (hi.yields_addr hb) rfl

/-! ## SUB (R136) -/

theorem State.Yields.differenceWord_word (ha : s.Yields a va) (hb : s.Yields b vb) :
    s.IsWord (differenceWord s.params va vb) :=
  aluSub_eq_differenceWord ha.word hb.word ▸ aluSub_lt s.params va vb

theorem subInto_of_yields (ha : s.Yields a va) (hb : s.Yields b vb) :
    subInto d a b s = .next (s.setX d (differenceWord s.params va vb)).advancePc := by
  rw [subInto, ha.value, onOk_ok, hb.value, onOk_ok, aluSub_eq_differenceWord ha.word hb.word]

theorem State.Inv.completesWriting_of_subInto (h : s.Inv) {i : Instr} (hd : s.IsReg d) (ha : s.Yields a va)
    (hb : s.Yields b vb) (hx : exec i s = subInto d a b s) :
    CompletesWriting i s d (differenceWord s.params va vb) :=
  h.completesWriting_of_setX hd (ha.differenceWord_word hb) (hx.trans (subInto_of_yields ha hb))

/-- Settles O35: each form is the shared meaning of SUB on its own two kinds of source operand
(`State.Inv.completesWriting_of_subInto`). -/
theorem subWritesTheWrappedDifference : Obligations.SubWritesTheWrappedDifference := by
  intro s d hi hd
  refine ⟨fun a b => ?RRR, fun a b hb => ?RRC, fun a b hb => ?RRA, fun a b ha => ?RCR, fun a b ha hb => ?RCC,
    fun a b ha hb => ?RCA, fun a b ha => ?RAR, fun a b ha hb => ?RAC, fun a b ha hb => ?RAA⟩
  case RRR => exact hi.completesWriting_of_subInto hd (hi.yields_reg a) (hi.yields_reg b) rfl
  case RRC => exact hi.completesWriting_of_subInto hd (hi.yields_reg a) (State.yields_const hb) rfl
  case RRA => exact hi.completesWriting_of_subInto hd (hi.yields_reg a) (hi.yields_addr hb) rfl
  case RCR => exact hi.completesWriting_of_subInto hd (State.yields_const ha) (hi.yields_reg b) rfl
  case RCC => exact hi.completesWriting_of_subInto hd (State.yields_const ha) (State.yields_const hb) rfl
  case RCA => exact hi.completesWriting_of_subInto hd (State.yields_const ha) (hi.yields_addr hb) rfl
  case RAR => exact hi.completesWriting_of_subInto hd (hi.yields_addr ha) (hi.yields_reg b) rfl
  case RAC => exact hi.completesWriting_of_subInto hd (hi.yields_addr ha) (State.yields_const hb) rfl
  case RAA => exact hi.completesWriting_of_subInto hd (hi.yields_addr ha) (hi.yields_addr hb) rfl

end Sys2Proof.Machine
end

/-! SUPPORT. The byte ports (44_byte_io.md): what WRITE (R140) and READ (R141) make of a state; that every other
instruction neither looks at the ports nor changes them (R144); and what a step makes of them. -/

section
namespace Sys2Proof.Machine

variable {s t : State} {o : Operand} {d : RegIdx} {bytes : List Byte}

/-! ## WRITE (R140) -/

theorem truncByte_zextByte (b : Byte) : truncByte (zextByte b) = b := BitVec.ofNat_toNat 8 b

/-- Bits 7 to 0 are the value modulo 256 (D15). -/
theorem truncByte_eq_mod (v : Word) : truncByte v = BitVec.ofNat 8 (v % 256) :=
  BitVec.eq_of_toNat_eq (Nat.mod_mod v 256).symm

theorem writeByte_of_srcVal {v : Word} (hv : s.srcVal o = .ok v) :
    writeByte o s = .next (s.emit (truncByte v)).advancePc := by
  rw [writeByte, hv, onOk_ok]

theorem State.Inv.completesSending_of_srcVal (h : s.Inv) {i : Instr} {v : Word} {b : Byte} (hv : s.srcVal o = .ok v)
    (hb : truncByte v = b) (hx : exec i s = writeByte o s) : CompletesSending i s b := by
  subst hb
  exact ⟨_, hx.trans (writeByte_of_srcVal hv), (h.emit _).advancePc_x,
    ⟨rfl, rfl, rfl, rfl, rfl, rfl, rfl, rfl, rfl⟩, rfl⟩

theorem writeByte_ports (h : writeByte o s = .next t) :
    t.input = s.input ∧ (t.output = s.output ∨ ∃ b, t.output = s.output ++ [b]) := by
  rcases writeByte_next h with ⟨v, _, rfl⟩ | ⟨e, _, _, rfl⟩
  · exact ⟨rfl, .inr ⟨truncByte v, rfl⟩⟩
  · exact ⟨rfl, .inl rfl⟩

theorem writeByte_supply (h : writeByte o s = .next t) : writeByte o (s.supply bytes) = .next (t.supply bytes) := by
  rcases writeByte_next h with ⟨v, hv, rfl⟩ | ⟨e, he, hs, rfl⟩
  · exact writeByte_of_srcVal (s := s.supply bytes) hv
  · have he' : (s.supply bytes).srcVal o = .error e := he
    rw [writeByte, he', onOk_error]
    exact raise_running (s := s.supply bytes) hs e

/-- Settles O36: each form sends the low byte of its own operand's value (`State.Inv.completesSending_of_srcVal`). -/
theorem writeSendsTheLowByte : Obligations.WriteSendsTheLowByte := by
  refine fun s hi => ⟨fun b => ?_, fun c => ?_, fun r => ?_⟩
  · exact hi.completesSending_of_srcVal (s.srcVal_char b) (truncByte_zextByte b) (exec_writeH b s)
  · exact hi.completesSending_of_srcVal (s.srcVal_const c) (truncByte_eq_mod c) (exec_writeC c s)
  · exact hi.completesSending_of_srcVal (s.srcVal_reg r) (truncByte_eq_mod (s.x r)) (exec_writeR r s)

/-! ## READ (R141, R143) -/

theorem readInto_of_input {b : Byte} {rest : List Byte} (h : s.input = b :: rest) :
    readInto d s = .next (State.setX { s with input := rest } d (zextByte b)).advancePc := by
  rw [readInto, State.receive_eq, h]

theorem readInto_ports (h : readInto d s = .next t) : t.output = s.output ∧ ∃ b, s.input = b :: t.input := by
  obtain ⟨b, rest, hin, rfl⟩ := readInto_next h
  exact ⟨rfl, b, hin⟩

/-- The first byte is still the first when more stand behind it. -/
theorem readInto_supply (h : readInto d s = .next t) : readInto d (s.supply bytes) = .next (t.supply bytes) := by
  obtain ⟨b, rest, hin, rfl⟩ := readInto_next h
  exact readInto_of_input (s := s.supply bytes) (congrArg (· ++ bytes) hin)

/-- Settles O37: a READ is a register write and the advance of pc in the state that the byte has left; a byte is a word
of every machine. -/
theorem readTakesTheNextByteZeroExtended : Obligations.ReadTakesTheNextByteZeroExtended := by
  intro s d b rest hi hd hin
  refine ⟨_, readInto_of_input hin, ?_, rfl, ⟨rfl, rfl, rfl, rfl, rfl, rfl, rfl, rfl, rfl⟩⟩
  exact (hi.withInput rest).setX_advancePc_written hd (hi.zextByte_word b)

/-- Settles O38: an empty input is refused (`readInto_waits`), one with a first byte is not (`readInto_of_input`). -/
theorem readWithNoByteWaits : Obligations.ReadWithNoByteWaits := by
  intro s d hin
  refine ⟨readInto_waits d hin, fun b more => ?_⟩
  have hsupplied : (s.supply (b :: more)).input = b :: more := congrArg (· ++ b :: more) hin
  exact ⟨_, readInto_of_input hsupplied, rfl⟩

/-! ## Blind to the ports -/

/-- The state with other bytes waiting and other bytes sent. -/
def State.withPorts (s : State) (inp out : List Byte) : State := { s with input := inp, output := out }

section
variable (s : State) (inp out : List Byte)

@[simp] theorem State.withPorts_input : (s.withPorts inp out).input = inp := rfl
@[simp] theorem State.withPorts_output : (s.withPorts inp out).output = out := rfl
@[simp] theorem State.withPorts_stopped : (s.withPorts inp out).stopped = s.stopped := rfl
@[simp] theorem State.withPorts_execValid (a : Nat) : (s.withPorts inp out).execValid a = s.execValid a := rfl
@[simp] theorem State.withPorts_memRead (a : Word) : (s.withPorts inp out).memRead a = s.memRead a := rfl
@[simp] theorem State.withPorts_checkWrite (a : Word) : (s.withPorts inp out).checkWrite a = s.checkWrite a := rfl

theorem State.withPorts_srcVal (o : Operand) : (s.withPorts inp out).srcVal o = s.srcVal o := by
  cases o <;> rfl

theorem State.withPorts_addrOf (o : Operand) : (s.withPorts inp out).addrOf o = s.addrOf o := by
  cases o <;> rfl

end

/-- The outcome with `f` done to its next state, if it has one. -/
def mapNext (f : State → State) : Result → Result
  | .next t => .next (f t)
  | .fault r => .fault r
  | .refused r => .refused r

/-- `f` neither looks at the ports nor changes them: whatever they hold, it does the same and leaves them. -/
def PortBlind (f : State → Result) : Prop :=
  ∀ (s : State) (inp out : List Byte), f (s.withPorts inp out) = mapNext (·.withPorts inp out) (f s)

theorem PortBlind.ports {f : State → Result} (hf : PortBlind f) (h : f s = .next t) :
    t.input = s.input ∧ t.output = s.output := by
  have hown : f s = mapNext (·.withPorts s.input s.output) (f s) := hf s s.input s.output
  rw [h] at hown
  have ht : t = t.withPorts s.input s.output := Host.Outcome.next.inj hown
  exact ⟨by rw [ht, State.withPorts_input], by rw [ht, State.withPorts_output]⟩

theorem PortBlind.supply {f : State → Result} (hf : PortBlind f) (h : f s = .next t) :
    f (s.supply bytes) = .next (t.supply bytes) := by
  obtain ⟨hin, hout⟩ := hf.ports h
  calc f (s.supply bytes)
    _ = mapNext (·.withPorts (s.input ++ bytes) s.output) (f s) := hf s (s.input ++ bytes) s.output
    _ = .next (t.withPorts (t.input ++ bytes) t.output) := by rw [h, hin, hout, mapNext]
    _ = .next (t.supply bytes) := rfl

theorem raise_portBlind (e : Cause) : PortBlind (raise e) := by
  intro s inp out
  unfold raise
  rw [State.withPorts_stopped]
  split_ifs <;> rfl

theorem next_portBlind {f : State → State} (hf : ∀ s inp out, f (s.withPorts inp out) = (f s).withPorts inp out) :
    PortBlind fun s => .next (f s) :=
  fun s inp out => congrArg Host.Outcome.next (hf s inp out)

/-- A check that does not look at the ports, before what is blind to them too. -/
theorem onOk_portBlind {α : Type} {c : State → Except Cause α} {k : α → State → Result}
    (hc : ∀ s inp out, c (s.withPorts inp out) = c s) (hk : ∀ v, PortBlind (k v)) :
    PortBlind fun s => onOk (c s) s fun v => k v s := by
  intro s inp out
  dsimp only
  rw [hc]
  cases c s with
  | ok v => exact hk v s inp out
  | error e => exact raise_portBlind e s inp out

theorem onOk_srcVal_portBlind (o : Operand) {k : Word → State → Result} (hk : ∀ v, PortBlind (k v)) :
    PortBlind fun s => onOk (s.srcVal o) s fun v => k v s :=
  onOk_portBlind (fun s inp out => s.withPorts_srcVal inp out o) hk

theorem jumpTo_portBlind (o : Operand) : PortBlind (jumpTo o) := by
  intro s inp out
  unfold jumpTo
  rw [State.withPorts_addrOf, State.withPorts_execValid]
  split_ifs
  · rfl
  · exact raise_portBlind _ s inp out

theorem condOn_portBlind (o : Operand) : PortBlind (condOn o) :=
  onOk_srcVal_portBlind o fun v => next_portBlind fun s inp out => by split_ifs <;> rfl

theorem moveToReg_portBlind (d : RegIdx) (o : Operand) : PortBlind (moveToReg d o) :=
  onOk_srcVal_portBlind o fun _ => next_portBlind fun _ _ _ => rfl

theorem addInto_portBlind (d : RegIdx) (a b : Operand) : PortBlind (addInto d a b) :=
  onOk_srcVal_portBlind a fun _ => onOk_srcVal_portBlind b fun _ => next_portBlind fun _ _ _ => rfl

theorem subInto_portBlind (d : RegIdx) (a b : Operand) : PortBlind (subInto d a b) :=
  onOk_srcVal_portBlind a fun _ => onOk_srcVal_portBlind b fun _ => next_portBlind fun _ _ _ => rfl

theorem moveToCell_portBlind (a : Word) (o : Operand) : PortBlind (moveToCell a o) := by
  have hmove : moveToCell a o = fun s => onOk (s.srcVal o) s fun v => onOk (s.checkWrite a) s fun _ =>
      .next (s.setData a v).advancePc := by
    funext s
    simp only [moveToCell, onOk_memWrite]
  rw [hmove]
  exact onOk_srcVal_portBlind o fun _ =>
    onOk_portBlind (fun s inp out => s.withPorts_checkWrite inp out a) fun _ => next_portBlind fun _ _ _ => rfl

theorem loadInto_portBlind (d : RegIdx) (o : Operand) : PortBlind (loadInto d o) :=
  onOk_portBlind (fun s inp out => congrArg s.memRead (s.withPorts_addrOf inp out o)) fun _ =>
    next_portBlind fun _ _ _ => rfl

theorem storeAt_portBlind (a o : Operand) : PortBlind (storeAt a o) :=
  onOk_portBlind (fun s inp out => congrArg s.checkWrite (s.withPorts_addrOf inp out a)) fun _ =>
    onOk_srcVal_portBlind o fun v => next_portBlind fun s inp out =>
      congrArg (fun k => ((s.setData k v).advancePc).withPorts inp out) (s.withPorts_addrOf inp out a)

theorem pushValue_portBlind (o : Operand) : PortBlind (pushValue o) :=
  onOk_portBlind (fun s inp out => s.withPorts_checkWrite inp out s.sp) fun _ =>
    onOk_srcVal_portBlind o fun _ => next_portBlind fun _ _ _ => rfl

theorem popInto_portBlind (d : RegIdx) : PortBlind (popInto d) :=
  onOk_portBlind (fun s inp out => s.withPorts_memRead inp out s.belowSp) fun _ => next_portBlind fun _ _ _ => rfl

/-- Every instruction is a WRITE, a READ, or blind to the ports. -/
theorem exec_port_cases (i : Instr) :
    (i.opcode = .write ∧ ∃ o, ∀ s, exec i s = writeByte o s) ∨
      (i.opcode = .read ∧ ∃ d, ∀ s, exec i s = readInto d s) ∨ PortBlind (exec i) := by
  cases i
  case writeH b => exact .inl ⟨rfl, _, exec_writeH b⟩
  case writeC c => exact .inl ⟨rfl, _, exec_writeC c⟩
  case writeR r => exact .inl ⟨rfl, _, exec_writeR r⟩
  case readR d => exact .inr (.inl ⟨rfl, d, exec_readR d⟩)
  all_goals refine .inr (.inr fun s inp out => ?_)
  case jumpR | jumpA =>
    simp only [exec_jumpR, exec_jumpA]
    exact jumpTo_portBlind _ s inp out
  case condR | condC | condA =>
    simp only [exec_condR, exec_condC, exec_condA]
    exact condOn_portBlind _ s inp out
  case moveRR | moveRC | moveRA =>
    simp only [exec_moveRR, exec_moveRC, exec_moveRA]
    exact moveToReg_portBlind _ _ s inp out
  case moveAR | moveAC | moveAA =>
    simp only [exec_moveAR, exec_moveAC, exec_moveAA]
    exact moveToCell_portBlind _ _ s inp out
  case addRRR | addRRC | addRRA | addRCR | addRCC | addRCA | addRAR | addRAC | addRAA =>
    simp only [exec_addRRR, exec_addRRC, exec_addRRA, exec_addRCR, exec_addRCC, exec_addRCA, exec_addRAR,
      exec_addRAC, exec_addRAA]
    exact addInto_portBlind _ _ _ s inp out
  case subRRR | subRRC | subRRA | subRCR | subRCC | subRCA | subRAR | subRAC | subRAA =>
    simp only [exec_subRRR, exec_subRRC, exec_subRRA, exec_subRCR, exec_subRCC, exec_subRCA, exec_subRAR,
      exec_subRAC, exec_subRAA]
    exact subInto_portBlind _ _ _ s inp out
  case loadRR | loadRC =>
    simp only [exec_loadRR, exec_loadRC]
    exact loadInto_portBlind _ _ s inp out
  case storeRR | storeRC | storeCR | storeCC =>
    simp only [exec_storeRR, exec_storeRC, exec_storeCR, exec_storeCC]
    exact storeAt_portBlind _ _ s inp out
  case pushR | pushC =>
    simp only [exec_pushR, exec_pushC]
    exact pushValue_portBlind _ s inp out
  case popR => exact popInto_portBlind _ s inp out
  case brk => exact raise_portBlind _ s inp out

/-! ## The ports in a step -/

theorem exec_supply {i : Instr} (h : exec i s = .next t) : exec i (s.supply bytes) = .next (t.supply bytes) := by
  rcases exec_port_cases i with ⟨_, o, hw⟩ | ⟨_, d, hr⟩ | hblind
  · rw [hw] at h ⊢; exact writeByte_supply h
  · rw [hr] at h ⊢; exact readInto_supply h
  · exact hblind.supply h

/-- Settles O27: the fetch does not look at the input, and what it answers, an exception or an instruction
(`exec_supply`), does the same with more bytes behind. -/
theorem bytesSuppliedLaterDoNotChangeTheStep : Obligations.BytesSuppliedLaterDoNotChangeTheStep := by
  intro s t bytes h
  obtain ⟨hr, ⟨i, hi, hx⟩ | ⟨e, he, _, rfl⟩⟩ := step_next h
  · exact (step_of_fetchDecode_ok (s := s.supply bytes) hr hi).trans (exec_supply hx)
  · exact step_of_fetchDecode_error (s := s.supply bytes) hr he

/-- Settles O26: an exception changes no port, and the fetched instruction is a WRITE, a READ or blind to the ports
(`exec_port_cases`). -/
theorem onlyWriteSendsAndOnlyReadReceives : Obligations.OnlyWriteSendsAndOnlyReadReceives := by
  intro s t h
  obtain ⟨_, ⟨i, hi, hx⟩ | ⟨e, _, _, rfl⟩⟩ := step_next h
  · rcases exec_port_cases i with ⟨hop, o, hw⟩ | ⟨hop, d, hr⟩ | hblind
    · obtain ⟨hin, hout⟩ := writeByte_ports ((hw s).symm.trans hx)
      exact ⟨hout.imp_right fun hsent => ⟨i, hi, hop, hsent⟩, .inl hin⟩
    · obtain ⟨hout, hin⟩ := readInto_ports ((hr s).symm.trans hx)
      exact ⟨.inl hout, .inr ⟨i, hi, hop, hin⟩⟩
    · obtain ⟨hin, hout⟩ := hblind.ports hx
      exact ⟨.inl hout, .inl hin⟩
  · exact ⟨.inl rfl, .inl rfl⟩

end Sys2Proof.Machine
end

/-! SUPPORT. LOAD and STORE (R145, R146): what each makes of a state when its address is a data cell, and the record of an
instruction with two operands. -/

section
namespace Sys2Proof.Machine

variable {s : State} {d : RegIdx} {addr value : Operand} {i : Instr}

/-! ## LOAD (R145) -/

theorem loadInto_of_dataCell (hc : s.DataCell (s.addrOf addr)) :
    loadInto d addr s = .next (s.setX d (s.dataAt (s.addrOf addr))).advancePc := by
  rw [loadInto, State.memRead_of_dataCell hc, onOk_ok]

theorem State.Inv.completesWriting_of_loadInto (h : s.Inv) (hd : s.IsReg d) (hc : s.DataCell (s.addrOf addr))
    (hx : exec i s = loadInto d addr s) : CompletesWriting i s d (s.dataAt (s.addrOf addr)) :=
  h.completesWriting_of_setX hd (h.dataAt_word _) (hx.trans (loadInto_of_dataCell hc))

/-- Settles O39: each form is the shared meaning of LOAD on its own address operand
(`State.Inv.completesWriting_of_loadInto`). -/
theorem loadReadsTheCell : Obligations.LoadReadsTheCell := by
  refine fun s d hi hd => ⟨fun r hc => ?_, fun a hc => ?_⟩
  · exact hi.completesWriting_of_loadInto (addr := .reg r) hd hc (exec_loadRR d r s)
  · exact hi.completesWriting_of_loadInto (addr := .const a) hd hc (exec_loadRC d a s)

/-! ## STORE (R146) -/

theorem storeAt_of_dataCell {v : Word} (hc : s.DataCell (s.addrOf addr)) (hv : s.srcVal value = .ok v) :
    storeAt addr value s = .next (s.setData (s.addrOf addr) v).advancePc := by
  rw [storeAt, State.checkWrite_of_dataCell hc, onOk_ok, hv, onOk_ok]

theorem State.Inv.completesStoring_of_storeAt (h : s.Inv) {v : Word} (hc : s.DataCell (s.addrOf addr))
    (hv : s.srcVal value = .ok v) (hx : exec i s = storeAt addr value s) :
    CompletesStoring i s (s.addrOf addr) v :=
  h.completesStoring_of_setData (hx.trans (storeAt_of_dataCell hc hv))

/-- The record of an instruction with two operands: their payloads in slots 0 and 1, and 0 in the slot left over (R69). -/
theorem encode_of_two_operands {o o' : Operand} (p : Params) (ho : i.operands = [o, o']) :
    encode p i = mkRecord p i.header o.payload o'.payload 0 := by
  simp [encode, Instr.slot, ho]

/-- Settles O40: each form is the shared meaning of STORE on its own address and value operand, which completes on a data
cell (`State.Inv.completesStoring_of_storeAt`) and raises on any other address, the address being its one access
(`raises_of_not_dataCell`). -/
theorem storeReplacesTheCellOrRaises : Obligations.StoreReplacesTheCellOrRaises := by
  refine fun s hi => ⟨?stores, fun hs => ?raises, ?encodings⟩
  case stores =>
    refine ⟨fun r v hc => ?_, fun r c hc => ?_, fun a v hc => ?_, fun a c hc => ?_⟩
    · exact hi.completesStoring_of_storeAt (addr := .reg r) hc (s.srcVal_reg v) (exec_storeRR r v s)
    · exact hi.completesStoring_of_storeAt (addr := .reg r) hc (s.srcVal_const c) (exec_storeRC r c s)
    · exact hi.completesStoring_of_storeAt (addr := .const a) hc (s.srcVal_reg v) (exec_storeCR a v s)
    · exact hi.completesStoring_of_storeAt (addr := .const a) hc (s.srcVal_const c) (exec_storeCC a c s)
  case raises =>
    refine ⟨fun r v hc => ?_, fun r c hc => ?_, fun a v hc => ?_, fun a c hc => ?_⟩ <;>
      exact raises_of_not_dataCell hs (List.mem_singleton_self _) hc
  case encodings =>
    refine ⟨fun r v => ?_, fun r c => ?_, fun a v => ?_, fun a c => ?_⟩
    · exact encode_of_two_operands (i := .storeRR r v) s.params rfl
    · exact encode_of_two_operands (i := .storeRC r c) s.params rfl
    · exact encode_of_two_operands (i := .storeCR a v) s.params rfl
    · exact encode_of_two_operands (i := .storeCC a c) s.params rfl

end Sys2Proof.Machine
end

/-! SUPPORT. PUSH and POP (R150, R151): the state that each leaves, what its registers and cells hold, and that a POP takes
back what a PUSH did (R152). -/

section
namespace Sys2Proof.Machine

variable {s : State} {i : Instr} {d r : RegIdx} {o : Operand} {v : Word}

/-! ## sp and the cell below it (R57) -/

theorem State.Inv.belowSp_eq (h : s.Inv) : s.belowSp = differenceWord s.params s.sp 1 :=
  aluSub_eq_differenceWord h.sp_word h.one_word

theorem State.Inv.belowSp_cases (h : s.Inv) :
    s.belowSp = if s.sp = 0 then 2 ^ s.params.xlen - 1 else s.sp - 1 := by
  rw [h.belowSp_eq, differenceWord]
  by_cases hsp : s.sp = 0
  · rw [if_pos hsp, hsp, if_pos Nat.one_pos, Nat.zero_add]
  · rw [if_neg hsp, if_neg (Nat.not_lt.mpr (Nat.one_le_iff_ne_zero.mpr hsp))]

/-- CAPACITY is at most 2^XLEN - 1, the address that sp = 0 wraps to (D17). -/
theorem State.Inv.belowSp_not_dataCell (h : s.Inv) (hsp : s.sp = 0) : ¬ s.DataCell s.belowSp := by
  rw [h.belowSp_cases, if_pos hsp]
  exact fun hc => Nat.not_lt.mpr h.params.capacity_le hc.2

theorem State.Inv.setX_sp (h : s.Inv) (hd : s.IsReg d) (v : Word) :
    (s.setX d v).sp = if d = s.spIdx then v else s.sp :=
  (h.setX_x hd v s.spIdx).trans (if_congr eq_comm rfl rfl)

/-- The registers after both instructions: pc and sp are different registers, so each is advanced from its own value. -/
theorem State.Inv.setSp_advancePc_x (h : s.Inv) (hv : s.IsWord v) (j : RegIdx) :
    (s.setSp v).advancePc.x j =
      if j = s.pcIdx then sumWord s.params s.pc 1 else if j = s.spIdx then v else s.x j := by
  have hpc : (s.setSp v).pc = s.pc := (h.setSp_x v s.pcIdx).trans (if_neg h.pcIdx_ne_spIdx)
  rw [(h.setSp hv).advancePc_x, hpc, h.setSp_x, State.setSp_pcIdx, State.setSp_params]

/-! ## PUSH (R150) -/

/-- The state that a PUSH of `v` leaves (`pushValue_of_dataCell`). -/
def State.pushed (s : State) (v : Word) : State :=
  ((s.setData s.sp v).setSp (aluAdd s.params s.sp 1)).advancePc

theorem pushValue_of_dataCell (hc : s.DataCell s.sp) (hv : s.srcVal o = .ok v) :
    pushValue o s = .next (s.pushed v) := by
  rw [pushValue, State.checkWrite_of_dataCell hc, onOk_ok, hv, onOk_ok]
  rfl

/-- The store touches no register and the registers move no cell, so the store can be seen as the last of the three. -/
theorem State.pushed_eq_setData (s : State) (v : Word) :
    s.pushed v = (s.setSp (aluAdd s.params s.sp 1)).advancePc.setData s.sp v := rfl

theorem State.Inv.pushed_x (h : s.Inv) (v : Word) (j : RegIdx) :
    (s.pushed v).x j = if j = s.pcIdx then sumWord s.params s.pc 1
      else if j = s.spIdx then sumWord s.params s.sp 1 else s.x j := by
  rw [State.pushed_eq_setData, State.setData_x, h.setSp_advancePc_x (aluAdd_lt _ _ _),
    aluAdd_eq_sumWord h.sp_word h.one_word]

theorem State.Inv.pushed_onlyCellBecomes (h : s.Inv) (v : Word) : s.OnlyCellBecomes s.sp v (s.pushed v) :=
  State.setData_onlyCellBecomes h.dmem_wf s.sp v

theorem State.pushed_sameButRegsData (s : State) (v : Word) : s.SameButRegsData (s.pushed v) :=
  ⟨rfl, rfl, rfl, rfl, rfl, rfl, rfl, rfl⟩

theorem State.Inv.pushed (h : s.Inv) (hc : s.DataCell s.sp) (hv : s.IsWord v) : (s.pushed v).Inv :=
  ((h.setData hc hv).setSp (aluAdd_lt _ _ _)).advancePc

theorem State.Inv.completesPushing_of_pushValue (h : s.Inv) (hc : s.DataCell s.sp) (hv : s.srcVal o = .ok v)
    (hx : exec i s = pushValue o s) : CompletesPushing i s v :=
  ⟨s.pushed v, hx.trans (pushValue_of_dataCell hc hv), h.pushed_x v, h.pushed_onlyCellBecomes v,
    s.pushed_sameButRegsData v⟩

/-- Settles O42: each form is the shared meaning of PUSH on its own operand, whose value is read in the state before the
instruction (`State.Inv.completesPushing_of_pushValue`). -/
theorem pushStoresAtSpAndRaisesSp : Obligations.PushStoresAtSpAndRaisesSp := by
  refine fun s hi hc => ⟨fun r => ?_, fun c => ?_⟩
  · exact hi.completesPushing_of_pushValue hc (s.srcVal_reg r) (exec_pushR r s)
  · exact hi.completesPushing_of_pushValue hc (s.srcVal_const c) (exec_pushC c s)

/-! ## POP (R151) -/

/-- The state that a POP of `v` to register `d` leaves (`popInto_of_dataCell`). -/
def State.popped (s : State) (d : RegIdx) (v : Word) : State :=
  ((s.setX d v).setSp (s.setX d v).belowSp).advancePc

theorem popInto_of_dataCell (hc : s.DataCell s.belowSp) :
    popInto d s = .next (s.popped d (s.dataAt s.belowSp)) := by
  rw [popInto, State.memRead_of_dataCell hc, onOk_ok]
  rfl

/-- Both sp and pc are read after the write of the destination, so that a POP to one of them is moved too (D13). -/
theorem State.Inv.popped_x (h : s.Inv) (hd : s.IsReg d) (hv : s.IsWord v) (j : RegIdx) :
    (s.popped d v).x j =
      if j = s.pcIdx then sumWord s.params (if d = s.pcIdx then v else s.pc) 1
      else if j = s.spIdx then differenceWord s.params (if d = s.spIdx then v else s.sp) 1
      else if j = d then v else s.x j := by
  have hw : (s.setX d v).Inv := h.setX d hv
  have hbelow : (s.setX d v).IsWord (s.setX d v).belowSp := aluSub_lt _ _ _
  rw [State.popped, hw.setSp_advancePc_x hbelow, hw.belowSp_eq, h.setX_pc hd, h.setX_sp hd, h.setX_x hd,
    State.setX_pcIdx, State.setX_spIdx, State.setX_params]

theorem State.popped_sameButRegs (s : State) (d : RegIdx) (v : Word) : s.SameButRegs (s.popped d v) :=
  ⟨rfl, rfl, rfl, rfl, rfl, rfl, rfl, rfl, rfl⟩

/-- Settles O43: a POP from a data cell leaves `State.popped` of that cell's word, which is a word of the machine. -/
theorem popLoadsBelowSpAndLowersSp : Obligations.PopLoadsBelowSpAndLowersSp := by
  intro s d hi hd hc
  exact ⟨_, popInto_of_dataCell hc, hi.popped_x hd (hi.dataAt_word _), s.popped_sameButRegs d _⟩

/-! ## sp outside the data region (R58) -/

/-- Settles O44: the one access of each instruction, the cell sp names or the one below it, is no data cell
(`raises_of_not_dataCell`); with sp = 0 the one below never is (`State.Inv.belowSp_not_dataCell`). -/
theorem pushAndPopOutsideTheDataRegionRaise : Obligations.PushAndPopOutsideTheDataRegionRaise := by
  refine fun s hi => ⟨hi.belowSp_cases, fun hs => ?_⟩
  have popRaises (hc : ¬ s.DataCell s.belowSp) (d : RegIdx) : Raises (.popR d) s .accessViolation :=
    raises_of_not_dataCell hs (List.mem_singleton_self _) hc
  refine ⟨fun hc => ⟨fun r => ?_, fun c => ?_⟩, popRaises, fun hsp => popRaises (hi.belowSp_not_dataCell hsp)⟩ <;>
    exact raises_of_not_dataCell hs (List.mem_singleton_self _) hc

/-! ## PUSH, then POP (R152) -/

theorem aluSub_aluAdd_cancel {p : Params} {a : Word} (b : Word) (ha : a < 2 ^ p.xlen) (hb : b < 2 ^ p.xlen) :
    aluSub p (aluAdd p a b) b = a := by
  rw [aluSub_eq (aluAdd_lt p a b) hb, aluAdd_eq ha hb]
  split_ifs <;> lia

theorem State.Inv.pushed_sp (h : s.Inv) (v : Word) : (s.pushed v).sp = sumWord s.params s.sp 1 :=
  (h.pushed_x v s.spIdx).trans ((if_neg h.pcIdx_ne_spIdx.symm).trans (if_pos rfl))

theorem State.Inv.pushed_pc (h : s.Inv) (v : Word) : (s.pushed v).pc = sumWord s.params s.pc 1 :=
  (h.pushed_x v s.pcIdx).trans (if_pos rfl)

/-- POP takes off sp what PUSH added to it, so it reads the cell that PUSH wrote. -/
theorem State.Inv.pushed_belowSp (h : s.Inv) (v : Word) : (s.pushed v).belowSp = s.sp := by
  rw [State.belowSp, h.pushed_sp, ← aluAdd_eq_sumWord h.sp_word h.one_word]
  exact aluSub_aluAdd_cancel 1 h.sp_word h.one_word

theorem State.Inv.sumWord_pc_twice (h : s.Inv) :
    sumWord s.params (sumWord s.params s.pc 1) 1 = sumWord s.params s.pc 2 := by
  have htwo : s.IsWord 2 := Params.Legal.word_of_lt h.params (by decide)
  rw [← aluAdd_eq_sumWord h.pc_word h.one_word, ← aluAdd_eq_sumWord (aluAdd_lt _ _ _) h.one_word,
    ← aluAdd_eq_sumWord h.pc_word htwo, aluAdd_aluAdd]

/-- sp is back where it was, pc has moved twice, and only the destination of the POP is changed besides. -/
theorem State.Inv.pushed_popped_x (h : s.Inv) (hc : s.DataCell s.sp) (hv : s.IsWord v) (hr : s.IsReg r)
    (hsp : r ≠ s.spIdx) (hpc : r ≠ s.pcIdx) (j : RegIdx) :
    ((s.pushed v).popped r v).x j =
      if j = r then v else if j = s.pcIdx then sumWord s.params s.pc 2 else s.x j := by
  have ht : (s.pushed v).Inv := h.pushed hc hv
  have hback : differenceWord s.params (s.pushed v).sp 1 = s.sp := ht.belowSp_eq.symm.trans (h.pushed_belowSp v)
  have hx : ((s.pushed v).popped r v).x j =
      if j = s.pcIdx then sumWord s.params (if r = s.pcIdx then v else (s.pushed v).pc) 1
      else if j = s.spIdx then differenceWord s.params (if r = s.spIdx then v else (s.pushed v).sp) 1
      else if j = r then v else (s.pushed v).x j := ht.popped_x hr hv j
  rw [hx, if_neg hpc, if_neg hsp, h.pushed_pc, h.sumWord_pc_twice, hback, h.pushed_x]
  by_cases hjpc : j = s.pcIdx
  · rw [if_pos hjpc, if_neg (hjpc.trans_ne hpc.symm), if_pos hjpc]
  by_cases hjsp : j = s.spIdx
  · rw [if_neg hjpc, if_pos hjsp, if_neg (hjsp.trans_ne hsp.symm), if_neg hjpc, hjsp, State.sp]
  · simp only [if_neg hjpc, if_neg hjsp]

theorem State.pushed_popped_sameButRegsData (s : State) (r : RegIdx) (v : Word) :
    s.SameButRegsData ((s.pushed v).popped r v) :=
  ⟨rfl, rfl, rfl, rfl, rfl, rfl, rfl, rfl⟩

theorem State.Inv.popsWhatItPushed_of_yields (h : s.Inv) (hc : s.DataCell s.sp) (hr : s.IsReg r)
    (hsp : r ≠ s.spIdx) (hpc : r ≠ s.pcIdx) (ho : s.Yields o v) (hx : exec i s = pushValue o s) :
    PopsWhatItPushed i s r v := by
  have hbelow : (s.pushed v).belowSp = s.sp := h.pushed_belowSp v
  have hcell : (s.pushed v).DataCell (s.pushed v).belowSp := hbelow.symm ▸ hc
  have hval : (s.pushed v).dataAt (s.pushed v).belowSp = v := by
    rw [hbelow, h.pushed_onlyCellBecomes v, if_pos rfl]
  have hpop : exec (.popR r) (s.pushed v) = .next ((s.pushed v).popped r v) := by
    rw [exec_popR, popInto_of_dataCell hcell, hval]
  exact ⟨s.pushed v, _, hx.trans (pushValue_of_dataCell hc ho.value), hpop,
    h.pushed_popped_x hc ho.word hr hsp hpc, h.pushed_onlyCellBecomes v, s.pushed_popped_sameButRegsData r v⟩

/-- Settles O45: each form is the shared meaning of PUSH on its own operand, and the POP finds the pushed value in the cell
below the raised sp (`State.Inv.popsWhatItPushed_of_yields`). -/
theorem popAfterPushRestoresSpAndTheValue : Obligations.PopAfterPushRestoresSpAndTheValue := by
  refine fun s r hi hc hr hsp hpc => ⟨fun v hv => ?_, fun q => ?_⟩
  · exact hi.popsWhatItPushed_of_yields hc hr hsp hpc (State.yields_const hv) (exec_pushC v s)
  · exact hi.popsWhatItPushed_of_yields hc hr hsp hpc (hi.yields_reg q) (exec_pushR q s)

end Sys2Proof.Machine
end

/-! SUPPORT. Which instructions raise and which complete (R103, R161, R163): the rows of the table as one relation between
an instruction, a state and a cause, and that an instruction raises exactly the causes of its rows. -/

section
namespace Sys2Proof.Machine

variable {s t : State} {i : Instr} {o : Operand} {d : RegIdx} {e : Cause}

/-! ## The rows of the table -/

/-- The conditions under which R161 gives the instruction `i` an exception in the state `s`, and which
(`raises_iff_tabled`). -/
inductive State.Tabled (s : State) (i : Instr) : Cause → Prop where
  | brk (h : i = .brk) : s.Tabled i .none
  | target {w : Word} (hw : s.jumpTarget i = some w) (h : ¬ w < s.ibound) : s.Tabled i .invalidInstruction
  | access {a : Word} (ha : a ∈ s.accesses i) (h : ¬ s.DataCell a) : s.Tabled i .accessViolation

theorem State.tabled_none_iff : s.Tabled i .none ↔ i = .brk :=
  ⟨fun | .brk h => h, .brk⟩

theorem State.tabled_invalidInstruction_iff :
    s.Tabled i .invalidInstruction ↔ ∃ w, s.jumpTarget i = some w ∧ ¬ w < s.ibound :=
  ⟨fun | .target hw h => ⟨_, hw, h⟩, fun ⟨_, hw, h⟩ => .target hw h⟩

theorem State.tabled_accessViolation_iff :
    s.Tabled i .accessViolation ↔ ∃ a ∈ s.accesses i, ¬ s.DataCell a :=
  ⟨fun | .access ha h => ⟨_, ha, h⟩, fun ⟨_, ha, h⟩ => .access ha h⟩

theorem State.not_tabled_noInstruction : ¬ s.Tabled i .noInstruction := nofun

theorem exec_of_jumpTarget_outside {w : Word} (hw : s.jumpTarget i = some w) (h : ¬ w < s.ibound) :
    exec i s = raise .invalidInstruction s := by
  cases i
  case jumpR r => cases hw; exact jumpTo_of_not_lt (o := .reg r) h
  case jumpA a => cases hw; exact jumpTo_of_not_lt (o := .addr _) h
  all_goals cases hw

theorem exec_of_tabled (h : s.Tabled i e) : exec i s = raise e s := by
  cases h with
  | brk h => rw [h, exec_brk, breakStop]
  | target hw h => exact exec_of_jumpTarget_outside hw h
  | access ha h => exact exec_of_not_dataCell ha h

/-! ## Completion -/

/-- The outcome is a next state, and its fault slot is that of `s`. -/
def CompletesFrom (s : State) (r : Result) : Prop :=
  ∃ t, r = .next t ∧ t.stopped = s.stopped ∧ t.cause = s.cause

theorem State.srcVal_of_reads (h : ∀ a ∈ o.reads, s.DataCell a) : ∃ v, s.srcVal o = .ok v := by
  cases o with
  | reg r => exact ⟨_, s.srcVal_reg r⟩
  | const c => exact ⟨_, s.srcVal_const c⟩
  | char b => exact ⟨_, s.srcVal_char b⟩
  | addr a => exact ⟨_, State.memRead_of_dataCell (h a (List.mem_singleton_self a))⟩

theorem onOk_srcVal_completes (h : ∀ a ∈ o.reads, s.DataCell a) {k : Word → Result}
    (hk : ∀ v, CompletesFrom s (k v)) : CompletesFrom s (onOk (s.srcVal o) s k) := by
  obtain ⟨v, hv⟩ := State.srcVal_of_reads h
  rw [hv, onOk_ok]
  exact hk v

/-- The meanings that start with the reads of two sources. -/
theorem onOk_srcVal_srcVal_completes {o' : Operand} (h : ∀ a ∈ o.reads ++ o'.reads, s.DataCell a)
    {k : Word → Word → Result} (hk : ∀ v v', CompletesFrom s (k v v')) :
    CompletesFrom s (onOk (s.srcVal o) s fun v => onOk (s.srcVal o') s (k v)) := by
  obtain ⟨hfirst, hsecond⟩ := List.forall_mem_append.mp h
  exact onOk_srcVal_completes hfirst fun v => onOk_srcVal_completes hsecond (hk v)

theorem jumpTo_completes (h : s.addrOf o < s.ibound) : CompletesFrom s (jumpTo o s) :=
  ⟨_, jumpTo_of_lt h, rfl, rfl⟩

theorem condOn_completes (h : ∀ a ∈ o.reads, s.DataCell a) : CompletesFrom s (condOn o s) :=
  onOk_srcVal_completes h fun v => ⟨_, rfl, by split_ifs <;> exact ⟨rfl, rfl⟩⟩

theorem moveToReg_completes (h : ∀ a ∈ o.reads, s.DataCell a) : CompletesFrom s (moveToReg d o s) :=
  onOk_srcVal_completes h fun _ => ⟨_, rfl, rfl, rfl⟩

theorem moveToCell_completes {c : Word} (h : ∀ a ∈ o.reads ++ [c], s.DataCell a) :
    CompletesFrom s (moveToCell c o s) := by
  obtain ⟨hsource, hcell⟩ := List.forall_mem_append.mp h
  obtain ⟨v, hv⟩ := State.srcVal_of_reads hsource
  exact ⟨_, moveToCell_of_srcVal hv (List.forall_mem_singleton.mp hcell), rfl, rfl⟩

theorem addInto_completes {a b : Operand} (h : ∀ c ∈ a.reads ++ b.reads, s.DataCell c) :
    CompletesFrom s (addInto d a b s) :=
  onOk_srcVal_srcVal_completes h fun _ _ => ⟨_, rfl, rfl, rfl⟩

theorem subInto_completes {a b : Operand} (h : ∀ c ∈ a.reads ++ b.reads, s.DataCell c) :
    CompletesFrom s (subInto d a b s) :=
  onOk_srcVal_srcVal_completes h fun _ _ => ⟨_, rfl, rfl, rfl⟩

theorem writeByte_completes (h : ∀ a ∈ o.reads, s.DataCell a) : CompletesFrom s (writeByte o s) :=
  onOk_srcVal_completes h fun _ => ⟨_, rfl, rfl, rfl⟩

theorem readInto_completes (h : s.input ≠ []) : CompletesFrom s (readInto d s) := by
  obtain ⟨b, rest, hin⟩ := List.exists_cons_of_ne_nil h
  exact ⟨_, readInto_of_input hin, rfl, rfl⟩

theorem loadInto_completes (h : s.DataCell (s.addrOf o)) : CompletesFrom s (loadInto d o s) :=
  ⟨_, loadInto_of_dataCell h, rfl, rfl⟩

theorem storeAt_completes {a : Operand} {v : Word} (h : s.DataCell (s.addrOf a)) (hv : s.srcVal o = .ok v) :
    CompletesFrom s (storeAt a o s) :=
  ⟨_, storeAt_of_dataCell h hv, rfl, rfl⟩

theorem pushValue_completes {v : Word} (h : s.DataCell s.sp) (hv : s.srcVal o = .ok v) :
    CompletesFrom s (pushValue o s) :=
  ⟨_, pushValue_of_dataCell h hv, rfl, rfl⟩

theorem popInto_completes (h : s.DataCell s.belowSp) : CompletesFrom s (popInto d s) :=
  ⟨_, popInto_of_dataCell h, rfl, rfl⟩

theorem exec_completes (hbrk : i ≠ .brk) (haccess : ∀ a ∈ s.accesses i, s.DataCell a)
    (htarget : ∀ w, s.jumpTarget i = some w → w < s.ibound) (hinput : (∃ d, i = .readR d) → s.input ≠ []) :
    CompletesFrom s (exec i s) := by
  cases i
  case jumpR | jumpA =>
    simp only [exec_jumpR, exec_jumpA]
    exact jumpTo_completes (htarget _ rfl)
  case condR | condC | condA =>
    simp only [exec_condR, exec_condC, exec_condA]
    exact condOn_completes haccess
  case moveRR | moveRC | moveRA =>
    simp only [exec_moveRR, exec_moveRC, exec_moveRA]
    exact moveToReg_completes haccess
  case moveAR | moveAC | moveAA =>
    simp only [exec_moveAR, exec_moveAC, exec_moveAA]
    exact moveToCell_completes haccess
  case addRRR | addRRC | addRRA | addRCR | addRCC | addRCA | addRAR | addRAC | addRAA =>
    simp only [exec_addRRR, exec_addRRC, exec_addRRA, exec_addRCR, exec_addRCC, exec_addRCA, exec_addRAR,
      exec_addRAC, exec_addRAA]
    exact addInto_completes haccess
  case subRRR | subRRC | subRRA | subRCR | subRCC | subRCA | subRAR | subRAC | subRAA =>
    simp only [exec_subRRR, exec_subRRC, exec_subRRA, exec_subRCR, exec_subRCC, exec_subRCA, exec_subRAR,
      exec_subRAC, exec_subRAA]
    exact subInto_completes haccess
  case writeH | writeC | writeR =>
    simp only [exec_writeH, exec_writeC, exec_writeR]
    exact writeByte_completes haccess
  case readR d => exact readInto_completes (hinput ⟨d, rfl⟩)
  case loadRR | loadRC =>
    simp only [exec_loadRR, exec_loadRC]
    exact loadInto_completes (haccess _ (List.mem_singleton_self _))
  case storeRR | storeRC | storeCR | storeCC =>
    simp only [exec_storeRR, exec_storeRC, exec_storeCR, exec_storeCC]
    exact storeAt_completes (haccess _ (List.mem_singleton_self _)) rfl
  case pushR | pushC =>
    simp only [exec_pushR, exec_pushC]
    exact pushValue_completes (haccess _ (List.mem_singleton_self _)) rfl
  case popR => exact popInto_completes (haccess _ (List.mem_singleton_self _))
  case brk => exact absurd rfl hbrk

/-- Settles O18: each shared meaning completes when its own accesses are valid (`exec_completes`). -/
theorem instructionWithValidAccessesCompletes : Obligations.InstructionWithValidAccessesCompletes :=
  fun _ _ => exec_completes

/-! ## Raising is the table -/

/-- An instruction that no row of the table gives an exception completes, but for a READ without a byte. -/
theorem exec_completes_of_not_tabled (h : ¬ ∃ e, s.Tabled i e) (hinput : (∃ d, i = .readR d) → s.input ≠ []) :
    CompletesFrom s (exec i s) := by
  refine exec_completes (fun hbrk => ?_) (fun a ha => ?_) (fun w hw => ?_) hinput
  · exact h ⟨_, .brk hbrk⟩
  · exact by_contra fun hc => h ⟨_, .access ha hc⟩
  · exact by_contra fun hlt => h ⟨_, .target hw hlt⟩

theorem input_ne_nil_of_exec_next (h : exec i s = .next t) : (∃ d, i = .readR d) → s.input ≠ [] := by
  rintro ⟨d, rfl⟩ hnil
  exact nomatch (readInto_waits d hnil).symm.trans h

theorem raises_iff_tabled (hs : s.stopped = false) : Raises i s e ↔ s.Tabled i e := by
  refine ⟨fun h => ?_, fun h => (exec_of_tabled h).trans (raise_running hs e)⟩
  by_cases htab : ∃ e', s.Tabled i e'
  · obtain ⟨e', h'⟩ := htab
    have hstates : s.stopWith e' = s.stopWith e :=
      Host.Outcome.next.inj (((exec_of_tabled h').trans (raise_running hs e')).symm.trans h)
    have hcause : e' = e := congrArg State.cause hstates
    exact hcause ▸ h'
  · obtain ⟨t, ht, hstopped, _⟩ := exec_completes_of_not_tabled htab (input_ne_nil_of_exec_next h)
    have hstates : t = s.stopWith e := Host.Outcome.next.inj (ht.symm.trans h)
    rw [hstates, State.stopWith_stopped, hs] at hstopped
    cases hstopped

/-- Settles O17: an instruction raises exactly the causes of its rows (`raises_iff_tabled`). -/
theorem instructionRaisesExactlyAsTabled : Obligations.InstructionRaisesExactlyAsTabled := by
  intro i s hs
  simp only [raises_iff_tabled hs]
  exact ⟨State.tabled_none_iff, State.tabled_invalidInstruction_iff, State.tabled_accessViolation_iff,
    State.not_tabled_noInstruction⟩

end Sys2Proof.Machine
end

/-! SUPPORT. How a step and a run can stop the core (R168, R204 to R206): a running core raises, completes or waits; a
cause is recorded once, and with well-formed code every recorded cause is that of its instruction or of a fetch outside
the code. -/

section
namespace Sys2Proof.Machine

variable {s t : State} {i : Instr} {e : Cause}

/-! ## One step of a running core -/

theorem State.fetchDecode_error (h : s.fetchDecode = .error e) : e = .invalidInstruction ∨ e = .noInstruction := by
  unfold State.fetchDecode at h
  split_ifs at h
  · split at h
    · cases h; exact .inr rfl
    · cases h; exact .inl rfl
    · cases h
  · cases h; exact .inl rfl

theorem step_waits (hr : s.Running) (h : s.WaitsForInput) : step s = .refused .waitsForInput := by
  obtain ⟨hin, d, hd⟩ := h
  exact (step_of_fetchDecode_ok hr hd).trans (readInto_waits d hin)

/-- Everything an instruction can do in a running core, when it is no READ without a byte. -/
theorem exec_completes_or_raises (hr : s.Running) (hinput : (∃ d, i = .readR d) → s.input ≠ []) :
    ∃ t, exec i s = .next t ∧ (t.Running ∨ ∃ e, t = s.stopWith e) := by
  by_cases htab : ∃ e, s.Tabled i e
  · obtain ⟨e, h⟩ := htab
    exact ⟨_, (raises_iff_tabled hr.2).mpr h, .inr ⟨e, rfl⟩⟩
  · obtain ⟨t, ht, hstopped, _⟩ := exec_completes_of_not_tabled htab hinput
    have hload : t.loadFault = s.loadFault := (exec_effect ht).sameProgram.loadFault
    exact ⟨t, ht, .inl ⟨hload.trans hr.1, hstopped.trans hr.2⟩⟩

theorem step_completes_or_raises (hr : s.Running) (hw : ¬ s.WaitsForInput) :
    ∃ t, step s = .next t ∧
      ((t.Running ∧ ∃ i, s.fetchDecode = .ok i ∧ exec i s = .next t) ∨ ∃ e, t = s.stopWith e) := by
  cases hf : s.fetchDecode with
  | error e => exact ⟨_, step_of_fetchDecode_error hr hf, .inr ⟨e, rfl⟩⟩
  | ok i =>
    have hinput : (∃ d, i = .readR d) → s.input ≠ [] := fun ⟨d, hd⟩ hnil => hw ⟨hnil, d, hd ▸ hf⟩
    obtain ⟨t, ht, hend⟩ := exec_completes_or_raises hr hinput
    exact ⟨t, (step_of_fetchDecode_ok hr hf).trans ht, hend.imp_left fun hrun => ⟨hrun, i, rfl, ht⟩⟩

/-- Settles O13: a READ without a byte waits (`step_waits`), and every other step completes its instruction or raises
(`step_completes_or_raises`). -/
theorem runningCoreCompletesRaisesOrWaits : Obligations.RunningCoreCompletesRaisesOrWaits :=
  fun _ hr => ⟨step_waits hr, step_completes_or_raises hr⟩

/-- Everything that can have stopped the core in a step: the fetched instruction, by its row of the table, or the fetch
itself. -/
theorem step_stops_cases (h : step s = .next t) (ht : t.stopped = true) :
    ∃ e, t = s.stopWith e ∧ ((∃ i, s.fetchDecode = .ok i ∧ s.Tabled i e) ∨ s.fetchDecode = .error e) := by
  obtain ⟨⟨_, hs⟩, ⟨i, hi, hx⟩ | ⟨e, he, _, rfl⟩⟩ := step_next h
  · obtain ⟨e, rfl⟩ := (exec_effect hx).eq_stopWith hs ht
    exact ⟨e, rfl, .inl ⟨i, hi, (raises_iff_tabled hs).mp hx⟩⟩
  · exact ⟨e, rfl, .inr he⟩

/-! ## BREAK and success -/

theorem step_succeeded_iff (hr : s.Running) (h : step s = .next t) : t.Succeeded ↔ s.fetchDecode = .ok .brk := by
  constructor
  · rintro ⟨hstopped, hnone⟩
    obtain ⟨e, rfl, ⟨i, hi, htab⟩ | herror⟩ := step_stops_cases h hstopped
    · obtain rfl : e = .none := hnone
      rw [hi, State.tabled_none_iff.mp htab]
    · rcases State.fetchDecode_error herror with rfl | rfl <;> cases hnone
  · intro hbrk
    have hx : step s = .next (s.stopWith .none) :=
      (step_of_fetchDecode_ok hr hbrk).trans (raise_running hr.2 .none)
    obtain rfl : s.stopWith .none = t := Host.Outcome.next.inj (hx.symm.trans h)
    exact ⟨rfl, rfl⟩

/-- Settles O16: only BREAK has a row with the cause None (`step_succeeded_iff`), so that any other stop is a fault. -/
theorem succeededMeansABreakWasExecuted : Obligations.SucceededMeansABreakWasExecuted := by
  intro s t hr h
  have hsucceeded := step_succeeded_iff hr h
  exact ⟨hsucceeded, fun ht hbrk => ⟨ht, fun hnone => hbrk (hsucceeded.mp ⟨ht, hnone⟩)⟩⟩

/-- Settles O46: BREAK raises None, after which there is no step (`step_of_stopped`), and it alone ends a run successfully
(`step_succeeded_iff`). -/
theorem breakStopsTheCoreCleanly : Obligations.BreakStopsTheCoreCleanly := by
  refine ⟨fun s hr => ⟨s.stopWith .none, ?_, rfl, ?_, ⟨rfl, rfl⟩, ?_⟩, fun _ => rfl, fun s t hr h => ?_⟩
  · exact raise_running hr.2 .none
  · exact s.stopWith_pc .none
  · exact step_of_stopped hr.1 rfl
  · exact (step_succeeded_iff hr h).mp

/-! ## Runs -/

theorem step_cause_of_not_stopped (h : step s = .next t) (ht : t.stopped = false) : t.cause = s.cause := by
  cases step_effect h with
  | regs | data | sent | received => rfl
  | raised => cases ht

theorem step_ne_next_of_stopped (hs : s.stopped = true) : step s ≠ .next t := by
  intro h
  obtain ⟨⟨_, hrun⟩, _⟩ := step_next h
  exact absurd (hrun.symm.trans hs) Bool.false_ne_true

/-- Settles O15: a stopped core takes no step, and a step that does not stop the core leaves the cause, by induction on
the run. -/
theorem faultSlotIsWrittenOnce : Obligations.FaultSlotIsWrittenOnce := by
  intro s t r
  induction r with
  | refl s => exact ⟨fun _ => rfl, fun hs => ⟨rfl, hs⟩⟩
  | step h _ ih =>
    refine ⟨fun hs => absurd h (step_ne_next_of_stopped hs), fun ht => ?_⟩
    obtain ⟨hcause, hmid⟩ := ih.2 ht
    obtain ⟨⟨_, hrun⟩, _⟩ := step_next h
    exact ⟨hcause.trans (step_cause_of_not_stopped h hmid), hrun⟩

theorem State.stopWith_jumpTarget (s : State) (e : Cause) (i : Instr) :
    (s.stopWith e).jumpTarget i = s.jumpTarget i := by
  cases i <;> rfl

theorem State.CodeWellFormed.of_sameProgram (hc : s.CodeWellFormed) (h : s.SameProgram t) : t.CodeWellFormed := by
  intro a ha
  rw [State.ifetch, h.params, h.imem]
  exact hc a (h.ibound ▸ ha)

/-- With well-formed code the fetch fails only outside the code region. -/
theorem State.CodeWellFormed.fetchDecode_error (hc : s.CodeWellFormed) (h : s.fetchDecode = .error e) :
    ¬ s.pc < s.ibound ∧ e = .invalidInstruction := by
  have hpc : ¬ s.pc < s.ibound := fun hlt => by
    obtain ⟨i, hi⟩ := hc s.pc hlt
    exact nomatch (State.fetchDecode_ok_iff.mpr ⟨hlt, hi⟩).symm.trans h
  rw [State.fetchDecode_of_pc_outside hpc] at h
  exact ⟨hpc, (Except.error.inj h).symm⟩

/-- What the recorded cause says of the core when its code is well formed: never NoInstruction, and InvalidInstruction only
where pc has left the code or a JUMP would. -/
def State.CauseFitsCode (s : State) : Prop :=
  s.cause ≠ .noInstruction ∧
    (s.cause = .invalidInstruction → ¬ s.pc < s.ibound ∨
      ∃ i w, decode s.params (s.ifetch s.pc) = .instr i ∧ s.jumpTarget i = some w ∧ ¬ w < s.ibound)

theorem State.CodeWellFormed.step_causeFitsCode (hc : s.CodeWellFormed) (h : step s = .next t)
    (ht : t.stopped = true) : t.CauseFitsCode := by
  obtain ⟨e, rfl, ⟨i, hi, htab⟩ | herror⟩ := step_stops_cases h ht
  · obtain ⟨_, hdecode⟩ := State.fetchDecode_ok_iff.mp hi
    refine ⟨fun hno : e = .noInstruction => State.not_tabled_noInstruction (hno ▸ htab), fun hinvalid => .inr ?_⟩
    obtain rfl : e = .invalidInstruction := hinvalid
    obtain ⟨w, hw, hlt⟩ := State.tabled_invalidInstruction_iff.mp htab
    exact ⟨i, w, hdecode, (s.stopWith_jumpTarget _ i).trans hw, hlt⟩
  · obtain ⟨hpc, rfl⟩ := hc.fetchDecode_error herror
    exact ⟨nofun, fun _ => .inl hpc⟩

/-- A run that has left its first state has a last step. -/
theorem Reaches.last_step (r : Reaches s t) : t = s ∨ ∃ u, Reaches s u ∧ Machine.step u = .next t := by
  induction r with
  | refl s => exact .inl rfl
  | @step s _ _ h _ ih =>
    rcases ih with rfl | ⟨u, hu, hlast⟩
    · exact .inr ⟨s, .refl s, h⟩
    · exact .inr ⟨u, .step h hu, hlast⟩

/-- Settles O49: the code is still well formed before the last step, so that this step records a cause that fits
(`State.CodeWellFormed.step_causeFitsCode`). -/
theorem wellFormedCodeNeverRaisesNoInstruction : Obligations.WellFormedCodeNeverRaisesNoInstruction := by
  intro s t hr hc r ht
  rcases r.last_step with rfl | ⟨u, hu, hlast⟩
  · exact absurd (hr.2.symm.trans ht) Bool.false_ne_true
  · exact (hc.of_sameProgram hu.sameProgram).step_causeFitsCode hlast ht

/-- Settles O22: pc = 0 is not below IBOUND = 0, so the fetch check fails. -/
theorem firstStepOfAnEmptyMachineRaises : Obligations.FirstStepOfAnEmptyMachineRaises := by
  refine fun p => ⟨State.create_pc p, ?_⟩
  have houtside : ¬ (State.create p).pc < (State.create p).ibound := Nat.not_lt_zero _
  exact step_of_fetchDecode_error ⟨rfl, rfl⟩ (State.fetchDecode_of_pc_outside houtside)

/-! ## The length of a run -/

theorem step_ne_next_of_waits (hw : s.WaitsForInput) : step s ≠ .next t := by
  intro h
  obtain ⟨hr, _⟩ := step_next h
  exact nomatch (step_waits hr hw).symm.trans h

theorem step_ne_next_of_stopped_or_waits (h : s.stopped = true ∨ s.WaitsForInput) : step s ≠ .next t :=
  h.elim step_ne_next_of_stopped step_ne_next_of_waits

/-- Settles O57: `step` is a function, and a core that is stopped or waits takes no step, by induction on the first run. -/
theorem runTakesAnExactNumberOfSteps : Obligations.RunTakesAnExactNumberOfSteps := by
  intro s t u n n' r r' ht hu
  induction r generalizing n' with
  | refl s =>
    cases r' with
    | refl => exact ⟨rfl, rfl⟩
    | step h _ => exact absurd h (step_ne_next_of_stopped_or_waits ht)
  | step h r ih =>
    cases r' with
    | refl => exact absurd h (step_ne_next_of_stopped_or_waits hu)
    | step h' r' =>
      obtain rfl := Host.Outcome.next.inj (h.symm.trans h')
      obtain ⟨rfl, rfl⟩ := ih _ r' ht
      exact ⟨rfl, rfl⟩

end Sys2Proof.Machine
end

/-! SUPPORT. The assembled machine: the assembly of a text changes the two stores and IBOUND alone, and keeps the code well
formed (R38, R194). Then what a load asks of the machine (R191, R193), and the host's run from load to report. -/

section
namespace Sys2Proof.Machine

variable {p : LoaderParams} {s t u : State}

/-! ## What no assembly changes -/

/-- Nothing but the two stores and IBOUND differs. -/
structure State.SameButStores (s t : State) : Prop where
  regs : t.regs = s.regs
  params : t.params = s.params
  stopped : t.stopped = s.stopped
  cause : t.cause = s.cause
  loadFault : t.loadFault = s.loadFault
  input : t.input = s.input
  output : t.output = s.output

theorem State.SameButStores.refl (s : State) : s.SameButStores s := ⟨rfl, rfl, rfl, rfl, rfl, rfl, rfl⟩

theorem State.SameButStores.trans (h : s.SameButStores t) (k : t.SameButStores u) : s.SameButStores u :=
  ⟨k.regs.trans h.regs, k.params.trans h.params, k.stopped.trans h.stopped, k.cause.trans h.cause,
    k.loadFault.trans h.loadFault, k.input.trans h.input, k.output.trans h.output⟩

theorem appendInstr_ok {i : Instr} (h : appendInstr p i s = .ok t) : t = s.withAppended i := by
  unfold appendInstr at h
  split_ifs at h
  cases h; rfl

theorem assembleInstr_sameButStores {op : Opcode} {toks : List (List Byte)} (h : assembleInstr p op toks s = .ok t) :
    s.SameButStores t := by
  unfold assembleInstr at h
  split_ifs at h
  split at h
  · cases h
  · split at h
    · cases h
    · obtain rfl := appendInstr_ok h
      exact ⟨rfl, rfl, rfl, rfl, rfl, rfl, rfl⟩

theorem assembleLine_sameButStores {l : List Byte} (h : assembleLine p l s = .ok t) : s.SameButStores t := by
  unfold assembleLine at h
  split at h
  · cases h; exact .refl s
  · split at h
    · cases h
    · exact assembleInstr_sameButStores h
    · obtain ⟨a, w, _, _, rfl⟩ := assembleDw_ok h
      exact ⟨rfl, rfl, rfl, rfl, rfl, rfl, rfl⟩
    · obtain ⟨d, rfl, _⟩ := assembleDs_ok h
      exact ⟨rfl, rfl, rfl, rfl, rfl, rfl, rfl⟩

/-- What every line that assembles keeps is kept by the lines of a program. -/
theorem assembleLines_keeps {P : State → Prop}
    (keep : ∀ {l : List Byte} {a b : State}, P a → assembleLine p l a = .ok b → P b) {ls : List (List Byte)}
    (h : assembleLines p ls s = .ok t) (hs : P s) : P t := by
  induction ls generalizing s with
  | nil => cases h; exact hs
  | cons l ls ih =>
    obtain ⟨u, hl, hls⟩ := assembleLines_cons h
    exact ih hls (keep hs hl)

theorem assemble_ok {text : List Byte} (h : assemble p text s = .ok t) :
    assembleLines p (splitLines text) s = .ok t := by
  unfold assemble at h
  split_ifs at h
  exact h

theorem assemble_sameButStores {text : List Byte} (h : assemble p text s = .ok t) : s.SameButStores t :=
  assembleLines_keeps (fun sofar hl => sofar.trans (assembleLine_sameButStores hl)) (assemble_ok h) (.refl s)

/-! ## The assembled code -/

theorem State.CodeWellFormed.withAppended (hc : s.CodeWellFormed) (hi : s.Inv) {i : Instr}
    (hw : i.wellFormed s.params = true) : (s.withAppended i).CodeWellFormed := by
  intro a ha
  rw [hi.withAppended_ifetch]
  split_ifs with hnew
  · exact ⟨i, decode_encode hi.params hw⟩
  · exact hc a (Nat.lt_of_le_of_ne (Nat.le_of_lt_succ ha) hnew)

theorem assembleLine_codeWellFormed {l : List Byte} (hi : s.Inv) (hc : s.CodeWellFormed)
    (h : assembleLine p l s = .ok t) : t.CodeWellFormed := by
  cases hl : isInstructionLine p l with
  | true =>
    obtain ⟨i, _, hw, _, rfl⟩ := assembleLine_instruction hi hl h
    exact hc.withAppended hi hw
  | false =>
    obtain ⟨d, rfl, _⟩ := assembleLine_other hl h
    exact hc

theorem assembleLines_inv_codeWellFormed {ls : List (List Byte)} (hi : s.Inv) (hc : s.CodeWellFormed)
    (h : assembleLines p ls s = .ok t) : t.Inv ∧ t.CodeWellFormed := by
  refine assembleLines_keeps (P := fun u => u.Inv ∧ u.CodeWellFormed) (fun hu hl => ?_) h ⟨hi, hc⟩
  obtain ⟨hinv, hcode⟩ := hu
  exact ⟨(assembleLine_grownBy hinv hl).inv, assembleLine_codeWellFormed hinv hcode hl⟩

/-- Settles O48: each line keeps the invariant and the well-formed code (`assembleLines_inv_codeWellFormed`) and changes
the stores and IBOUND alone (`assemble_sameButStores`). -/
theorem assembledMachineMeetsTheInvariant : Obligations.AssembledMachineMeetsTheInvariant := by
  intro p text s t hi hc h
  obtain ⟨hinv, hcode⟩ := assembleLines_inv_codeWellFormed hi hc (assemble_ok h)
  obtain ⟨hregs, hparams, hstopped, hcause, hload, hin, hout⟩ := assemble_sameButStores h
  exact ⟨hinv, hcode, hregs, hparams, hstopped, hcause, hload, hin, hout⟩

/-! ## What a load asks of the machine -/

theorem State.justCreated_stopped (h : s.justCreated = true) : s.stopped = false := by
  rw [of_decide_eq_true h]
  rfl

theorem State.justCreated_ibound (h : s.justCreated = true) : s.ibound = 0 := by
  rw [of_decide_eq_true h]
  rfl

theorem State.create_justCreated (m : Params) : (State.create m).justCreated = true := decide_eq_true rfl

theorem State.load_of_not_justCreated (h : ¬ s.justCreated = true) (text : List Byte) :
    s.load p text = .refused .notJustCreated := if_neg h

theorem State.justCreated_of_load {text : List Byte} (h : s.load p text = .next t) : s.justCreated = true := by
  by_contra hj
  exact nomatch (State.load_of_not_justCreated hj text).symm.trans h

/-- Settles O55: each slot is written only while it is unset, and only a machine just created is loaded, on which both
are unset and IBOUND is 0. -/
theorem eachFaultChannelIsSetAtMostOnce : Obligations.EachFaultChannelIsSetAtMostOnce := by
  refine ⟨fun e s hs => if_pos hs, fun e s hl => recordLoadFault_set hl e, fun s t p text h => ?loaded,
    fun s p text h => ?refused⟩
  case loaded =>
    have hj := State.justCreated_of_load h
    exact ⟨State.justCreated_loadFault hj, State.justCreated_stopped hj, State.justCreated_ibound hj⟩
  case refused =>
    refine State.load_of_not_justCreated (fun hj => ?_) text
    rcases h with hload | hstopped | hibound
    · exact hload (State.justCreated_loadFault hj)
    · exact absurd ((State.justCreated_stopped hj).symm.trans hstopped) Bool.false_ne_true
    · exact hibound (State.justCreated_ibound hj)

/-! ## The host's loop -/

theorem State.report_of_loadFault {e : LoadFault} (h : s.loadFault = some e) : s.report = some (.loadFault e) := by
  rw [State.report, h]

theorem State.report_of_stopped (hl : s.loadFault = none) (hs : s.stopped = true) :
    s.report = some (.stopped s.cause s.pc) := by
  rw [State.report, hl]
  exact if_pos hs

theorem State.report_of_running (hr : s.Running) : s.report = none := by
  obtain ⟨hl, hs⟩ := hr
  simp [State.report, hl, hs]

theorem runUntilStop_of_report {r : Report} (h : s.report = some r) (k : Nat) : runUntilStop k s = .reported r s := by
  cases k <;> simp only [runUntilStop, h]

theorem runUntilStop_zero_of_running (hr : s.Running) : runUntilStop 0 s = .abandoned s := by
  simp only [runUntilStop, State.report_of_running hr]

theorem runUntilStop_of_waits (hr : s.Running) (hw : s.WaitsForInput) (k : Nat) :
    runUntilStop (k + 1) s = .waiting s := by
  simp only [runUntilStop, State.report_of_running hr, step_waits hr hw]

theorem runUntilStop_of_step (h : step s = .next t) (k : Nat) : runUntilStop (k + 1) s = runUntilStop k t := by
  obtain ⟨hr, _⟩ := step_next h
  simp only [runUntilStop, State.report_of_running hr, h]

/-- The end `z` that the host's loop, cut after `k` steps, may leave a loaded machine `s` at (R193, R204, R205). -/
def LoopEnd (k : Nat) (s : State) (z : RunEnd) : Prop :=
  (∀ r t, z = .reported r t →
    r = .stopped t.cause t.pc ∧ t.stopped = true ∧ ∃ n, n ≤ k ∧ ReachesIn n s t) ∧
  (∀ t, z = .waiting t → t.Running ∧ t.WaitsForInput ∧ ∃ n, n ≤ k ∧ ReachesIn n s t) ∧
  (∀ t, z = .abandoned t → t.Running ∧ ReachesIn k s t) ∧
  (∀ t, z ≠ .noStep t)

theorem LoopEnd.reported (k : Nat) (hs : s.stopped = true) : LoopEnd k s (.reported (.stopped s.cause s.pc) s) := by
  refine ⟨fun r t h => ?_, nofun, nofun, nofun⟩
  cases h
  exact ⟨rfl, hs, 0, Nat.zero_le k, .refl s⟩

theorem LoopEnd.waiting (k : Nat) (hr : s.Running) (hw : s.WaitsForInput) : LoopEnd k s (.waiting s) := by
  refine ⟨nofun, fun t h => ?_, nofun, nofun⟩
  cases h
  exact ⟨hr, hw, 0, Nat.zero_le k, .refl s⟩

theorem LoopEnd.abandoned (hr : s.Running) : LoopEnd 0 s (.abandoned s) := by
  refine ⟨nofun, nofun, fun t h => ?_, nofun⟩
  cases h
  exact ⟨hr, .refl s⟩

/-- A step before the loop is one step more of the run. -/
theorem LoopEnd.step {k : Nat} {z : RunEnd} (h : Machine.step s = .next t) (hz : LoopEnd k t z) :
    LoopEnd (k + 1) s z := by
  obtain ⟨hreported, hwaiting, habandoned, hnoStep⟩ := hz
  refine ⟨fun r u hu => ?_, fun u hu => ?_, fun u hu => ?_, hnoStep⟩
  · obtain ⟨hr, hs, n, hn, hreach⟩ := hreported r u hu
    exact ⟨hr, hs, n + 1, Nat.succ_le_succ hn, .step h hreach⟩
  · obtain ⟨hr, hw, n, hn, hreach⟩ := hwaiting u hu
    exact ⟨hr, hw, n + 1, Nat.succ_le_succ hn, .step h hreach⟩
  · obtain ⟨hr, hreach⟩ := habandoned u hu
    exact ⟨hr, .step h hreach⟩

theorem runUntilStop_loopEnd_of_stopped (hl : s.loadFault = none) (hs : s.stopped = true) (k : Nat) :
    LoopEnd k s (runUntilStop k s) := by
  rw [runUntilStop_of_report (State.report_of_stopped hl hs)]
  exact .reported k hs

theorem runUntilStop_loopEnd (hl : s.loadFault = none) (k : Nat) : LoopEnd k s (runUntilStop k s) := by
  induction k generalizing s with
  | zero =>
    cases hs : s.stopped with
    | true => exact runUntilStop_loopEnd_of_stopped hl hs 0
    | false =>
      rw [runUntilStop_zero_of_running ⟨hl, hs⟩]
      exact .abandoned ⟨hl, hs⟩
  | succ k ih =>
    cases hs : s.stopped with
    | true => exact runUntilStop_loopEnd_of_stopped hl hs (k + 1)
    | false =>
      by_cases hw : s.WaitsForInput
      · rw [runUntilStop_of_waits ⟨hl, hs⟩ hw]
        exact .waiting (k + 1) ⟨hl, hs⟩ hw
      · obtain ⟨t, ht, _⟩ := step_completes_or_raises ⟨hl, hs⟩ hw
        rw [runUntilStop_of_step ht]
        exact (ih ((step_sameProgram ht).loadFault.trans hl)).step ht

/-! ## The run -/

theorem run_of_load {m : Params} {program bytes : List Byte} (h : (State.create m).load p program = .next s) (k : Nat) :
    run m p program bytes k = runUntilStop k (s.supply bytes) := by
  simp only [run, h]

/-- Settles O56: the load is the assembly's result or its load fault, which is reported at once; the loop of an assembled
program ends in one of the ways of R204 and R205 (`runUntilStop_loopEnd`). -/
theorem runFollowsTheHostsSequence : Obligations.RunFollowsTheHostsSequence := by
  refine fun m p program bytes k => ⟨fun e he => ?_, fun s hs => ?_⟩
  · rw [run_of_load (State.load_of_error (State.create_justCreated m) he)]
    exact runUntilStop_of_report (State.report_of_loadFault rfl) k
  · rw [run_of_load (State.load_of_ok (State.create_justCreated m) hs)]
    have hl : (s.supply bytes).loadFault = none := (assemble_sameButStores hs).loadFault
    exact runUntilStop_loopEnd hl k

end Sys2Proof.Machine
end
